-- ==== Sys2Proof/Word.lean ====
section
/-! DEFINITION. The machine words of PCORE: bytes, 64-bit limbs, and the two wide integer widths
(spec/00_scope.md R5, R10). -/

namespace Sys2Proof

/-- One byte of memory (spec/20_memory.md R50). -/
abbrev Byte := BitVec 8

/-- One 64-bit word: a limb, a pointer, a hint word, a command register (spec/00_scope.md R5, R6). -/
abbrev Word := BitVec 64

/-- A U256, four limbs (spec/00_scope.md R5). -/
abbrev U256 := BitVec 256

/-- A U384, six limbs (spec/00_scope.md R5). -/
abbrev U384 := BitVec 384

end Sys2Proof
end

