-- ==== Sys2Proof/Machine/Constants.lean ====
section
/-! DEFINITION. The constants of the fields and curves, as the spec prints them (spec/00_scope.md R7 to R9;
spec/46_bn254_pairing.md R264 to R270). The spec marks them as from general knowledge (notes/assumptions/9). -/

namespace Sys2Proof.Machine

/-- `SECP_P` (spec/00_scope.md R7). -/
def secpP : Nat := 0xFFFFFFFFFFFFFFFFFFFFFFFFFFFFFFFFFFFFFFFFFFFFFFFFFFFFFFFEFFFFFC2F

/-- `SECP_N` (spec/00_scope.md R7). -/
def secpN : Nat := 0xFFFFFFFFFFFFFFFFFFFFFFFFFFFFFFFEBAAEDCE6AF48A03BBFD25E8CD0364141

/-- The curve constant of secp256k1, `y² = x³ + 7` (spec/44_secp256k1.md R200). -/
def secpB : Nat := 7

/-- `Gx` of `SECP_G` (spec/00_scope.md R7). -/
def secpGx : Nat := 0x79BE667EF9DCBBAC55A06295CE870B07029BFCDB2DCE28D959F2815B16F81798

/-- `Gy` of `SECP_G` (spec/00_scope.md R7). -/
def secpGy : Nat := 0x483ADA7726A3C4655DA4FBFC0E1108A8FD17B448A68554199C47D08FFB10D4B8

/-- `BN_U` (spec/00_scope.md R8). -/
def bnU : Nat := 0x44E992B44A6909F1

/-- `BN_P` (spec/00_scope.md R8). -/
def bnP : Nat := 0x30644E72E131A029B85045B68181585D97816A916871CA8D3C208C16D87CFD47

/-- `BN_R` (spec/00_scope.md R8). -/
def bnR : Nat := 0x30644E72E131A029B85045B68181585D2833E84879B9709143E1F593F0000001

/-- The curve constant of BN254, `y² = x³ + 3` (spec/45_bn254_curve.md R230). -/
def bnB : Nat := 3

/-- The Miller loop parameter `6u + 2` (spec/46_bn254_pairing.md R270). -/
def bnLoop : Nat := 0x19D797039BE763BA8

/-- `b'` of the twist, real part (spec/46_bn254_pairing.md R266). -/
def twistBRe : Nat := 0x2B149D40CEB8AAAE81BE18991BE06AC3B5B4C5E559DBEFA33267E6DC24A138E5

/-- `b'` of the twist, imaginary part (spec/46_bn254_pairing.md R266). -/
def twistBIm : Nat := 0x009713B03AF0FED4CD2CAFADEED8FDF4A74FA084E52D1852E4A2BD0685C315D2

/-- `γ12`, real part (spec/46_bn254_pairing.md R268). -/
def gamma12Re : Nat := 0x2FB347984F7911F74C0BEC3CF559B143B78CC310C2C3330C99E39557176F553D

/-- `γ12`, imaginary part (spec/46_bn254_pairing.md R268). -/
def gamma12Im : Nat := 0x16C9E55061EBAE204BA4CC8BD75A079432AE2A1D0B7C9DCE1665D51C640FCBA2

/-- `γ13`, real part (spec/46_bn254_pairing.md R268). -/
def gamma13Re : Nat := 0x063CF305489AF5DCDC5EC698B6E2F9B9DBAAE0EDA9C95998DC54014671A0135A

/-- `γ13`, imaginary part (spec/46_bn254_pairing.md R268). -/
def gamma13Im : Nat := 0x07C03CBCAC41049A0704B5A7EC796F2B21807DC98FA25BD282D37F632623B0E3

/-- `γ22`, whose imaginary part is 0 (spec/46_bn254_pairing.md R268). -/
def gamma22Re : Nat := 0x30644E72E131A0295E6DD9E7E0ACCCB0C28F069FBB966E3DE4BD44E5607CFD48

/-- `γ23 = (p − 1, 0)` (spec/46_bn254_pairing.md R268). -/
def gamma23Re : Nat := bnP - 1

end Sys2Proof.Machine
end

