-- ==== Sys2Proof/Config.lean ====
section
/-! DEFINITION. What a platform fixes around PCORE: the open parameters of spec/00_scope.md R6 and
spec/93_implementation_defined.md part 2 (P3 to P6), as plain data. -/

namespace Sys2Proof

/-- What `Mapped` says of one byte address (spec/20_memory.md R51). -/
inductive Perm where
  | none
  | ro
  | rw
deriving DecidableEq, Repr

/-- One region of the platform's memory map: the bytes `base .. base + size - 1`. -/
structure Region where
  base : Nat
  size : Nat
  perm : Perm
deriving DecidableEq, Repr

/-- The open parameters of the spec. `map` is the parameter `Mapped`: the first region that holds an
address decides, and an address in no region is `none`. A parameter that is `Option.none` is
unbounded, which is the spec's default (P4 to P6). -/
structure Platform where
  map       : List Region
  hintDepth : Option Nat
  maxDigits : Option Nat
  maxPairs  : Option Nat
deriving DecidableEq, Repr

/-- The spec's defaults: no bound anywhere, and every byte of the address space `rw`, the map that P3
lets tests take. DESIGN CHOICE (notes/assumptions/3): no statement rests on the map. -/
def Platform.default : Platform where
  map       := [⟨0, 2 ^ 64, .rw⟩]
  hintDepth := Option.none
  maxDigits := Option.none
  maxPairs  := Option.none

end Sys2Proof
end

