-- ==== Sys2Proof/Syntax.lean ====
section
/-! DEFINITION. The 34 operations of PCORE (spec/30_encoding.md R80), one constructor per row of
spec/opcode_table.json. An operation has no operand field: its one pointer is the register `ARG`
(R81, R84), so a constructor is exactly an operation code. -/

namespace Sys2Proof

/-- An operation of PCORE, named after its mnemonic in spec/30_encoding.md R80. -/
inductive Instr where
  /-- ADD256 (0x01, format F1; spec/40_modadd.md R105). -/
  | add256
  /-- MODADD256 (0x02, format F4; spec/40_modadd.md R106). -/
  | modadd256
  /-- MODSUB256 (0x03, format F4; spec/40_modadd.md R107). -/
  | modsub256
  /-- MODNEG256 (0x04, format F5; spec/40_modadd.md R108). -/
  | modneg256
  /-- MODADD384 (0x05, format F4; spec/40_modadd.md R109). -/
  | modadd384
  /-- MODSUB384 (0x06, format F4; spec/40_modadd.md R110). -/
  | modsub384
  /-- MODNEG384 (0x07, format F5; spec/40_modadd.md R111). -/
  | modneg384
  /-- ARITH256 (0x10, format F2; spec/41_modmul.md R130). -/
  | arith256
  /-- ARITH256_MOD (0x11, format F3; spec/41_modmul.md R131). -/
  | arith256Mod
  /-- ARITH384_MOD (0x12, format F3; spec/41_modmul.md R132). -/
  | arith384Mod
  /-- MODMUL256 (0x13, format F4; spec/41_modmul.md R135). -/
  | modmul256
  /-- MODSQR256 (0x14, format F5; spec/41_modmul.md R136). -/
  | modsqr256
  /-- MODMUL384 (0x15, format F4; spec/41_modmul.md R137). -/
  | modmul384
  /-- MODSQR384 (0x16, format F5; spec/41_modmul.md R138). -/
  | modsqr384
  /-- MODINV256_F (0x20, format F5; spec/42_modinv.md R151). -/
  | modinv256F
  /-- MODINV256_H (0x21, format F5; spec/42_modinv.md R152). -/
  | modinv256H
  /-- MODINV384_F (0x22, format F5; spec/42_modinv.md R153). -/
  | modinv384F
  /-- MODINV384_H (0x23, format F5; spec/42_modinv.md R154). -/
  | modinv384H
  /-- BN254_FP_INV (0x24, format F6; spec/42_modinv.md R155). -/
  | bn254FpInv
  /-- MODEXP (0x30, format F7; spec/43_modexp.md R176). -/
  | modexp
  /-- SECP256K1_ADD (0x40, format F8; spec/44_secp256k1.md R203). -/
  | secp256k1Add
  /-- SECP256K1_DBL (0x41, format F9; spec/44_secp256k1.md R204). -/
  | secp256k1Dbl
  /-- SECP256K1_CADD (0x42, format F8; spec/44_secp256k1.md R206). -/
  | secp256k1Cadd
  /-- SECP256K1_MUL (0x43, format F10; spec/44_secp256k1.md R208). -/
  | secp256k1Mul
  /-- SECP256K1_DMUL_G (0x44, format F11; spec/44_secp256k1.md R210). -/
  | secp256k1DmulG
  /-- BN254_CURVE_ADD (0x50, format F8; spec/45_bn254_curve.md R231). -/
  | bn254CurveAdd
  /-- BN254_CURVE_DBL (0x51, format F9; spec/45_bn254_curve.md R232). -/
  | bn254CurveDbl
  /-- BN254_CADD (0x52, format F8; spec/45_bn254_curve.md R233). -/
  | bn254Cadd
  /-- BN254_ECADD (0x53, format F12; spec/45_bn254_curve.md R235). -/
  | bn254Ecadd
  /-- BN254_ECMUL (0x54, format F10; spec/45_bn254_curve.md R236). -/
  | bn254Ecmul
  /-- BN254_COMPLEX_ADD (0x60, format F8; spec/46_bn254_pairing.md R261). -/
  | bn254ComplexAdd
  /-- BN254_COMPLEX_SUB (0x61, format F8; spec/46_bn254_pairing.md R262). -/
  | bn254ComplexSub
  /-- BN254_COMPLEX_MUL (0x62, format F8; spec/46_bn254_pairing.md R263). -/
  | bn254ComplexMul
  /-- BN254_ECPAIRING (0x63, format F13; spec/46_bn254_pairing.md R273). -/
  | bn254Ecpairing
deriving DecidableEq, Repr

/-- The mnemonic of spec/30_encoding.md R80, used by the host program syntax of R85. -/
def Instr.mnemonic : Instr → String
  | .add256 => "ADD256"
  | .modadd256 => "MODADD256"
  | .modsub256 => "MODSUB256"
  | .modneg256 => "MODNEG256"
  | .modadd384 => "MODADD384"
  | .modsub384 => "MODSUB384"
  | .modneg384 => "MODNEG384"
  | .arith256 => "ARITH256"
  | .arith256Mod => "ARITH256_MOD"
  | .arith384Mod => "ARITH384_MOD"
  | .modmul256 => "MODMUL256"
  | .modsqr256 => "MODSQR256"
  | .modmul384 => "MODMUL384"
  | .modsqr384 => "MODSQR384"
  | .modinv256F => "MODINV256_F"
  | .modinv256H => "MODINV256_H"
  | .modinv384F => "MODINV384_F"
  | .modinv384H => "MODINV384_H"
  | .bn254FpInv => "BN254_FP_INV"
  | .modexp => "MODEXP"
  | .secp256k1Add => "SECP256K1_ADD"
  | .secp256k1Dbl => "SECP256K1_DBL"
  | .secp256k1Cadd => "SECP256K1_CADD"
  | .secp256k1Mul => "SECP256K1_MUL"
  | .secp256k1DmulG => "SECP256K1_DMUL_G"
  | .bn254CurveAdd => "BN254_CURVE_ADD"
  | .bn254CurveDbl => "BN254_CURVE_DBL"
  | .bn254Cadd => "BN254_CADD"
  | .bn254Ecadd => "BN254_ECADD"
  | .bn254Ecmul => "BN254_ECMUL"
  | .bn254ComplexAdd => "BN254_COMPLEX_ADD"
  | .bn254ComplexSub => "BN254_COMPLEX_SUB"
  | .bn254ComplexMul => "BN254_COMPLEX_MUL"
  | .bn254Ecpairing => "BN254_ECPAIRING"

/-- D0's name of the operation, where the "D0 name" column of spec/30_encoding.md R80 gives one in the
form of a name; R85 accepts it as an alias of the mnemonic. -/
def Instr.d0Name : Instr → Option String
  | .add256 => some "add256"
  | .modadd256 => none
  | .modsub256 => none
  | .modneg256 => none
  | .modadd384 => none
  | .modsub384 => none
  | .modneg384 => none
  | .arith256 => some "arith256"
  | .arith256Mod => some "arith256_mod"
  | .arith384Mod => some "arith384_mod"
  | .modmul256 => none
  | .modsqr256 => none
  | .modmul384 => none
  | .modsqr384 => none
  | .modinv256F => none
  | .modinv256H => none
  | .modinv384F => none
  | .modinv384H => none
  | .bn254FpInv => some "inv_fp_bn254"
  | .modexp => some "modexp"
  | .secp256k1Add => some "secp256k1_add"
  | .secp256k1Dbl => some "secp256k1_dbl"
  | .secp256k1Cadd => none
  | .secp256k1Mul => none
  | .secp256k1DmulG => none
  | .bn254CurveAdd => some "bn254_curve_add"
  | .bn254CurveDbl => some "bn254_curve_dbl"
  | .bn254Cadd => none
  | .bn254Ecadd => some "ecadd"
  | .bn254Ecmul => some "ecmul"
  | .bn254ComplexAdd => some "bn254_complex_add"
  | .bn254ComplexSub => some "bn254_complex_sub"
  | .bn254ComplexMul => some "bn254_complex_mul"
  | .bn254Ecpairing => some "ecpairing"

end Sys2Proof
end

