-- ==== Sys2Proof/WellFormed.lean ====
section
/-! DEFINITION. Well-formed commands. An `Instr` has no operand field, so what can be ill-formed is the
8-bit command code itself: its `unit` and `fn` fields (spec/30_encoding.md R81) must name one of the 34
rows of R80; every other code is reserved (R83). -/

namespace Sys2Proof

/-- The `unit` field of an operation code, `OP` bits 7:4 (spec/30_encoding.md R81). -/
def unitField (c : Byte) : Nat := c.toNat / 16

/-- The `fn` field of an operation code, `OP` bits 3:0 (spec/30_encoding.md R81). -/
def fnField (c : Byte) : Nat := c.toNat % 16

/-- Whether `unit` is one of the seven units of spec/30_encoding.md R81; units 7 to 15 are reserved
(R83). -/
def unitOk (unit : Nat) : Bool := unit ≤ 6

/-- Whether `fn` is a function of `unit`: the rows of spec/30_encoding.md R80, unit by unit. The adder's
functions start at 1 (code `0x00` is illegal, R83). -/
def fnOk (unit fn : Nat) : Bool :=
  match unit with
  | 0 => 1 ≤ fn && fn ≤ 7
  | 1 => fn ≤ 6
  | 2 => fn ≤ 4
  | 3 => fn = 0
  | 4 => fn ≤ 4
  | 5 => fn ≤ 4
  | 6 => fn ≤ 3
  | _ => false

/-- An operation code is well formed when both of its fields are (spec/30_encoding.md R80, R83). -/
def codeWellFormed (c : Byte) : Bool := unitOk (unitField c) && fnOk (unitField c) (fnField c)

/-- The `unit` and `fn` of each operation (spec/30_encoding.md R80, R81), unit by unit. -/
def Instr.unitFn : Instr → Nat × Nat
  | .add256 => (0, 1)
  | .modadd256 => (0, 2)
  | .modsub256 => (0, 3)
  | .modneg256 => (0, 4)
  | .modadd384 => (0, 5)
  | .modsub384 => (0, 6)
  | .modneg384 => (0, 7)
  | .arith256 => (1, 0)
  | .arith256Mod => (1, 1)
  | .arith384Mod => (1, 2)
  | .modmul256 => (1, 3)
  | .modsqr256 => (1, 4)
  | .modmul384 => (1, 5)
  | .modsqr384 => (1, 6)
  | .modinv256F => (2, 0)
  | .modinv256H => (2, 1)
  | .modinv384F => (2, 2)
  | .modinv384H => (2, 3)
  | .bn254FpInv => (2, 4)
  | .modexp => (3, 0)
  | .secp256k1Add => (4, 0)
  | .secp256k1Dbl => (4, 1)
  | .secp256k1Cadd => (4, 2)
  | .secp256k1Mul => (4, 3)
  | .secp256k1DmulG => (4, 4)
  | .bn254CurveAdd => (5, 0)
  | .bn254CurveDbl => (5, 1)
  | .bn254Cadd => (5, 2)
  | .bn254Ecadd => (5, 3)
  | .bn254Ecmul => (5, 4)
  | .bn254ComplexAdd => (6, 0)
  | .bn254ComplexSub => (6, 1)
  | .bn254ComplexMul => (6, 2)
  | .bn254Ecpairing => (6, 3)

/-- An operation is well formed when its unit and function are rows of spec/30_encoding.md R80. -/
def WellFormed (i : Instr) : Bool := unitOk i.unitFn.1 && fnOk i.unitFn.1 i.unitFn.2

end Sys2Proof
end

