-- ==== Sys2Proof/Decode.lean ====
section
/-! DEFINITION. The decoder and encoder of operation codes (spec/30_encoding.md R80, R81, R83): a command
is 8 bits, "a decoder needs only the `code` column: the match value is the code and the mask is `0xFF`". -/

namespace Sys2Proof

/-- One row of the table of spec/30_encoding.md R80. -/
structure OpRow where
  code  : Byte
  mask  : Byte
  instr : Instr
deriving DecidableEq, Repr

/-- The table of spec/30_encoding.md R80, in its order. -/
def opTable : List OpRow := [
  ⟨0x01, 0xFF, .add256⟩,
  ⟨0x02, 0xFF, .modadd256⟩,
  ⟨0x03, 0xFF, .modsub256⟩,
  ⟨0x04, 0xFF, .modneg256⟩,
  ⟨0x05, 0xFF, .modadd384⟩,
  ⟨0x06, 0xFF, .modsub384⟩,
  ⟨0x07, 0xFF, .modneg384⟩,
  ⟨0x10, 0xFF, .arith256⟩,
  ⟨0x11, 0xFF, .arith256Mod⟩,
  ⟨0x12, 0xFF, .arith384Mod⟩,
  ⟨0x13, 0xFF, .modmul256⟩,
  ⟨0x14, 0xFF, .modsqr256⟩,
  ⟨0x15, 0xFF, .modmul384⟩,
  ⟨0x16, 0xFF, .modsqr384⟩,
  ⟨0x20, 0xFF, .modinv256F⟩,
  ⟨0x21, 0xFF, .modinv256H⟩,
  ⟨0x22, 0xFF, .modinv384F⟩,
  ⟨0x23, 0xFF, .modinv384H⟩,
  ⟨0x24, 0xFF, .bn254FpInv⟩,
  ⟨0x30, 0xFF, .modexp⟩,
  ⟨0x40, 0xFF, .secp256k1Add⟩,
  ⟨0x41, 0xFF, .secp256k1Dbl⟩,
  ⟨0x42, 0xFF, .secp256k1Cadd⟩,
  ⟨0x43, 0xFF, .secp256k1Mul⟩,
  ⟨0x44, 0xFF, .secp256k1DmulG⟩,
  ⟨0x50, 0xFF, .bn254CurveAdd⟩,
  ⟨0x51, 0xFF, .bn254CurveDbl⟩,
  ⟨0x52, 0xFF, .bn254Cadd⟩,
  ⟨0x53, 0xFF, .bn254Ecadd⟩,
  ⟨0x54, 0xFF, .bn254Ecmul⟩,
  ⟨0x60, 0xFF, .bn254ComplexAdd⟩,
  ⟨0x61, 0xFF, .bn254ComplexSub⟩,
  ⟨0x62, 0xFF, .bn254ComplexMul⟩,
  ⟨0x63, 0xFF, .bn254Ecpairing⟩]

/-- Why a decoder refuses. -/
inductive DecodeError where
  /-- The code is in no row of spec/30_encoding.md R80 (R83). -/
  | illegalCode (c : Byte)
  /-- There is no byte to decode. -/
  | noByte
deriving DecidableEq, Repr

/-- The operation an 8-bit code stands for (spec/30_encoding.md R80); every other code is refused by
name (R83). -/
def decode (c : Byte) : Except DecodeError Instr :=
  match opTable.find? (fun r => c &&& r.mask == r.code) with
  | some r => .ok r.instr
  | none   => .error (.illegalCode c)

/-- Decoding from a list of bytes: a command has one length, one byte (spec/30_encoding.md R81). -/
def decodeBytes : List Byte → Except DecodeError (Instr × List Byte)
  | [] => .error .noByte
  | c :: rest =>
    match decode c with
    | .ok i => .ok (i, rest)
    | .error e => .error e

/-- The operation code of an operation (spec/30_encoding.md R80, column `code`). -/
def encode : Instr → Byte
  | .add256 => 0x01
  | .modadd256 => 0x02
  | .modsub256 => 0x03
  | .modneg256 => 0x04
  | .modadd384 => 0x05
  | .modsub384 => 0x06
  | .modneg384 => 0x07
  | .arith256 => 0x10
  | .arith256Mod => 0x11
  | .arith384Mod => 0x12
  | .modmul256 => 0x13
  | .modsqr256 => 0x14
  | .modmul384 => 0x15
  | .modsqr384 => 0x16
  | .modinv256F => 0x20
  | .modinv256H => 0x21
  | .modinv384F => 0x22
  | .modinv384H => 0x23
  | .bn254FpInv => 0x24
  | .modexp => 0x30
  | .secp256k1Add => 0x40
  | .secp256k1Dbl => 0x41
  | .secp256k1Cadd => 0x42
  | .secp256k1Mul => 0x43
  | .secp256k1DmulG => 0x44
  | .bn254CurveAdd => 0x50
  | .bn254CurveDbl => 0x51
  | .bn254Cadd => 0x52
  | .bn254Ecadd => 0x53
  | .bn254Ecmul => 0x54
  | .bn254ComplexAdd => 0x60
  | .bn254ComplexSub => 0x61
  | .bn254ComplexMul => 0x62
  | .bn254Ecpairing => 0x63

/-- The operation read from the `nbits` low bits `w` of a row of spec/opcode_table.json, laid out as
bytes, the first byte in bits 7..0. -/
def decodeTableWord (nbits w : Nat) : Option Instr :=
  match decodeBytes [BitVec.ofNat 8 (w % 2 ^ nbits)] with
  | .ok (i, _) => some i
  | .error _   => none

end Sys2Proof
end

