-- ==== Sys2Proof/Machine/State.lean ====
section
/-! DEFINITION. The state of the system PCORE and its host form (spec/10_state.md R20 to R35), the reasons a
step can stop, and the state after reset (R35, spec/70_reset_and_hazards.md R340). -/

namespace Sys2Proof.Machine

/-- Memory: (address, byte) pairs in one canonical form (`Memory.wf`), over the whole 64-bit space of
spec/20_memory.md R50. -/
abbrev Memory := List Host.Cell

/-- What a byte that no pair lists reads as. DESIGN CHOICE, unsafe for runs from reset only
(notes/assumptions/2): the spec gives memory no content at start (spec/70_reset_and_hazards.md R340). -/
def unlistedByte : Byte := 0

/-- The canonical form of memory: addresses strictly rising and inside the space, no pair equal to what
an unlisted address reads as. -/
abbrev Memory.wf (m : Memory) : Prop :=
  m.Pairwise (fun x y => x.1 < y.1) ∧ ∀ c ∈ m, c.1 < 2 ^ 64 ∧ c.2 ≠ unlistedByte

/-- The fault causes an operation of PCORE can raise (spec/60_exceptions.md R302). Raising one is a next
state (R306), not a stop of the model. -/
inductive FaultCause where
  /-- The code written to `OP` is not in the table. -/
  | illegalOp
  /-- `ARG` or a pointer word is not a multiple of 8. -/
  | misaligned
  /-- A byte is unmapped or not writable, or a range passes the top of the space. -/
  | access
  /-- An input breaks an invariant or precondition. -/
  | precond
  /-- A modulus is zero, or a division by zero is met. -/
  | divZero
  /-- A popped hint fails its check. -/
  | hintVerify
deriving DecidableEq, Repr

/-- `PEND`, the latched record of an operation that waits for hint words (spec/10_state.md R32): the
constructor is its code, the fields its operands as read at issue and the address of its output. -/
inductive Pend where
  /-- MODINV256_H (spec/42_modinv.md R152). -/
  | modinv256H (a m : U256) (d : Word)
  /-- MODINV384_H (spec/42_modinv.md R154). -/
  | modinv384H (a m : U384) (d : Word)
  /-- BN254_FP_INV (spec/42_modinv.md R155). -/
  | bn254FpInv (a : U256) (d : Word)
  /-- SECP256K1_MUL (spec/44_secp256k1.md R208). -/
  | secpMul (k px py : U256) (q : Word)
  /-- SECP256K1_DMUL_G (spec/44_secp256k1.md R210). -/
  | secpDmulG (k1 k2 px py : U256) (q : Word)
  /-- BN254_ECMUL (spec/45_bn254_curve.md R236). -/
  | bnEcmul (k px py : U256) (q : Word)
deriving DecidableEq, Repr

/-- A hint query event (spec/10_state.md R38): its kind and operands. -/
inductive Query where
  | inv256 (x m : U256)
  | inv384 (x m : U384)
  | msbPos256 (x y : U256)
deriving DecidableEq, Repr

/-- The registers of the table of spec/10_state.md section 2, by name. -/
inductive Reg where
  | op
  | arg
  | ret
  | status
  | cause
  | hintPush
deriving DecidableEq, Repr

/-- The three registers the host may only read (spec/10_state.md section 2). -/
inductive ReadOnlyReg where
  | ret
  | status
  | cause
deriving DecidableEq, Repr

/-- The value of a host's memory store (spec/30_encoding.md R85): a given word, or the current `RET`. -/
inductive StoreValue where
  | word (v : Word)
  | ret
deriving DecidableEq, Repr

/-- One action of the host (spec/10_state.md R20 (b), spec/30_encoding.md R85). -/
inductive HostAction where
  /-- A write to `OP`: the issue of an operation (R22, R36). -/
  | writeOp (c : Byte)
  /-- A write to `ARG` (R23). -/
  | writeArg (v : Word)
  /-- A write to the port `HINT_PUSH` (R28). -/
  | pushHint (w : Word)
  /-- A read of a register; reads have no side effects (spec/60_exceptions.md R310). -/
  | readReg (r : Reg)
  /-- A write to a register the host may only read: no event of the model (spec/93 U19). -/
  | writeReadOnly (r : ReadOnlyReg) (v : Word)
  /-- A host store of one 64-bit word of memory (spec/30_encoding.md R85 `STORE`). -/
  | store (a : Word) (v : StoreValue)
  /-- The reset event (spec/70_reset_and_hazards.md R340). -/
  | reset
deriving DecidableEq, Repr

/-- The state. The first seven fields are all the state of PCORE (spec/10_state.md R21); `mem` is the
host's memory (R21, spec/20_memory.md R50). The last three are the model's own: the query history (R38),
the host's actions still to come (notes/assumptions/1), the open parameters (notes/assumptions/3). -/
structure State where
  /-- `OP` (R22). -/
  op      : BitVec 8
  /-- `ARG` (R23). -/
  arg     : Word
  /-- `RET` (R24). -/
  ret     : Word
  /-- `STATUS` (R25). -/
  status  : BitVec 2
  /-- `CAUSE` (R26). -/
  cause   : BitVec 8
  /-- `HINTQ`, the oldest word first (R27). -/
  hintq   : List Word
  /-- `PEND` (R32). -/
  pend    : Option Pend
  /-- Memory (spec/20_memory.md R50). -/
  mem     : Memory
  /-- The history of query events, the oldest first (R38). -/
  queries : List Query
  /-- The host's actions still to come, the next one first. -/
  host    : List HostAction
  /-- The platform's open parameters; no step changes them. -/
  plat    : Platform
deriving DecidableEq, Repr

/-- Why a step stops with a fault of the MODEL. PCORE's own faults are next states
(spec/60_exceptions.md R306). -/
inductive Fault where
  /-- Raised by a host store to a byte that the platform's map does not make `rw` or that lies past the
  top of the space: there is no memory there (spec/20_memory.md R51). Safe: the model stops. -/
  | hostStore (a : Word)
deriving DecidableEq, Repr

/-- Why the model gives a step no meaning. -/
inductive Refusal where
  /-- Raised by `exec` for an operation without a meaning; no operation of this model is one. Safe. -/
  | notModelled (mnemonic : String)
  /-- Raised by a host read of `OP` or `HINT_PUSH`, which are write-only: no event of the model
  (spec/93_implementation_defined.md U19). Safe. -/
  | readOfWriteOnly (r : Reg)
  /-- Raised by a host write to `RET`, `STATUS` or `CAUSE`, which are read-only: no event of the model
  (spec/93_implementation_defined.md U19). Safe. -/
  | writeOfReadOnly (r : ReadOnlyReg)
  /-- Raised by a push to a hint queue of bounded depth that is full: not specified
  (spec/92_eei_decisions.md D17, spec/93 U22). Safe; never with the default, an unbounded queue. -/
  | hintQueueFull
deriving DecidableEq, Repr

/-- The machine right after reset (spec/10_state.md R35, spec/70_reset_and_hazards.md R340): every register
0, `STATUS` IDLE, `CAUSE` NONE, `HINTQ` empty, `PEND` absent. Memory lists nothing (notes/assumptions/2),
no query has been made, the host has nothing to do (notes/assumptions/1), and the platform is the default
(notes/assumptions/3). -/
def State.reset : State where
  op      := 0
  arg     := 0
  ret     := 0
  status  := 0
  cause   := 0
  hintq   := []
  pend    := none
  mem     := []
  queries := []
  host    := []
  plat    := Platform.default

end Sys2Proof.Machine
end

