-- ==== Sys2Proof/Machine/Flags.lean ====
section
/-! DEFINITION. The codes that stand for flags and outcomes: `STATUS` and `CAUSE` values, the tags and
error codes delivered in `RET` (spec/10_state.md R25, R26, R31; spec/60_exceptions.md R301 to R303), and
the FixedBig primitives with their carries and borrows (spec/40_modadd.md R100 to R104). -/

namespace Sys2Proof.Machine

/-! ### STATUS (spec/10_state.md R25) -/

/-- `IDLE`: no operation in progress. -/
def statusIdle : BitVec 2 := 0

/-- `WAIT_HINT`: an issued operation needs more hint words. -/
def statusWaitHint : BitVec 2 := 1

/-- `FAULT`: an operation raised a fault. -/
def statusFault : BitVec 2 := 2

/-! ### CAUSE (spec/60_exceptions.md R302) -/

/-- `NONE`: no fault. -/
def causeNone : BitVec 8 := 0

/-- The code of a fault cause in `CAUSE`. -/
def FaultCause.code : FaultCause → BitVec 8
  | .illegalOp  => 1
  | .misaligned => 2
  | .access     => 3
  | .precond    => 4
  | .divZero    => 5
  | .hintVerify => 6

/-! ### RET (spec/10_state.md R31) -/

/-- The `RET` of an operation with no return value (spec/10_state.md R24), and the tag "value present" of
an inverse (spec/42_modinv.md R150), and the error code "success" (spec/60_exceptions.md R301). -/
def retZero : Word := 0

/-- The tag `NoInverse` of a general inverse operation (spec/42_modinv.md R150). -/
def retNoInverse : Word := 1

/-- The tier 1 error codes (spec/60_exceptions.md R301). -/
inductive ErrorCode where
  | p1xRange
  | p1yRange
  | p2xRange
  | p2yRange
  | p1OffCurve
  | p2OffCurve
  | g2Range
  | g2OffTwist
  | g2OffGroup
deriving DecidableEq, Repr

/-- The number of an error code in `RET` (spec/60_exceptions.md R301). -/
def ErrorCode.code : ErrorCode → Word
  | .p1xRange   => 1
  | .p1yRange   => 2
  | .p2xRange   => 3
  | .p2yRange   => 4
  | .p1OffCurve => 5
  | .p2OffCurve => 6
  | .g2Range    => 7
  | .g2OffTwist => 8
  | .g2OffGroup => 9

/-! ### FixedBig (spec/40_modadd.md section 1), at any width `w` in bits -/

/-- `add_with_carry` (spec/40_modadd.md R100): the sum and the carry out. -/
def addWithCarry (w a b cin : Nat) : Nat × Nat :=
  ((a + b + cin) % 2 ^ w, (a + b + cin) / 2 ^ w)

/-- `sub_with_borrow` (spec/40_modadd.md R101): the difference and the borrow out. -/
def subWithBorrow (w a b bin : Nat) : Nat × Nat :=
  ((((a : Int) - b - bin) % ((2 : Int) ^ w)).toNat, if (a : Int) - b - bin < 0 then 1 else 0)

/-- The three outcomes of `cmp` (spec/40_modadd.md R102). -/
inductive Cmp where
  | lt
  | eq
  | gt
deriving DecidableEq, Repr

/-- `cmp` (spec/40_modadd.md R102), as the integers compare. -/
def cmp (a b : Nat) : Cmp := if a < b then .lt else if a = b then .eq else .gt

/-- `shl` (spec/40_modadd.md R103); a shift amount outside the domain is refused. -/
def shl (w a s : Nat) : Option Nat := if s < w then some (a * 2 ^ s % 2 ^ w) else none

/-- `shr` (spec/40_modadd.md R103); a shift amount outside the domain is refused. -/
def shr (w a s : Nat) : Option Nat := if s < w then some (a / 2 ^ s) else none

/-- `is_zero` (spec/40_modadd.md R104). -/
def isZero (a : Nat) : Bool := a == 0

/-- `bit(a, i)` (spec/40_modadd.md R104, spec/00_scope.md R10). -/
def bit (a i : Nat) : Nat := (a >>> i) % 2

/-- `msb(a)`, the index of the highest 1 bit of a non-zero `a` (spec/40_modadd.md R104). -/
def msb (a : Nat) : Nat := Nat.log2 a

/-- `leading_zeros` (spec/40_modadd.md R104). -/
def leadingZeros (w a : Nat) : Nat := if a = 0 then w else w - 1 - msb a

end Sys2Proof.Machine
end

