-- ==== Sys2Proof/Machine/Arith.lean ====
section
/-! DEFINITION. Limbs (spec/00_scope.md R11), field arithmetic (R16), the adder datapath of
spec/40_modadd.md R106 to R111, and exponentiation (spec/43_modexp.md R178, R180). All numbers are exact
naturals; a width appears only where a value enters or leaves memory. -/

namespace Sys2Proof.Machine

/-! ### Limbs -/

/-- `limb(v, j)` (spec/00_scope.md R11). -/
def limb (v j : Nat) : Word := BitVec.ofNat 64 (v >>> (64 * j))

/-- `from_limbs`, the least significant limb first (spec/00_scope.md R11). -/
def fromLimbs : List Word → Nat
  | [] => 0
  | w :: rest => w.toNat + 2 ^ 64 * fromLimbs rest

/-- The `l` low limbs of `v`, the least significant first (spec/00_scope.md R11). -/
def toLimbs : Nat → Nat → List Word
  | 0, _ => []
  | l + 1, v => BitVec.ofNat 64 v :: toLimbs l (v / 2 ^ 64)

/-! ### Field functions (spec/00_scope.md R16) -/

/-- `addm(a, b, m)`. -/
def addm (a b m : Nat) : Nat := (a + b) % m

/-- `subm(a, b, m)`. -/
def subm (a b m : Nat) : Nat := (a + (m - b % m)) % m

/-- `negm(a, m)`. -/
def negm (a m : Nat) : Nat := (m - a % m) % m

/-- `mulm(a, b, m)`. -/
def mulm (a b m : Nat) : Nat := a * b % m

/-- The loop of the extended Euclidean algorithm behind `invm`: `t0` and `t1` are, modulo `m`, the
multiples of `a` that `r0` and `r1` are; `fuel` exceeds `r1`. -/
def invLoop (m : Nat) : Nat → Nat → Nat → Nat → Nat → Nat
  | 0, _, _, _, _ => 0
  | fuel + 1, r0, r1, t0, t1 =>
    if r1 = 0 then (if r0 = 1 then t0 else 0)
    else invLoop m fuel r1 (r0 % r1) t1 (subm t0 (mulm (r0 / r1) t1 m) m)

/-- `invm(a, m)` (spec/00_scope.md R16): for `gcd(a, m) = 1`, the `x` in `[0, m)` with `a·x ≡ 1 (mod m)`.
Outside that domain it is not used (notes/assumptions/10). How it is found is not observable
(spec/42_modinv.md R157, spec/46_bn254_pairing.md R276). -/
def invm (a m : Nat) : Nat := invLoop m (a % m + 1) m (a % m) 0 (1 % m)

/-! ### The adder datapath -/

/-- The steps of MODADD (spec/40_modadd.md R106) at width `w`: one add, one conditional subtraction. -/
def modAddSteps (w a b m : Nat) : Nat :=
  let sum := addWithCarry w a b 0
  if sum.2 = 1 ∨ m ≤ sum.1 then (subWithBorrow w sum.1 m 0).1 else sum.1

/-- The steps of MODSUB (spec/40_modadd.md R107) at width `w`: one subtraction, one conditional add whose
carry is dropped. -/
def modSubSteps (w a b m : Nat) : Nat :=
  let diff := subWithBorrow w a b 0
  if diff.2 = 1 then (addWithCarry w diff.1 m 0).1 else diff.1

/-- The steps of MODNEG (spec/40_modadd.md R108). -/
def modNegSteps (a m : Nat) : Nat := if a = 0 then 0 else m - a

/-- `reduce(t, m)` (spec/41_modmul.md R133). -/
def reduce (t m : Nat) : Nat := t % m

/-! ### Exponentiation -/

/-- The loop of `sqmul` (spec/43_modexp.md R178): the `i` low bits of `e` are still to be consumed. -/
def sqmulLoop (x e m : Nat) : Nat → Nat → Nat
  | 0, r => r
  | i + 1, r =>
    let sq := r * r % m
    sqmulLoop x e m i (if bit e i = 1 then sq * x % m else sq)

/-- `sqmul(x, e, m)` (spec/43_modexp.md R178): square-and-multiply, the most significant bit of `e` first,
starting from `x` at that bit. For `e ≥ 1`. -/
def sqmul (x e m : Nat) : Nat := sqmulLoop x e m (msb e) x

/-- `powm(a, e, m)` (spec/00_scope.md R16, spec/43_modexp.md R180), with `a^0 = 1 mod m`. -/
def powm (a e m : Nat) : Nat := if e = 0 then 1 % m else sqmul (a % m) e m

end Sys2Proof.Machine
end

