-- ==== Sys2Proof/Machine/Ops.lean ====
section
/-! DEFINITION. The named operations over memory and registers: reading and writing bytes, words and limbs
(spec/20_memory.md R52 to R57), the alignment and access checks (R58, R59), entering a fault
(spec/60_exceptions.md R306) and leaving it by reset (R307, spec/70_reset_and_hazards.md R340), and
completing an operation (spec/10_state.md R37). -/

namespace Sys2Proof.Machine

/-! ### Bytes -/

/-- The byte at an address. -/
def Memory.read : Memory → Nat → Byte
  | [], _ => unlistedByte
  | (k, b) :: rest, a => if k = a then b else Memory.read rest a

/-- Memory with one byte written, in canonical form again. -/
def Memory.write : Memory → Nat → Byte → Memory
  | [], a, b => if b = unlistedByte then [] else [(a, b)]
  | (k, c) :: rest, a, b =>
    if a < k then (if b = unlistedByte then (k, c) :: rest else (a, b) :: (k, c) :: rest)
    else if a = k then (if b = unlistedByte then rest else (a, b) :: rest)
    else (k, c) :: Memory.write rest a b

/-! ### Words and limbs (spec/20_memory.md R52, R54, R55) -/

/-- The little-endian number in the `n` bytes at `a` (spec/20_memory.md R52). -/
def Memory.readLE (m : Memory) : Nat → Nat → Nat
  | _, 0 => 0
  | a, n + 1 => (m.read a).toNat + 2 ^ 8 * Memory.readLE m (a + 1) n

/-- Memory with the `n` low bytes of `v` written at `a`, the least significant first (R52). -/
def Memory.writeLE (m : Memory) : Nat → Nat → Nat → Memory
  | _, 0, _ => m
  | a, n + 1, v => Memory.writeLE (m.write a (BitVec.ofNat 8 v)) (a + 1) n (v / 2 ^ 8)

/-- `RdW(A)` without its checks (spec/20_memory.md R54). -/
def rdW (m : Memory) (a : Nat) : Word := BitVec.ofNat 64 (m.readLE a 8)

/-- `WrW(A, v)` without its checks (spec/20_memory.md R54). -/
def wrW (m : Memory) (a : Nat) (v : Word) : Memory := m.writeLE a 8 v.toNat

/-- The `l` words at `a`, in ascending address order (spec/20_memory.md R55). -/
def rdWords (m : Memory) : Nat → Nat → List Word
  | _, 0 => []
  | a, l + 1 => rdW m a :: rdWords m (a + 8) l

/-- Memory with a list of words written at `a`, in ascending address order (spec/20_memory.md R61). -/
def wrWords (m : Memory) : Nat → List Word → Memory
  | _, [] => m
  | a, w :: rest => wrWords (wrW m a w) (a + 8) rest

/-- The integer in the `l` limbs at `a`: `RdU256` for `l = 4`, `RdU384` for `l = 6`
(spec/20_memory.md R55). -/
def rdInt (m : Memory) (l a : Nat) : Nat := fromLimbs (rdWords m a l)

/-! ### Output buffers -/

/-- What an operation writes to one output buffer: words at an address. -/
structure Store where
  addr  : Nat
  words : List Word
deriving DecidableEq, Repr

/-- `WrU256` for `l = 4`, `WrU384` for `l = 6` (spec/20_memory.md R55). -/
def Store.int (l a v : Nat) : Store := ⟨a, toLimbs l v⟩

/-- Memory with every output buffer written, in order: a later one wins on overlapping bytes
(spec/20_memory.md R61, R62). -/
def applyStores (m : Memory) : List Store → Memory
  | [] => m
  | st :: rest => applyStores (wrWords m st.addr st.words) rest

/-- Whether the byte at `a` is one of those a list of stores writes. -/
def storesTouch (ss : List Store) (a : Nat) : Prop :=
  ∃ st ∈ ss, st.addr ≤ a ∧ a < st.addr + 8 * st.words.length

/-! ### Alignment and access (spec/20_memory.md R51, R53, R58, R59) -/

/-- Whether a buffer is only read, or written (or read and written). -/
inductive Access where
  | read
  | write
deriving DecidableEq, Repr

/-- Whether a permission allows an access (spec/20_memory.md R59). -/
def Perm.allows : Perm → Access → Bool
  | .none, _ => false
  | .ro, .read => true
  | .ro, .write => false
  | .rw, _ => true

/-- `Mapped(a)` (spec/20_memory.md R51): the first region that holds the address decides. -/
def mappedAt : List Region → Nat → Perm
  | [], _ => .none
  | r :: rest, a => if r.base ≤ a ∧ a < r.base + r.size then r.perm else mappedAt rest a

/-- Whether every one of the `n` bytes at `a` allows the access. -/
def bytesAllow (map : List Region) (acc : Access) : Nat → Nat → Bool
  | _, 0 => true
  | a, n + 1 => Perm.allows (mappedAt map a) acc && bytesAllow map acc (a + 1) n

/-- Whether the `n` bytes at `a` stay in the address space and allow the access (spec/20_memory.md R59). -/
def rangeOk (map : List Region) (acc : Access) (a n : Nat) : Bool :=
  decide (a + n ≤ 2 ^ 64) && bytesAllow map acc a n

/-- `require c else F` (spec/00_scope.md R14). -/
def require (c : Bool) (f : FaultCause) : Except FaultCause Unit := if c then .ok () else .error f

/-- The `MISALIGNED` check of one address (spec/20_memory.md R58). -/
def checkAligned (a : Nat) : Except FaultCause Unit := require (a % 8 == 0) .misaligned

/-- The `ACCESS` check of one buffer (spec/20_memory.md R59). -/
def checkAccess (s : State) (acc : Access) (a n : Nat) : Except FaultCause Unit :=
  require (rangeOk s.plat.map acc a n) .access

/-! ### Fault entry and reset -/

/-- Fault entry (spec/60_exceptions.md R306): `CAUSE` and `STATUS` are written, `PEND` is discarded,
nothing else changes. -/
def takeFault (f : FaultCause) (s : State) : State :=
  { s with cause := f.code, status := statusFault, pend := none }

/-- The reset event (spec/70_reset_and_hazards.md R340), the only exit from `FAULT`
(spec/60_exceptions.md R307): every piece of PCORE's state takes its reset value, memory is unchanged. -/
def applyReset (s : State) : State :=
  { s with op := 0, arg := 0, ret := 0, status := statusIdle, cause := causeNone, hintq := [], pend := none }

/-! ### Completion -/

/-- The normal end of an operation (spec/10_state.md R37 (a)): every output buffer is written, `RET` and
`STATUS` are set, `PEND` is discarded. -/
def finish (ss : List Store) (ret : Word) (s : State) : State :=
  { s with mem := applyStores s.mem ss, ret := ret, status := statusIdle, pend := none }

/-! ### Registers as the host reads them -/

/-- A host read of a register (spec/10_state.md section 2); none for the two write-only ones. -/
def readReg (s : State) : Reg → Option Word
  | .op => none
  | .arg => some s.arg
  | .ret => some s.ret
  | .status => some (s.status.setWidth 64)
  | .cause => some (s.cause.setWidth 64)
  | .hintPush => none

end Sys2Proof.Machine
end

