-- ==== Sys2Proof/Machine/Operands.lean ====
section
/-! DEFINITION. The operand forms: the thirteen parameter structure formats of spec/30_encoding.md R82 with
the checks made on each at issue, in the order of spec/60_exceptions.md R305, and the values read through
them (spec/20_memory.md R55 to R57, R60). -/

namespace Sys2Proof.Machine

/-! ### The structure and its pointer words -/

/-- Word `k` of the parameter structure (spec/20_memory.md R60). -/
def structWord (s : State) (k : Nat) : Word := rdW s.mem (s.arg.toNat + 8 * k)

/-- The byte address in pointer word `k` (spec/20_memory.md R60). -/
def ptr (s : State) (k : Nat) : Nat := (structWord s k).toNat

/-- One fixed-size buffer of a format: the pointer word that names it, its bytes, how it is used. -/
structure Buf where
  word : Nat
  size : Nat
  acc  : Access
deriving DecidableEq, Repr

/-- A parameter structure format: how many words it has, how the structure itself is used (written only
in F9, where it is the point), and its fixed-size buffers in word order. -/
structure Format where
  words : Nat
  acc   : Access
  bufs  : List Buf
deriving DecidableEq, Repr

/-- The checks of `ARG` and of the structure (spec/60_exceptions.md R305, steps 2 and 3). -/
def checkStruct (s : State) (words : Nat) (acc : Access) : Except FaultCause Unit := do
  checkAligned s.arg.toNat
  checkAccess s acc s.arg.toNat (8 * words)

/-- The checks of one fixed-size buffer (spec/60_exceptions.md R305, step 4). -/
def checkBuf (s : State) (b : Buf) : Except FaultCause Unit := do
  checkAligned (ptr s b.word)
  checkAccess s b.acc (ptr s b.word) b.size

/-- The checks of a list of buffers, in order. -/
def checkBufs (s : State) : List Buf → Except FaultCause Unit
  | [] => .ok ()
  | b :: rest => do
    checkBuf s b
    checkBufs s rest

/-- All memory checks of an operation whose buffers have fixed sizes (spec/20_memory.md R58, R59;
spec/60_exceptions.md R305, steps 2 to 4). -/
def checkFormat (s : State) (f : Format) : Except FaultCause Unit := do
  checkStruct s f.words f.acc
  checkBufs s f.bufs

/-! ### Formats F1 to F12 (spec/30_encoding.md R82) -/

/-- F1, ADD256: `*a, *b, cin, *c`. -/
def formatF1 : Format := ⟨4, .read, [⟨0, 32, .read⟩, ⟨1, 32, .read⟩, ⟨3, 32, .write⟩]⟩

/-- F2, ARITH256: `*a, *b, *c, *dh, *dl`. -/
def formatF2 : Format :=
  ⟨5, .read, [⟨0, 32, .read⟩, ⟨1, 32, .read⟩, ⟨2, 32, .read⟩, ⟨3, 32, .write⟩, ⟨4, 32, .write⟩]⟩

/-- F3, ARITH256_MOD (`l = 4`) and ARITH384_MOD (`l = 6`): `*a, *b, *c, *module, *d`. -/
def formatF3 (l : Nat) : Format :=
  ⟨5, .read,
    [⟨0, 8 * l, .read⟩, ⟨1, 8 * l, .read⟩, ⟨2, 8 * l, .read⟩, ⟨3, 8 * l, .read⟩, ⟨4, 8 * l, .write⟩]⟩

/-- F4, two-operand field operations: `*a, *b, *module, *d`. -/
def formatF4 (l : Nat) : Format :=
  ⟨4, .read, [⟨0, 8 * l, .read⟩, ⟨1, 8 * l, .read⟩, ⟨2, 8 * l, .read⟩, ⟨3, 8 * l, .write⟩]⟩

/-- F5, one-operand field operations: `*a, *module, *d`. -/
def formatF5 (l : Nat) : Format :=
  ⟨3, .read, [⟨0, 8 * l, .read⟩, ⟨1, 8 * l, .read⟩, ⟨2, 8 * l, .write⟩]⟩

/-- F6, BN254_FP_INV: `*a, *d`. -/
def formatF6 : Format := ⟨2, .read, [⟨0, 32, .read⟩, ⟨1, 32, .write⟩]⟩

/-- F8, in-place two-operand operations: `*p1` (in and out), `*p2`. -/
def formatF8 : Format := ⟨2, .read, [⟨0, 64, .write⟩, ⟨1, 64, .read⟩]⟩

/-- F9, in-place one-operand operations: the structure is the point (spec/92_eei_decisions.md D10). -/
def formatF9 : Format := ⟨8, .write, []⟩

/-- F10, scalar multiplication: `*k, *p, *q`. -/
def formatF10 : Format := ⟨3, .read, [⟨0, 32, .read⟩, ⟨1, 64, .read⟩, ⟨2, 64, .write⟩]⟩

/-- F11, SECP256K1_DMUL_G: `*k1, *k2, *p, *q`. -/
def formatF11 : Format :=
  ⟨4, .read, [⟨0, 32, .read⟩, ⟨1, 32, .read⟩, ⟨2, 64, .read⟩, ⟨3, 64, .write⟩]⟩

/-- F12, BN254_ECADD: `*p1, *p2, *p3`. -/
def formatF12 : Format := ⟨3, .read, [⟨0, 64, .read⟩, ⟨1, 64, .read⟩, ⟨2, 64, .write⟩]⟩

/-! ### The variable-length formats F7 and F13 -/

/-- Whether a length or count keeps an open bound (spec/93_implementation_defined.md P5, P6). -/
def withinBound : Option Nat → Nat → Bool
  | none, _ => true
  | some b, n => decide (n ≤ b)

/-- The checks of one ArbBig input at pointer word `k` (spec/20_memory.md R57, spec/60_exceptions.md R305
step 4): the pointer, the length word, the length, then the full extent. Answers the length. -/
def checkArb (s : State) (k : Nat) : Except FaultCause Nat := do
  checkAligned (ptr s k)
  checkAccess s .read (ptr s k) 8
  let len := (rdW s.mem (ptr s k)).toNat
  require (decide (1 ≤ len)) .precond
  require (withinBound s.plat.maxDigits len) .precond
  checkAccess s .read (ptr s k) (8 + 32 * len)
  return len

/-- The memory checks of F7, MODEXP: `*base, *exp, *modulus, *out` (spec/30_encoding.md R82,
spec/43_modexp.md R176). -/
def checkF7 (s : State) : Except FaultCause Unit := do
  checkStruct s 4 .read
  let _ ← checkArb s 0
  let _ ← checkArb s 1
  let lm ← checkArb s 2
  checkAligned (ptr s 3)
  checkAccess s .write (ptr s 3) (8 + 32 * lm)

/-- The memory checks of F13, BN254_ECPAIRING: `*g1, *g2, n, *ok` (spec/30_encoding.md R82,
spec/60_exceptions.md R305 step 4: the count is known before the first extent). With `n = 0` the two
array pointers are checked for alignment only. -/
def checkF13 (s : State) : Except FaultCause Unit := do
  checkStruct s 4 .read
  checkAligned (ptr s 0)
  let n := (structWord s 2).toNat
  require (withinBound s.plat.maxPairs n) .precond
  checkAccess s .read (ptr s 0) (64 * n)
  checkAligned (ptr s 1)
  checkAccess s .read (ptr s 1) (128 * n)
  checkAligned (ptr s 3)
  checkAccess s .write (ptr s 3) 8

/-! ### Operand values -/

/-- The integer operand of `l` limbs behind pointer word `k` (spec/20_memory.md R55). -/
def intAt (s : State) (l k : Nat) : Nat := rdInt s.mem l (ptr s k)

/-- An affine point, or the identity `(0, 0)` (spec/00_scope.md R17). -/
structure Point where
  x : Nat
  y : Nat
deriving DecidableEq, Repr

/-- `RdPt(A)` without its checks (spec/20_memory.md R56). -/
def rdPt (m : Memory) (a : Nat) : Point := ⟨rdInt m 4 a, rdInt m 4 (a + 32)⟩

/-- The point operand behind pointer word `k`. -/
def pointAt (s : State) (k : Nat) : Point := rdPt s.mem (ptr s k)

/-- `WrPt(A, P)` (spec/20_memory.md R56): `x` at `A`, `y` at `A + 32`. -/
def Store.point (a : Nat) (q : Point) : Store := ⟨a, toLimbs 4 q.x ++ toLimbs 4 q.y⟩

/-- The digits of an ArbBig of `n` digits whose digit 0 is at `a` (spec/20_memory.md R57). -/
def rdDigits (m : Memory) : Nat → Nat → List Nat
  | _, 0 => []
  | a, n + 1 => rdInt m 4 a :: rdDigits m (a + 32) n

/-- `RdArb` without its checks (spec/20_memory.md R57): the digits of the ArbBig behind pointer word
`k`, the least significant first. -/
def arbAt (s : State) (k : Nat) : List Nat :=
  rdDigits s.mem (ptr s k + 8) (rdW s.mem (ptr s k)).toNat

/-- `WrArb` (spec/20_memory.md R57): the length word, then the digits. -/
def Store.arb (a : Nat) (digits : List Nat) : Store :=
  ⟨a, BitVec.ofNat 64 digits.length :: digits.flatMap (toLimbs 4)⟩

end Sys2Proof.Machine
end

