-- ==== Sys2Proof/Machine/ArbBig.lean ====
section
/-! DEFINITION. ArbBig (spec/43_modexp.md section 1): big integers as lists of 256-bit digits, the least
significant first. `div_long` is given by its two equations, as R175 allows; its method is not observable. -/

namespace Sys2Proof.Machine

/-- The value of a digit list (spec/43_modexp.md R170). -/
def arbValue : List Nat → Nat
  | [] => 0
  | d :: rest => d + 2 ^ 256 * arbValue rest

/-- Whether a digit list is canonical (spec/43_modexp.md R170). -/
def arbCanonical (ds : List Nat) : Bool :=
  match ds.reverse with
  | [] => false
  | top :: rest => rest.isEmpty || top != 0

/-- The `n` low digits of a value, the least significant first. -/
def digitsPadded : Nat → Nat → List Nat
  | 0, _ => []
  | n + 1, v => v % 2 ^ 256 :: digitsPadded n (v / 2 ^ 256)

/-- How many digits a value needs, at least 1. -/
def digitCount (v : Nat) : Nat := Nat.log2 v / 256 + 1

/-- The canonical digits of a value. -/
def arbOfNat (v : Nat) : List Nat := digitsPadded (digitCount v) v

/-- `trim` (spec/43_modexp.md R170): the most significant zero digits are removed, down to length 1. -/
def arbTrim : List Nat → List Nat
  | [] => []
  | [d] => [d]
  | d :: d' :: rest => if arbValue (d' :: rest) = 0 then [d] else d :: arbTrim (d' :: rest)

/-- `add_agtb` (spec/43_modexp.md R171), for `len(a) ≥ len(b)`: the extra digit is present exactly when
the sum needs it. -/
def addAgtb (a b : List Nat) : List Nat :=
  let v := arbValue a + arbValue b
  digitsPadded (if v < 2 ^ (256 * a.length) then a.length else a.length + 1) v

/-- ArbBig `sub` (spec/43_modexp.md R172); a negative result is outside its domain and refused
(spec/93_implementation_defined.md U12). -/
def arbSub (a b : List Nat) : Option (List Nat) :=
  if arbValue b ≤ arbValue a then some (arbOfNat (arbValue a - arbValue b)) else none

/-- `mul_short` (spec/43_modexp.md R173): one digit longer than `a`, not trimmed. -/
def mulShort (a : List Nat) (d : Nat) : List Nat := digitsPadded (a.length + 1) (arbValue a * d)

/-- `mul_long` (spec/43_modexp.md R174): length `len(a) + len(b)`, before trimming. -/
def mulLong (a b : List Nat) : List Nat := digitsPadded (a.length + b.length) (arbValue a * arbValue b)

/-- `div_long` on values (spec/43_modexp.md R175): quotient and remainder; a zero divisor is fatal. -/
def divLong (a b : Nat) : Except FaultCause (Nat × Nat) :=
  if b = 0 then .error .divZero else .ok (a / b, a % b)

/-- `div_long` on digit lists (spec/43_modexp.md R175): both results trimmed. -/
def divLongDigits (a b : List Nat) : Except FaultCause (List Nat × List Nat) := do
  let qr ← divLong (arbValue a) (arbValue b)
  return (arbOfNat qr.1, arbOfNat qr.2)

/-- `modexp_value(b, e, m)` (spec/43_modexp.md R177): D0's early returns in its order, then reduction of
the base and square-and-multiply. -/
def modexpValue (b e m : Nat) : Except FaultCause Nat :=
  if m = 1 then .ok 0
  else if e = 0 ∧ 1 < m then .ok 1
  else if b = 0 ∧ 0 < e then .ok 0
  else if b = 1 then .ok 1
  else do
    let qr ← divLong b m
    return sqmul qr.2 e m

end Sys2Proof.Machine
end

