-- ==== Sys2Proof/Machine/Curve.lean ====
section
/-! DEFINITION. Short Weierstrass point arithmetic over a prime field `p` (spec/44_secp256k1.md R200 to
R209), used for secp256k1 and for BN254 G1 (spec/45_bn254_curve.md). -/

namespace Sys2Proof.Machine

/-- The identity `O = (0, 0)` (spec/00_scope.md R17). -/
def identity : Point := ⟨0, 0⟩

/-- `is_id(P)` (spec/00_scope.md R17). -/
def isId (q : Point) : Bool := q.x == 0 && q.y == 0

/-- `coords_ok(P, p)` (spec/44_secp256k1.md R200). -/
def coordsOk (q : Point) (p : Nat) : Bool := decide (q.x < p) && decide (q.y < p)

/-- `on_curve(P, p, b)` (spec/44_secp256k1.md R200). -/
def onCurve (q : Point) (p b : Nat) : Bool :=
  mulm q.y q.y p == addm (mulm (mulm q.x q.x p) q.x p) (b % p) p

/-- `valid(P, p, b)` (spec/44_secp256k1.md R200). -/
def validPoint (q : Point) (p b : Nat) : Bool := coordsOk q p && (isId q || onCurve q p b)

/-- The third point of a line of slope `lam` through `q1`, whose other abscissa is `x2`, reflected: `x3`
and `y3` of spec/44_secp256k1.md R201 and R202. -/
def chordPoint (lam : Nat) (q1 : Point) (x2 p : Nat) : Point :=
  let x3 := subm (subm (mulm lam lam p) q1.x p) x2 p
  ⟨x3, subm (mulm lam (subm q1.x x3 p) p) q1.y p⟩

/-- The slope of a raw addition (spec/44_secp256k1.md R201). -/
def addSlope (q1 q2 : Point) (p : Nat) : Nat :=
  mulm (subm q2.y q1.y p) (invm (subm q2.x q1.x p) p) p

/-- The slope of a raw doubling (spec/44_secp256k1.md R202). -/
def dblSlope (q : Point) (p : Nat) : Nat :=
  mulm (mulm 3 (mulm q.x q.x p) p) (invm (mulm 2 q.y p) p) p

/-- `raw_add(P1, P2, p)` (spec/44_secp256k1.md R201); `PRECOND` outside its domain. -/
def rawAdd (q1 q2 : Point) (p : Nat) : Except FaultCause Point := do
  require (coordsOk q1 p && coordsOk q2 p) .precond
  require (!isId q1 && !isId q2) .precond
  require (q1.x != q2.x) .precond
  return chordPoint (addSlope q1 q2 p) q1 q2.x p

/-- `raw_dbl(P, p)` (spec/44_secp256k1.md R202); `PRECOND` outside its domain. -/
def rawDbl (q : Point) (p : Nat) : Except FaultCause Point := do
  require (coordsOk q p) .precond
  require (!isId q) .precond
  require (q.y != 0) .precond
  return chordPoint (dblSlope q p) q q.x p

/-- `cadd(P1, P2, p)` (spec/44_secp256k1.md R205): complete addition, its tests in D0's order. -/
def cadd (q1 q2 : Point) (p : Nat) : Except FaultCause Point := do
  require (coordsOk q1 p && coordsOk q2 p) .precond
  if isId q1 then return q2
  else if isId q2 then return q1
  else if q1.x = q2.x ∧ addm q1.y q2.y p = 0 then return identity
  else if q1.x = q2.x ∧ q1.y = q2.y then rawDbl q1 p
  else rawAdd q1 q2 p

/-- `cdbl(P, p)` (spec/44_secp256k1.md R205). -/
def cdbl (q : Point) (p : Nat) : Except FaultCause Point := cadd q q p

/-- Whether two hint words are a position inside a U256 (spec/44_secp256k1.md R207, R209). -/
def hintInRange (li bi : Nat) : Bool := decide (li < 4) && decide (bi < 64)

/-- The loop of `smul` (spec/44_secp256k1.md R207): the `i` low bits of `k` are still to be consumed; the
state is `Q` and the reconstruction accumulator `rec`, whose shift and OR of one bit is `2·rec + bit`. -/
def smulLoop (k : Nat) (q : Point) (p : Nat) : Nat → Point → Nat → Except FaultCause (Point × Nat)
  | 0, acc, rec => .ok (acc, rec)
  | i + 1, acc, rec => do
    let dbl ← cdbl acc p
    let sum ← if bit k i = 1 then cadd dbl q p else .ok dbl
    smulLoop k q p i sum (2 * rec + bit k i)

/-- `smul(k, P, p, li, bi)` (spec/44_secp256k1.md R207). -/
def smul (k : Nat) (q : Point) (p li bi : Nat) : Except FaultCause Point := do
  require (hintInRange li bi) .hintVerify
  let h := 64 * li + bi
  require (bit k h == 1) .hintVerify
  let res ← smulLoop k q p h q 1
  require (res.2 == k) .hintVerify
  return res.1

/-- The reconstruction accumulators and the running point of `dsmul` (spec/44_secp256k1.md R209). -/
structure DsmulAcc where
  point : Point
  r1    : Nat
  r2    : Nat
deriving DecidableEq, Repr

/-- The loop of `dsmul` (spec/44_secp256k1.md R209): the `i` low bits of the scalars are still to be
consumed; `gq` is the table entry `G + P`. -/
def dsmulLoop (k1 k2 : Nat) (q g gq : Point) (p : Nat) : Nat → DsmulAcc → Except FaultCause DsmulAcc
  | 0, acc => .ok acc
  | i + 1, acc => do
    let dbl ← cdbl acc.point p
    let sum ←
      if bit k1 i = 1 ∧ bit k2 i = 1 then cadd dbl gq p
      else if bit k1 i = 1 then cadd dbl g p
      else if bit k2 i = 1 then cadd dbl q p
      else .ok dbl
    dsmulLoop k1 k2 q g gq p i ⟨sum, 2 * acc.r1 + bit k1 i, 2 * acc.r2 + bit k2 i⟩

/-- `dsmul(k1, k2, P, G, p, li, bi)` (spec/44_secp256k1.md R209). The table entry `G + P` depends on no hint, so
the `PRECOND` of computing it comes before every `HINT_VERIFY` (spec/60_exceptions.md R305, items 5 and 7;
notes/assumptions/18). -/
def dsmul (k1 k2 : Nat) (q g : Point) (p li bi : Nat) : Except FaultCause Point := do
  let gq ← cadd g q p
  require (hintInRange li bi) .hintVerify
  let h := 64 * li + bi
  require (bit k1 h == 1 || bit k2 h == 1) .hintVerify
  let res ← dsmulLoop k1 k2 q g gq p (h + 1) ⟨identity, 0, 0⟩
  require (res.r1 == k1 && res.r2 == k2) .hintVerify
  return res.point

/-- `check_g1(P, cx, cy, cc)` on BN254 (spec/45_bn254_curve.md R234): the first error code that applies. -/
def checkG1 (q : Point) (cx cy cc : ErrorCode) : Option ErrorCode :=
  if bnP ≤ q.x then some cx
  else if bnP ≤ q.y then some cy
  else if !isId q && !onCurve q bnP bnB then some cc
  else none

end Sys2Proof.Machine
end

