-- ==== Sys2Proof/Machine/Pairing.lean ====
section
/-! DEFINITION. The BN254 pairing engine (spec/46_bn254_pairing.md R260 to R274): the tower Fp2, Fp6, Fp12,
the twist, the Miller loop and the final exponentiation. Everything here is internal to the unit (R276). -/

namespace Sys2Proof.Machine

/-! ### Fp2 (spec/46_bn254_pairing.md R260) -/

/-- An element `re + im·i` of Fp2. -/
structure Fp2 where
  re : Nat
  im : Nat
deriving DecidableEq, Repr

/-- `0` of Fp2. -/
def f2zero : Fp2 := ⟨0, 0⟩

/-- `1` of Fp2. -/
def f2one : Fp2 := ⟨1, 0⟩

/-- `f2add`. -/
def f2add (a b : Fp2) : Fp2 := ⟨addm a.re b.re bnP, addm a.im b.im bnP⟩

/-- `f2sub`. -/
def f2sub (a b : Fp2) : Fp2 := ⟨subm a.re b.re bnP, subm a.im b.im bnP⟩

/-- `f2neg`. -/
def f2neg (a : Fp2) : Fp2 := ⟨negm a.re bnP, negm a.im bnP⟩

/-- `f2mul`. -/
def f2mul (a b : Fp2) : Fp2 :=
  ⟨subm (mulm a.re b.re bnP) (mulm a.im b.im bnP) bnP, addm (mulm a.re b.im bnP) (mulm a.im b.re bnP) bnP⟩

/-- `f2sqr`. -/
def f2sqr (a : Fp2) : Fp2 := f2mul a a

/-- `f2conj`. -/
def f2conj (a : Fp2) : Fp2 := ⟨a.re, negm a.im bnP⟩

/-- `f2inv`, for `a ≠ 0`. -/
def f2inv (a : Fp2) : Fp2 :=
  let n := invm (addm (mulm a.re a.re bnP) (mulm a.im a.im bnP) bnP) bnP
  ⟨mulm a.re n bnP, mulm (negm a.im bnP) n bnP⟩

/-- `f2xi`, multiplication by `ξ = 9 + i` (R264). -/
def f2xi (a : Fp2) : Fp2 :=
  ⟨subm (mulm 9 a.re bnP) a.im bnP, addm (mulm 9 a.im bnP) a.re bnP⟩

/-- Whether both components are reduced (R261). -/
def f2Reduced (a : Fp2) : Bool := decide (a.re < bnP) && decide (a.im < bnP)

/-! ### Fp6 (spec/46_bn254_pairing.md R264) -/

/-- An element `c0 + c1·v + c2·v²` of Fp6. -/
structure Fp6 where
  c0 : Fp2
  c1 : Fp2
  c2 : Fp2
deriving DecidableEq, Repr

/-- `0` of Fp6. -/
def f6zero : Fp6 := ⟨f2zero, f2zero, f2zero⟩

/-- `1` of Fp6. -/
def f6one : Fp6 := ⟨f2one, f2zero, f2zero⟩

/-- `f6add`. -/
def f6add (a b : Fp6) : Fp6 := ⟨f2add a.c0 b.c0, f2add a.c1 b.c1, f2add a.c2 b.c2⟩

/-- `f6sub`. -/
def f6sub (a b : Fp6) : Fp6 := ⟨f2sub a.c0 b.c0, f2sub a.c1 b.c1, f2sub a.c2 b.c2⟩

/-- `f6neg`. -/
def f6neg (a : Fp6) : Fp6 := ⟨f2neg a.c0, f2neg a.c1, f2neg a.c2⟩

/-- `f6mul`. -/
def f6mul (a b : Fp6) : Fp6 :=
  let t0 := f2mul a.c0 b.c0
  let t1 := f2mul a.c1 b.c1
  let t2 := f2mul a.c2 b.c2
  ⟨f2add t0 (f2xi (f2sub (f2sub (f2mul (f2add a.c1 a.c2) (f2add b.c1 b.c2)) t1) t2)),
   f2add (f2sub (f2sub (f2mul (f2add a.c0 a.c1) (f2add b.c0 b.c1)) t0) t1) (f2xi t2),
   f2add (f2sub (f2sub (f2mul (f2add a.c0 a.c2) (f2add b.c0 b.c2)) t0) t2) t1⟩

/-- `f6mulv`, multiplication by `v`. -/
def f6mulv (a : Fp6) : Fp6 := ⟨f2xi a.c2, a.c0, a.c1⟩

/-- `f6inv`, for `a ≠ 0`. -/
def f6inv (a : Fp6) : Fp6 :=
  let A := f2sub (f2sqr a.c0) (f2xi (f2mul a.c1 a.c2))
  let B := f2sub (f2xi (f2sqr a.c2)) (f2mul a.c0 a.c1)
  let C := f2sub (f2sqr a.c1) (f2mul a.c0 a.c2)
  let F := f2add (f2mul a.c0 A) (f2xi (f2add (f2mul a.c2 B) (f2mul a.c1 C)))
  let inv := f2inv F
  ⟨f2mul A inv, f2mul B inv, f2mul C inv⟩

/-! ### Fp12 (spec/46_bn254_pairing.md R265) -/

/-- An element `a + b·w` of Fp12. -/
structure Fp12 where
  a : Fp6
  b : Fp6
deriving DecidableEq, Repr

/-- `1` of Fp12. -/
def f12one : Fp12 := ⟨f6one, f6zero⟩

/-- `f12mul`. -/
def f12mul (x y : Fp12) : Fp12 :=
  let t0 := f6mul x.a y.a
  let t1 := f6mul x.b y.b
  ⟨f6add t0 (f6mulv t1), f6sub (f6sub (f6mul (f6add x.a x.b) (f6add y.a y.b)) t0) t1⟩

/-- `f12sqr`. -/
def f12sqr (x : Fp12) : Fp12 := f12mul x x

/-- `f12conj`, which is `x^(p^6)`. -/
def f12conj (x : Fp12) : Fp12 := ⟨x.a, f6neg x.b⟩

/-- `f12inv`, for `x ≠ 0`. -/
def f12inv (x : Fp12) : Fp12 :=
  let d := f6inv (f6sub (f6mul x.a x.a) (f6mulv (f6mul x.b x.b)))
  ⟨f6mul x.a d, f6neg (f6mul x.b d)⟩

/-- The loop of `f12pow`: the `i` low bits of `e` are still to be consumed. -/
def f12powLoop (x : Fp12) (e : Nat) : Nat → Fp12 → Fp12
  | 0, r => r
  | i + 1, r => f12powLoop x e i (if bit e i = 1 then f12mul (f12sqr r) x else f12sqr r)

/-- `f12pow(x, e)`: square-and-multiply, the most significant bit of `e` first, from 1. -/
def f12pow (x : Fp12) (e : Nat) : Fp12 := if e = 0 then f12one else f12powLoop x e (msb e + 1) f12one

/-! ### G2 on the twist (spec/46_bn254_pairing.md R266 to R268) -/

/-- A point of the twist, or the identity with all four components zero. -/
structure G2 where
  x : Fp2
  y : Fp2
deriving DecidableEq, Repr

/-- The identity of G2. -/
def g2Identity : G2 := ⟨f2zero, f2zero⟩

/-- `is_id2(Q)`. -/
def isId2 (q : G2) : Bool := decide (q = g2Identity)

/-- `b' = 3/ξ` of the twist. -/
def twistB : Fp2 := ⟨twistBRe, twistBIm⟩

/-- `on_twist(Q)`. -/
def onTwist (q : G2) : Bool := decide (f2sqr q.y = f2add (f2mul q.x (f2sqr q.x)) twistB)

/-- Whether all four components are reduced (R274). -/
def g2Reduced (q : G2) : Bool := f2Reduced q.x && f2Reduced q.y

/-- `g2_slope(T, Q)`. A zero denominator is outside its domain (R269, R270: a model may assert it):
`PRECOND`, never met by ECPAIRING's validated inputs (notes/assumptions/12). -/
def g2Slope (t q : G2) : Except FaultCause Fp2 :=
  if t = q then
    if t.y = f2zero then .error .precond
    else .ok (f2mul (f2mul ⟨3, 0⟩ (f2sqr t.x)) (f2inv (f2mul ⟨2, 0⟩ t.y)))
  else
    if t.x = q.x then .error .precond
    else .ok (f2mul (f2sub q.y t.y) (f2inv (f2sub q.x t.x)))

/-- The third point of a line of slope `lam` through `t` and `q`, reflected (R269). -/
def g2ChordPoint (lam : Fp2) (t q : G2) : G2 :=
  let x3 := f2sub (f2sub (f2sqr lam) t.x) q.x
  ⟨x3, f2sub (f2mul lam (f2sub t.x x3)) t.y⟩

/-- `g2_cadd(T, Q)`: the complete addition of spec/44_secp256k1.md R205 with Fp2 operations. -/
def g2Cadd (t q : G2) : Except FaultCause G2 := do
  require (g2Reduced t && g2Reduced q) .precond
  if isId2 t then return q
  else if isId2 q then return t
  else if t.x = q.x ∧ f2add t.y q.y = f2zero then return g2Identity
  else do
    let lam ← g2Slope t q
    return g2ChordPoint lam t q

/-- The loop of `g2_mul`: the `i` low bits of `k` are still to be consumed. -/
def g2MulLoop (k : Nat) (q : G2) : Nat → G2 → Except FaultCause G2
  | 0, acc => .ok acc
  | i + 1, acc => do
    let dbl ← g2Cadd acc acc
    let sum ← if bit k i = 1 then g2Cadd dbl q else .ok dbl
    g2MulLoop k q i sum

/-- `g2_mul(k, Q)`: double-and-add, the most significant bit first; no hints (R266). -/
def g2Mul (k : Nat) (q : G2) : Except FaultCause G2 :=
  if k = 0 then .ok g2Identity else g2MulLoop k q (msb k + 1) g2Identity

/-- `g2_neg(Q)`. -/
def g2Neg (q : G2) : G2 := ⟨q.x, f2neg q.y⟩

/-- `π(Q)` (R268). -/
def g2Frob (q : G2) : G2 :=
  ⟨f2mul (f2conj q.x) ⟨gamma12Re, gamma12Im⟩, f2mul (f2conj q.y) ⟨gamma13Re, gamma13Im⟩⟩

/-- `−π²(Q)` (R268). -/
def g2NegFrob2 (q : G2) : G2 :=
  ⟨f2mul q.x ⟨gamma22Re, 0⟩, f2neg (f2mul q.y ⟨gamma23Re, 0⟩)⟩

/-! ### The pairing (spec/46_bn254_pairing.md R269 to R273) -/

/-- The value of the line of slope `lam` through the untwisted `t`, at the G1 point `pt` (R269). -/
def lineValue (lam : Fp2) (t : G2) (pt : Point) : Fp12 :=
  ⟨⟨⟨pt.y, 0⟩, f2zero, f2zero⟩, ⟨f2neg (f2mul lam ⟨pt.x, 0⟩), f2sub (f2mul lam t.x) t.y, f2zero⟩⟩

/-- `line(T, Q', P)` (R269): the line's value and the sum `T + Q'`. -/
def line (t q : G2) (pt : Point) : Except FaultCause (Fp12 × G2) := do
  let lam ← g2Slope t q
  return (lineValue lam t pt, g2ChordPoint lam t q)

/-- The running value and point of the Miller loop (R270). -/
structure MillerAcc where
  f : Fp12
  t : G2
deriving DecidableEq, Repr

/-- One line step without squaring: `f` times the line through `T` and `q`, and `T + q` (R270). -/
def millerAdd (pt : Point) (q : G2) (acc : MillerAcc) : Except FaultCause MillerAcc := do
  let lt ← line acc.t q pt
  return ⟨f12mul acc.f lt.1, lt.2⟩

/-- One doubling step (R270). -/
def millerDbl (pt : Point) (acc : MillerAcc) : Except FaultCause MillerAcc := do
  let lt ← line acc.t acc.t pt
  return ⟨f12mul (f12sqr acc.f) lt.1, lt.2⟩

/-- The bits of `6u + 2` below the leading one (R270): the `i` low bits are still to be consumed. -/
def millerLoop (pt : Point) (q : G2) : Nat → MillerAcc → Except FaultCause MillerAcc
  | 0, acc => .ok acc
  | i + 1, acc => do
    let dbl ← millerDbl pt acc
    let nxt ← if bit bnLoop i = 1 then millerAdd pt q dbl else .ok dbl
    millerLoop pt q i nxt

/-- `miller(P, Q)` (R270), neither the identity. -/
def miller (pt : Point) (q : G2) : Except FaultCause Fp12 := do
  let acc ← millerLoop pt q (msb bnLoop) ⟨f12one, q⟩
  let acc ← millerAdd pt (g2Frob q) acc
  let acc ← millerAdd pt (g2NegFrob2 q) acc
  return acc.f

/-- The exponent of the final exponentiation, `(p¹² − 1)/r` (R271). -/
def finalExponent : Nat := (bnP ^ 12 - 1) / bnR

/-- `final_exp(f)` (R271). The power of 1 is 1 without a loop, which gives the same value: the vacuous
product of an empty pair list (R273) is then cheap to evaluate. -/
def finalExp (f : Fp12) : Fp12 := if f = f12one then f12one else f12pow f finalExponent

/-- `pairing(P, Q)` (R272), neither the identity. No operation returns it. -/
def pairing (pt : Point) (q : G2) : Except FaultCause Fp12 := do
  let f ← miller pt q
  return finalExp f

/-- One pair of ECPAIRING's input (R273). -/
structure Pair where
  g1 : Point
  g2 : G2
deriving DecidableEq, Repr

/-- Validation of one pair (R274): the lowest code that applies. -/
def validatePair (k : Pair) : Except FaultCause (Option ErrorCode) :=
  match checkG1 k.g1 .p1xRange .p1yRange .p1OffCurve with
  | some c => .ok (some c)
  | none =>
    if !g2Reduced k.g2 then .ok (some .g2Range)
    else if isId2 k.g2 then .ok none
    else if !onTwist k.g2 then .ok (some .g2OffTwist)
    else do
      let o ← g2Mul bnR k.g2
      return if isId2 o then none else some .g2OffGroup

/-- `validate` (R274): pairs in index order, the first pair with an error decides. -/
def validatePairs : List Pair → Except FaultCause (Option ErrorCode)
  | [] => .ok none
  | k :: rest => do
    let c ← validatePair k
    match c with
    | some code => return some code
    | none => validatePairs rest

/-- The product of the Miller values over the pairs with no identity (R273). -/
def millerProduct : List Pair → Fp12 → Except FaultCause Fp12
  | [], f => .ok f
  | k :: rest, f =>
    if !isId k.g1 && !isId2 k.g2 then do
      let v ← miller k.g1 k.g2
      millerProduct rest (f12mul f v)
    else millerProduct rest f

/-- The boolean of ECPAIRING on validated pairs (R273). -/
def pairingCheck (ks : List Pair) : Except FaultCause Bool := do
  let f ← millerProduct ks f12one
  return decide (finalExp f = f12one)

/-! ### Fp2, G2 and pairs in memory (spec/20_memory.md R56, R273) -/

/-- `RdFp2(A)` without its checks (spec/20_memory.md R56). -/
def rdFp2 (m : Memory) (a : Nat) : Fp2 := ⟨rdInt m 4 a, rdInt m 4 (a + 32)⟩

/-- `WrFp2(A, v)` (spec/20_memory.md R56). -/
def Store.fp2 (a : Nat) (v : Fp2) : Store := ⟨a, toLimbs 4 v.re ++ toLimbs 4 v.im⟩

/-- `RdG2(A)` without its checks (spec/20_memory.md R56). -/
def rdG2 (m : Memory) (a : Nat) : G2 := ⟨rdFp2 m a, rdFp2 m (a + 64)⟩

/-- The `n` pairs whose G1 points start at `a1` and G2 points at `a2` (spec/46_bn254_pairing.md R273). -/
def rdPairs (m : Memory) : Nat → Nat → Nat → List Pair
  | _, _, 0 => []
  | a1, a2, n + 1 => ⟨rdPt m a1, rdG2 m a2⟩ :: rdPairs m (a1 + 64) (a2 + 128) n

end Sys2Proof.Machine
end

