-- ==== Sys2Proof/Machine/Issue.lean ====
section
/-! DEFINITION. The two transitions of PCORE (spec/10_state.md R36, R37): the issue of an operation, shared
by all 34 meanings, and the completion of an operation that consumes hint words. -/

namespace Sys2Proof.Machine

/-! ### Hints (spec/10_state.md R27, R38; spec/00_scope.md R15) -/

/-- `need`, the number of hint words an operation pops (spec/10_state.md R36 step 3, R38). -/
def Pend.need : Pend → Nat
  | .modinv256H .. => 4
  | .modinv384H .. => 6
  | .bn254FpInv .. => 4
  | .secpMul .. => 2
  | .secpDmulG .. => 2
  | .bnEcmul .. => 2

/-- The code of the pending operation (spec/10_state.md R32). -/
def Pend.instr : Pend → Instr
  | .modinv256H .. => .modinv256H
  | .modinv384H .. => .modinv384H
  | .bn254FpInv .. => .bn254FpInv
  | .secpMul .. => .secp256k1Mul
  | .secpDmulG .. => .secp256k1DmulG
  | .bnEcmul .. => .bn254Ecmul

/-- The query event an operation emits when it is issued (spec/10_state.md R38; the operands are those
of the rule that emits it). -/
def Pend.query : Pend → Query
  | .modinv256H a m _ => .inv256 a m
  | .modinv384H a m _ => .inv384 a m
  | .bn254FpInv a _ => .inv256 a (BitVec.ofNat 256 bnP)
  | .secpMul k _ _ _ => .msbPos256 k 0
  | .secpDmulG k1 k2 _ _ _ => .msbPos256 k1 k2
  | .bnEcmul k _ _ _ => .msbPos256 k 0

/-- Hint word `j` of the words an operation has popped, as a number. -/
def hintWord (ws : List Word) (j : Nat) : Nat := (ws.getD j 0).toNat

/-- The acceptance of a candidate inverse (spec/42_modinv.md R156). -/
def inverseOk (a m r : Nat) : Bool := decide (r < m) && mulm a r m == 1

/-- A hinted inverse, verified (spec/42_modinv.md R152, R156). -/
def hintedInverse (a m : Nat) (ws : List Word) : Except FaultCause Nat := do
  require (inverseOk a m (fromLimbs ws)) .hintVerify
  return fromLimbs ws

/-- The output of a hint-consuming operation, from its latched operands and the words it popped: the
steps after `emit Query` of each rule (spec/10_state.md R37). -/
def Pend.result : Pend → List Word → Except FaultCause (List Store × Word)
  | .modinv256H a m d, ws => do
    let r ← hintedInverse a.toNat m.toNat ws
    return ([Store.int 4 d.toNat r], retZero)
  | .modinv384H a m d, ws => do
    let r ← hintedInverse a.toNat m.toNat ws
    return ([Store.int 6 d.toNat r], retZero)
  | .bn254FpInv a d, ws => do
    let r ← hintedInverse a.toNat bnP ws
    return ([Store.int 4 d.toNat r], retZero)
  | .secpMul k px py q, ws => do
    let r ← smul k.toNat ⟨px.toNat, py.toNat⟩ secpP (hintWord ws 0) (hintWord ws 1)
    return ([Store.point q.toNat r], retZero)
  | .secpDmulG k1 k2 px py q, ws => do
    let r ← dsmul k1.toNat k2.toNat ⟨px.toNat, py.toNat⟩ ⟨secpGx, secpGy⟩ secpP
      (hintWord ws 0) (hintWord ws 1)
    return ([Store.point q.toNat r], retZero)
  | .bnEcmul k px py q, ws => do
    let r ← smul k.toNat ⟨px.toNat, py.toNat⟩ bnP (hintWord ws 0) (hintWord ws 1)
    return ([Store.point q.toNat r], retZero)

/-- The completion of a hint-consuming operation (spec/10_state.md R37): `need` words are popped, then the
outputs are written or the fault is entered. -/
def complete (p : Pend) (s : State) : State :=
  let popped := { s with hintq := s.hintq.drop p.need }
  match p.result (s.hintq.take p.need) with
  | .ok out => finish out.1 out.2 popped
  | .error f => takeFault f popped

/-! ### Issue (spec/10_state.md R36) -/

/-- What an operation comes to once its operands are read and its checks passed: an end with its outputs
and `RET`, or the latched record of an operation that needs hint words. -/
inductive Plan where
  | done (ss : List Store) (ret : Word)
  | hint (p : Pend)
deriving DecidableEq, Repr

/-- The query event is recorded (spec/10_state.md R38). -/
def recordQuery (q : Query) (s : State) : State := { s with queries := s.queries ++ [q] }

/-- An operation that needs hint words, once issued (spec/10_state.md R36 step 4): the query event is
emitted; with enough words queued it completes in the same step, else it waits. -/
def startHinted (p : Pend) (s : State) : State :=
  let asked := recordQuery p.query s
  if p.need ≤ asked.hintq.length then complete p asked
  else { asked with status := statusWaitHint, pend := some p }

/-- What an operation's body comes to, applied to the state it was issued in. -/
def applyPlan (s : State) : Except FaultCause Plan → State
  | .error f => takeFault f s
  | .ok (.done ss ret) => finish ss ret s
  | .ok (.hint p) => startHinted p s

/-- The issue of an operation by a host write of its code to `OP` (spec/10_state.md R22, R36): ignored
unless `STATUS` is IDLE; otherwise `OP` takes the code and the body runs on the state of the issue. -/
def issue (i : Instr) (body : State → Except FaultCause Plan) (s : State) :
    Host.Outcome State Fault Refusal :=
  if s.status = statusIdle then
    let issued := { s with op := encode i }
    .next (applyPlan issued (body issued))
  else .next s

/-- The issue of a code that is in no row of the table (spec/30_encoding.md R83): `ILLEGAL_OP`, with no
memory access. -/
def issueIllegal (c : Byte) (s : State) : Host.Outcome State Fault Refusal :=
  if s.status = statusIdle then .next (takeFault .illegalOp { s with op := c })
  else .next s

end Sys2Proof.Machine
end

