-- ==== Sys2Proof/Machine/Secp256k1.lean ====
section
/-! DEFINITION. The secp256k1 unit (spec/44_secp256k1.md R203 to R210). -/

namespace Sys2Proof.Machine

/-- An in-place operation on two points, format F8: the result is written over the first. -/
def pointOp2 (f : Point → Point → Except FaultCause Point) (s : State) : Except FaultCause Plan := do
  checkFormat s formatF8
  let r ← f (pointAt s 0) (pointAt s 1)
  return .done [Store.point (ptr s 0) r] retZero

/-- An in-place operation on the point at `ARG`, format F9. -/
def pointOp1 (f : Point → Except FaultCause Point) (s : State) : Except FaultCause Plan := do
  checkFormat s formatF9
  let r ← f (rdPt s.mem s.arg.toNat)
  return .done [Store.point s.arg.toNat r] retZero

/-- The body of SECP256K1_MUL up to the query (spec/44_secp256k1.md R208); checks at issue
(notes/assumptions/6). -/
def bodySecpMul (s : State) : Except FaultCause Plan := do
  checkFormat s formatF10
  let k := intAt s 4 0
  let q := pointAt s 1
  require (coordsOk q secpP) .precond
  if k = 0 ∨ isId q then return .done [Store.point (ptr s 2) identity] retZero
  else return Plan.hint (.secpMul (BitVec.ofNat 256 k) (BitVec.ofNat 256 q.x) (BitVec.ofNat 256 q.y)
      (structWord s 2))

/-- The body of SECP256K1_DMUL_G up to the query (spec/44_secp256k1.md R210); checks at issue
(notes/assumptions/6). -/
def bodySecpDmulG (s : State) : Except FaultCause Plan := do
  checkFormat s formatF11
  let k1 := intAt s 4 0
  let k2 := intAt s 4 1
  let q := pointAt s 2
  require (coordsOk q secpP) .precond
  if k1 = 0 ∧ k2 = 0 then return .done [Store.point (ptr s 3) identity] retZero
  else return Plan.hint (.secpDmulG (BitVec.ofNat 256 k1) (BitVec.ofNat 256 k2)
      (BitVec.ofNat 256 q.x) (BitVec.ofNat 256 q.y) (structWord s 3))

/-- SECP256K1_ADD (spec/44_secp256k1.md R203). -/
def execSecp256k1Add (s : State) : Host.Outcome State Fault Refusal :=
  issue .secp256k1Add (pointOp2 (fun p q => rawAdd p q secpP)) s

/-- SECP256K1_DBL (spec/44_secp256k1.md R204). -/
def execSecp256k1Dbl (s : State) : Host.Outcome State Fault Refusal :=
  issue .secp256k1Dbl (pointOp1 (fun p => rawDbl p secpP)) s

/-- SECP256K1_CADD (spec/44_secp256k1.md R206). -/
def execSecp256k1Cadd (s : State) : Host.Outcome State Fault Refusal :=
  issue .secp256k1Cadd (pointOp2 (fun p q => cadd p q secpP)) s

/-- SECP256K1_MUL (spec/44_secp256k1.md R208). -/
def execSecp256k1Mul (s : State) : Host.Outcome State Fault Refusal := issue .secp256k1Mul bodySecpMul s

/-- SECP256K1_DMUL_G (spec/44_secp256k1.md R210). -/
def execSecp256k1DmulG (s : State) : Host.Outcome State Fault Refusal :=
  issue .secp256k1DmulG bodySecpDmulG s

end Sys2Proof.Machine
end

