-- ==== Sys2Proof/Machine/Bn254Curve.lean ====
section
/-! DEFINITION. The BN254 G1 unit (spec/45_bn254_curve.md R231 to R236). -/

namespace Sys2Proof.Machine

/-- The error code of BN254_ECADD (spec/45_bn254_curve.md R235): all range checks come before all curve
checks. -/
def ecaddCode (p1 p2 : Point) : Option ErrorCode :=
  if bnP ≤ p1.x then some .p1xRange
  else if bnP ≤ p1.y then some .p1yRange
  else if bnP ≤ p2.x then some .p2xRange
  else if bnP ≤ p2.y then some .p2yRange
  else if !isId p1 && !onCurve p1 bnP bnB then some .p1OffCurve
  else if !isId p2 && !onCurve p2 bnP bnB then some .p2OffCurve
  else none

/-- The body of BN254_ECADD (spec/45_bn254_curve.md R235). -/
def bodyBn254Ecadd (s : State) : Except FaultCause Plan := do
  checkFormat s formatF12
  let p1 := pointAt s 0
  let p2 := pointAt s 1
  match ecaddCode p1 p2 with
  | some c => return .done [Store.point (ptr s 2) identity] c.code
  | none => do
    let r ← cadd p1 p2 bnP
    return .done [Store.point (ptr s 2) r] retZero

/-- The body of BN254_ECMUL up to the query (spec/45_bn254_curve.md R236). -/
def bodyBn254Ecmul (s : State) : Except FaultCause Plan := do
  checkFormat s formatF10
  let k := intAt s 4 0
  let q := pointAt s 1
  match checkG1 q .p1xRange .p1yRange .p1OffCurve with
  | some c => return .done [Store.point (ptr s 2) identity] c.code
  | none =>
    if k = 0 ∨ isId q then return .done [Store.point (ptr s 2) identity] retZero
    else return Plan.hint (.bnEcmul (BitVec.ofNat 256 k) (BitVec.ofNat 256 q.x) (BitVec.ofNat 256 q.y)
      (structWord s 2))

/-- BN254_CURVE_ADD (spec/45_bn254_curve.md R231). -/
def execBn254CurveAdd (s : State) : Host.Outcome State Fault Refusal :=
  issue .bn254CurveAdd (pointOp2 (fun p q => rawAdd p q bnP)) s

/-- BN254_CURVE_DBL (spec/45_bn254_curve.md R232). -/
def execBn254CurveDbl (s : State) : Host.Outcome State Fault Refusal :=
  issue .bn254CurveDbl (pointOp1 (fun p => rawDbl p bnP)) s

/-- BN254_CADD (spec/45_bn254_curve.md R233). -/
def execBn254Cadd (s : State) : Host.Outcome State Fault Refusal :=
  issue .bn254Cadd (pointOp2 (fun p q => cadd p q bnP)) s

/-- BN254_ECADD (spec/45_bn254_curve.md R235). -/
def execBn254Ecadd (s : State) : Host.Outcome State Fault Refusal := issue .bn254Ecadd bodyBn254Ecadd s

/-- BN254_ECMUL (spec/45_bn254_curve.md R236). -/
def execBn254Ecmul (s : State) : Host.Outcome State Fault Refusal := issue .bn254Ecmul bodyBn254Ecmul s

end Sys2Proof.Machine
end

