-- ==== Sys2Proof/Machine/Bn254Pairing.lean ====
section
/-! DEFINITION. The operations of the BN254 pairing unit (spec/46_bn254_pairing.md R261 to R263, R273). -/

namespace Sys2Proof.Machine

/-- An in-place operation on two Fp2 elements, format F8 (spec/46_bn254_pairing.md R261): both reduced, the
result over the first. -/
def fp2Op2 (f : Fp2 → Fp2 → Fp2) (s : State) : Except FaultCause Plan := do
  checkFormat s formatF8
  let f1 := rdFp2 s.mem (ptr s 0)
  let f2 := rdFp2 s.mem (ptr s 1)
  require (f2Reduced f1 && f2Reduced f2) .precond
  return .done [Store.fp2 (ptr s 0) (f f1 f2)] retZero

/-- The output word of BN254_ECPAIRING (spec/46_bn254_pairing.md R273). -/
def Store.bool (a : Nat) (b : Bool) : Store := ⟨a, [if b then 1 else 0]⟩

/-- The body of BN254_ECPAIRING (spec/46_bn254_pairing.md R273). -/
def bodyBn254Ecpairing (s : State) : Except FaultCause Plan := do
  checkF13 s
  let ks := rdPairs s.mem (ptr s 0) (ptr s 1) (structWord s 2).toNat
  let c ← validatePairs ks
  match c with
  | some code => return .done [Store.bool (ptr s 3) false] code.code
  | none => do
    let ok ← pairingCheck ks
    return .done [Store.bool (ptr s 3) ok] retZero

/-- BN254_COMPLEX_ADD (spec/46_bn254_pairing.md R261). -/
def execBn254ComplexAdd (s : State) : Host.Outcome State Fault Refusal :=
  issue .bn254ComplexAdd (fp2Op2 f2add) s

/-- BN254_COMPLEX_SUB (spec/46_bn254_pairing.md R262). -/
def execBn254ComplexSub (s : State) : Host.Outcome State Fault Refusal :=
  issue .bn254ComplexSub (fp2Op2 f2sub) s

/-- BN254_COMPLEX_MUL (spec/46_bn254_pairing.md R263). -/
def execBn254ComplexMul (s : State) : Host.Outcome State Fault Refusal :=
  issue .bn254ComplexMul (fp2Op2 f2mul) s

/-- BN254_ECPAIRING (spec/46_bn254_pairing.md R273). -/
def execBn254Ecpairing (s : State) : Host.Outcome State Fault Refusal :=
  issue .bn254Ecpairing bodyBn254Ecpairing s

end Sys2Proof.Machine
end

