-- ==== Sys2Proof/Machine/ModExp.lean ====
section
/-! DEFINITION. The modular exponentiation unit (spec/43_modexp.md R176 to R179). -/

namespace Sys2Proof.Machine

/-- The body of MODEXP (spec/43_modexp.md R176): the output has as many digits as the modulus (R179). -/
def bodyModexp (s : State) : Except FaultCause Plan := do
  checkF7 s
  let b := arbAt s 0
  let e := arbAt s 1
  let m := arbAt s 2
  require (arbCanonical b && arbCanonical e && arbCanonical m) .precond
  let res ← modexpValue (arbValue b) (arbValue e) (arbValue m)
  return .done [Store.arb (ptr s 3) (digitsPadded m.length res)] retZero

/-- MODEXP (spec/43_modexp.md R176). -/
def execModexp (s : State) : Host.Outcome State Fault Refusal := issue .modexp bodyModexp s

end Sys2Proof.Machine
end

