-- ==== Sys2Proof/Machine/ModAdd.lean ====
section
/-! DEFINITION. The adder unit: ADD256 and the field additions, subtractions and negations at 256 and 384
bits (spec/40_modadd.md R105 to R112). -/

namespace Sys2Proof.Machine

/-- The common checks of a one-operand field operation (spec/40_modadd.md R112). -/
def fieldChecks1 (a m : Nat) : Except FaultCause Unit := do
  require (m != 0) .divZero
  require (decide (a < m)) .precond

/-- The common checks of a two-operand field operation (spec/40_modadd.md R112). -/
def fieldChecks2 (a b m : Nat) : Except FaultCause Unit := do
  require (m != 0) .divZero
  require (decide (a < m) && decide (b < m)) .precond

/-- A two-operand field operation of `l` limbs, format F4: memory checks, R112, one result. -/
def fieldOp2 (l : Nat) (f : Nat → Nat → Nat → Nat) (s : State) : Except FaultCause Plan := do
  checkFormat s (formatF4 l)
  let a := intAt s l 0
  let b := intAt s l 1
  let m := intAt s l 2
  fieldChecks2 a b m
  return .done [Store.int l (ptr s 3) (f a b m)] retZero

/-- A one-operand field operation of `l` limbs, format F5: memory checks, R112, one result. -/
def fieldOp1 (l : Nat) (f : Nat → Nat → Nat) (s : State) : Except FaultCause Plan := do
  checkFormat s (formatF5 l)
  let a := intAt s l 0
  let m := intAt s l 1
  fieldChecks1 a m
  return .done [Store.int l (ptr s 2) (f a m)] retZero

/-- The body of ADD256 (spec/40_modadd.md R105). -/
def bodyAdd256 (s : State) : Except FaultCause Plan := do
  checkFormat s formatF1
  let a := intAt s 4 0
  let b := intAt s 4 1
  let cin := (structWord s 2).toNat
  require (decide (cin ≤ 1)) .precond
  let sum := addWithCarry 256 a b cin
  return .done [Store.int 4 (ptr s 3) sum.1] (BitVec.ofNat 64 sum.2)

/-- ADD256 (spec/40_modadd.md R105). -/
def execAdd256 (s : State) : Host.Outcome State Fault Refusal := issue .add256 bodyAdd256 s

/-- MODADD256 (spec/40_modadd.md R106). -/
def execModadd256 (s : State) : Host.Outcome State Fault Refusal :=
  issue .modadd256 (fieldOp2 4 (modAddSteps 256)) s

/-- MODSUB256 (spec/40_modadd.md R107). -/
def execModsub256 (s : State) : Host.Outcome State Fault Refusal :=
  issue .modsub256 (fieldOp2 4 (modSubSteps 256)) s

/-- MODNEG256 (spec/40_modadd.md R108). -/
def execModneg256 (s : State) : Host.Outcome State Fault Refusal :=
  issue .modneg256 (fieldOp1 4 modNegSteps) s

/-- MODADD384 (spec/40_modadd.md R109). -/
def execModadd384 (s : State) : Host.Outcome State Fault Refusal :=
  issue .modadd384 (fieldOp2 6 (modAddSteps 384)) s

/-- MODSUB384 (spec/40_modadd.md R110). -/
def execModsub384 (s : State) : Host.Outcome State Fault Refusal :=
  issue .modsub384 (fieldOp2 6 (modSubSteps 384)) s

/-- MODNEG384 (spec/40_modadd.md R111). -/
def execModneg384 (s : State) : Host.Outcome State Fault Refusal :=
  issue .modneg384 (fieldOp1 6 modNegSteps) s

end Sys2Proof.Machine
end

