-- ==== Sys2Proof/Machine/ModInv.lean ====
section
/-! DEFINITION. The modular inverse unit (spec/42_modinv.md R150 to R156). -/

namespace Sys2Proof.Machine

/-- The body of the Fermat variants (spec/42_modinv.md R151, R153) at `l` limbs: `a = 0` answers the tag
`NoInverse` and writes nothing; a candidate that fails its check is `PRECOND`. -/
def bodyModinvF (l : Nat) (s : State) : Except FaultCause Plan := do
  checkFormat s (formatF5 l)
  let a := intAt s l 0
  let m := intAt s l 1
  fieldChecks1 a m
  if a = 0 then return .done [] retNoInverse
  else do
    let r := powm a (m - 2) m
    require (mulm a r m == 1) .precond
    return .done [Store.int l (ptr s 2) r] retZero

/-- The body of the hint variants (spec/42_modinv.md R152, R154) up to the query; `latch` makes the pending
record from `a` and `m`. The checks are made at issue (notes/assumptions/6). -/
def bodyModinvH (l : Nat) (latch : Nat → Nat → Pend) (s : State) : Except FaultCause Plan := do
  checkFormat s (formatF5 l)
  let a := intAt s l 0
  let m := intAt s l 1
  fieldChecks1 a m
  if a = 0 then return .done [] retNoInverse
  else return .hint (latch a m)

/-- The body of BN254_FP_INV up to the query (spec/42_modinv.md R155): `a = 0` writes 0. -/
def bodyBn254FpInv (s : State) : Except FaultCause Plan := do
  checkFormat s formatF6
  let a := intAt s 4 0
  require (decide (a < bnP)) .precond
  if a = 0 then return .done [Store.int 4 (ptr s 1) 0] retZero
  else return .hint (.bn254FpInv (BitVec.ofNat 256 a) (structWord s 1))

/-- MODINV256_F (spec/42_modinv.md R151). -/
def execModinv256F (s : State) : Host.Outcome State Fault Refusal := issue .modinv256F (bodyModinvF 4) s

/-- MODINV256_H (spec/42_modinv.md R152). -/
def execModinv256H (s : State) : Host.Outcome State Fault Refusal :=
  issue .modinv256H
    (fun t => bodyModinvH 4
      (fun a m => .modinv256H (BitVec.ofNat 256 a) (BitVec.ofNat 256 m) (structWord t 2)) t) s

/-- MODINV384_F (spec/42_modinv.md R153). -/
def execModinv384F (s : State) : Host.Outcome State Fault Refusal := issue .modinv384F (bodyModinvF 6) s

/-- MODINV384_H (spec/42_modinv.md R154). -/
def execModinv384H (s : State) : Host.Outcome State Fault Refusal :=
  issue .modinv384H
    (fun t => bodyModinvH 6
      (fun a m => .modinv384H (BitVec.ofNat 384 a) (BitVec.ofNat 384 m) (structWord t 2)) t) s

/-- BN254_FP_INV (spec/42_modinv.md R155). -/
def execBn254FpInv (s : State) : Host.Outcome State Fault Refusal := issue .bn254FpInv bodyBn254FpInv s

end Sys2Proof.Machine
end

