-- ==== Sys2Proof/Machine/ModMul.lean ====
section
/-! DEFINITION. The multiplier unit (spec/41_modmul.md R130 to R138). -/

namespace Sys2Proof.Machine

/-- The body of ARITH256 (spec/41_modmul.md R130): the high half is written first, the low half last. -/
def bodyArith256 (s : State) : Except FaultCause Plan := do
  checkFormat s formatF2
  let t := intAt s 4 0 * intAt s 4 1 + intAt s 4 2
  return .done [Store.int 4 (ptr s 3) (t / 2 ^ 256), Store.int 4 (ptr s 4) (t % 2 ^ 256)] retZero

/-- The body of ARITH256_MOD and ARITH384_MOD (spec/41_modmul.md R131, R132): the operands need not be
reduced. -/
def bodyArithMod (l : Nat) (s : State) : Except FaultCause Plan := do
  checkFormat s (formatF3 l)
  let m := intAt s l 3
  require (m != 0) .divZero
  return .done [Store.int l (ptr s 4) ((intAt s l 0 * intAt s l 1 + intAt s l 2) % m)] retZero

/-- ARITH256 (spec/41_modmul.md R130). -/
def execArith256 (s : State) : Host.Outcome State Fault Refusal := issue .arith256 bodyArith256 s

/-- ARITH256_MOD (spec/41_modmul.md R131). -/
def execArith256Mod (s : State) : Host.Outcome State Fault Refusal :=
  issue .arith256Mod (bodyArithMod 4) s

/-- ARITH384_MOD (spec/41_modmul.md R132). -/
def execArith384Mod (s : State) : Host.Outcome State Fault Refusal :=
  issue .arith384Mod (bodyArithMod 6) s

/-- MODMUL256 (spec/41_modmul.md R135). -/
def execModmul256 (s : State) : Host.Outcome State Fault Refusal :=
  issue .modmul256 (fieldOp2 4 (fun a b m => reduce (a * b) m)) s

/-- MODSQR256 (spec/41_modmul.md R136). -/
def execModsqr256 (s : State) : Host.Outcome State Fault Refusal :=
  issue .modsqr256 (fieldOp1 4 (fun a m => reduce (a * a) m)) s

/-- MODMUL384 (spec/41_modmul.md R137). -/
def execModmul384 (s : State) : Host.Outcome State Fault Refusal :=
  issue .modmul384 (fieldOp2 6 (fun a b m => reduce (a * b) m)) s

/-- MODSQR384 (spec/41_modmul.md R138). -/
def execModsqr384 (s : State) : Host.Outcome State Fault Refusal :=
  issue .modsqr384 (fieldOp1 6 (fun a m => reduce (a * a) m)) s

end Sys2Proof.Machine
end

