-- ==== Sys2Proof/Machine/Dispatch.lean ====
section
/-! DEFINITION. One arm per operation (spec/30_encoding.md R80): its meaning. `exec i s` is the host's write of
`i`'s code to `OP` in the state `s` (spec/10_state.md R22, R36). -/

namespace Sys2Proof.Machine

def exec (i : Instr) (s : State) : Host.Outcome State Fault Refusal :=
  match i with
  | .add256 => Sys2Proof.Machine.execAdd256 s
  | .modadd256 => Sys2Proof.Machine.execModadd256 s
  | .modsub256 => Sys2Proof.Machine.execModsub256 s
  | .modneg256 => Sys2Proof.Machine.execModneg256 s
  | .modadd384 => Sys2Proof.Machine.execModadd384 s
  | .modsub384 => Sys2Proof.Machine.execModsub384 s
  | .modneg384 => Sys2Proof.Machine.execModneg384 s
  | .arith256 => Sys2Proof.Machine.execArith256 s
  | .arith256Mod => Sys2Proof.Machine.execArith256Mod s
  | .arith384Mod => Sys2Proof.Machine.execArith384Mod s
  | .modmul256 => Sys2Proof.Machine.execModmul256 s
  | .modsqr256 => Sys2Proof.Machine.execModsqr256 s
  | .modmul384 => Sys2Proof.Machine.execModmul384 s
  | .modsqr384 => Sys2Proof.Machine.execModsqr384 s
  | .modinv256F => Sys2Proof.Machine.execModinv256F s
  | .modinv256H => Sys2Proof.Machine.execModinv256H s
  | .modinv384F => Sys2Proof.Machine.execModinv384F s
  | .modinv384H => Sys2Proof.Machine.execModinv384H s
  | .bn254FpInv => Sys2Proof.Machine.execBn254FpInv s
  | .modexp => Sys2Proof.Machine.execModexp s
  | .secp256k1Add => Sys2Proof.Machine.execSecp256k1Add s
  | .secp256k1Dbl => Sys2Proof.Machine.execSecp256k1Dbl s
  | .secp256k1Cadd => Sys2Proof.Machine.execSecp256k1Cadd s
  | .secp256k1Mul => Sys2Proof.Machine.execSecp256k1Mul s
  | .secp256k1DmulG => Sys2Proof.Machine.execSecp256k1DmulG s
  | .bn254CurveAdd => Sys2Proof.Machine.execBn254CurveAdd s
  | .bn254CurveDbl => Sys2Proof.Machine.execBn254CurveDbl s
  | .bn254Cadd => Sys2Proof.Machine.execBn254Cadd s
  | .bn254Ecadd => Sys2Proof.Machine.execBn254Ecadd s
  | .bn254Ecmul => Sys2Proof.Machine.execBn254Ecmul s
  | .bn254ComplexAdd => Sys2Proof.Machine.execBn254ComplexAdd s
  | .bn254ComplexSub => Sys2Proof.Machine.execBn254ComplexSub s
  | .bn254ComplexMul => Sys2Proof.Machine.execBn254ComplexMul s
  | .bn254Ecpairing => Sys2Proof.Machine.execBn254Ecpairing s

end Sys2Proof.Machine
end

