-- ==== Sys2Proof/Machine/Host.lean ====
section
/-! DEFINITION. What each action of the host does (spec/10_state.md R20 (b), R22, R23, R28, R36, R37;
spec/60_exceptions.md R307), and the host program syntax of spec/30_encoding.md R85. -/

namespace Sys2Proof.Machine

/-- A host write of `c` to `OP` (spec/10_state.md R22, R36): the decoded operation is issued, and any other
code faults (spec/30_encoding.md R83). -/
def hostWriteOp (c : Byte) (s : State) : Host.Outcome State Fault Refusal :=
  match decode c with
  | .ok i => exec i s
  | .error _ => issueIllegal c s

/-- A host write to `ARG` (spec/10_state.md R23): ignored unless `STATUS` is IDLE. -/
def hostWriteArg (v : Word) (s : State) : State :=
  if s.status = statusIdle then { s with arg := v } else s

/-- A host write to the port `HINT_PUSH` (spec/10_state.md R28): ignored in FAULT; a push to a full bounded
queue is refused (notes/assumptions/8). -/
def hostPush (w : Word) (s : State) : Host.Outcome State Fault Refusal :=
  if s.status = statusFault then .next s
  else
    match s.plat.hintDepth with
    | none => .next { s with hintq := s.hintq ++ [w] }
    | some depth =>
      if s.hintq.length < depth then .next { s with hintq := s.hintq ++ [w] }
      else .refused .hintQueueFull

/-- The word a host store writes (spec/30_encoding.md R85). -/
def storedWord (s : State) : StoreValue → Word
  | .word v => v
  | .ret => s.ret

/-- A host store of one 64-bit word (spec/30_encoding.md R85), little-endian (spec/20_memory.md R52), at any
address the platform makes writable (notes/assumptions/7). -/
def hostStore (a : Word) (v : StoreValue) (s : State) : Host.Outcome State Fault Refusal :=
  if rangeOk s.plat.map .write a.toNat 8 then .next { s with mem := wrW s.mem a.toNat (storedWord s v) }
  else .fault (.hostStore a)

/-- A host read of a register: no side effect (spec/60_exceptions.md R310); a read of a write-only one is
refused (spec/93_implementation_defined.md U19). -/
def hostRead (r : Reg) (s : State) : Host.Outcome State Fault Refusal :=
  match readReg s r with
  | some _ => .next s
  | none => .refused (.readOfWriteOnly r)

/-- What one action of the host does. -/
def hostStep (act : HostAction) (s : State) : Host.Outcome State Fault Refusal :=
  match act with
  | .writeOp c => hostWriteOp c s
  | .writeArg v => .next (hostWriteArg v s)
  | .pushHint w => hostPush w s
  | .readReg r => hostRead r s
  | .writeReadOnly r _ => .refused (.writeOfReadOnly r)
  | .store a v => hostStore a v s
  | .reset => .next (applyReset s)

/-- The pending operation that may complete now (spec/10_state.md R37): one waits and `HINTQ` holds the
words it needs. -/
def readyPend (s : State) : Option Pend :=
  match s.pend with
  | some p => if s.status = statusWaitHint ∧ p.need ≤ s.hintq.length then some p else none
  | none => none

/-- One line of a host program (spec/30_encoding.md R85). -/
inductive HostLine where
  /-- `<MNEMONIC> @<address>`. -/
  | command (i : Instr) (address : Word)
  /-- `HINT <u64> ...`. -/
  | hint (ws : List Word)
  /-- `STORE @<address> <u64>|RET`. -/
  | store (address : Word) (v : StoreValue)
  /-- `RESET`. -/
  | reset
deriving DecidableEq, Repr

/-- The host actions of one line (spec/30_encoding.md R85). -/
def lineActions : HostLine → List HostAction
  | .command i address => [.writeArg address, .writeOp (encode i)]
  | .hint ws => ws.map .pushHint
  | .store address v => [.store address v]
  | .reset => [.reset]

/-- The host actions of a program, in order. -/
def programActions (lines : List HostLine) : List HostAction := lines.flatMap lineActions

/-- The encoding of a command line, the pair `code:address` (spec/30_encoding.md R85). -/
def commandEncoding (i : Instr) (address : Word) : Byte × Word := (encode i, address)

/-- The operation a name stands for: its mnemonic, or D0's name as an alias (spec/30_encoding.md R85). -/
def instrOfName (name : String) : Option Instr :=
  (opTable.find? (fun r => r.instr.mnemonic == name || r.instr.d0Name == some name)).map OpRow.instr

end Sys2Proof.Machine
end

