-- ==== Sys2Proof/Machine/Step.lean ====
section
/-! DEFINITION. One step of the system: a completion that is enabled (spec/10_state.md R37), else the host's
next action, else nothing (spec/70_reset_and_hazards.md R341). -/

namespace Sys2Proof.Machine

/-- One step. A waiting operation whose hint words are there completes before the host acts again
(spec/10_state.md R20; notes/assumptions/4); with nothing to do PCORE stays as it is. -/
def step (s : State) : Host.Outcome State Fault Refusal :=
  match readyPend s with
  | some p => .next (complete p s)
  | none =>
    match s.host with
    | [] => .next s
    | act :: rest => hostStep act { s with host := rest }

/-- `s` with the operation whose code is `w` as what the next step runs: the host's next action is the write
of that code to `OP`, and nothing is pending, so that the write is not ignored (notes/assumptions/1). In an
idle state only the host's script changes. -/
def State.withFetchWord (s : State) (nbits w : Nat) : State :=
  { s with
    host := .writeOp (BitVec.ofNat 8 (w % 2 ^ nbits)) :: s.host
    status := statusIdle
    pend := none }

end Sys2Proof.Machine
end

