-- ==== Sys2Proof/Safety.lean ====
section
/-! DEFINITION. The terms claims are made in: the memory checks an operation's structure must pass, the four
ways an issued operation can come out, the invariant of the machine, and what a safe run is. -/

namespace Sys2Proof.Machine

/-! ### Memory checks as one answer (spec/60_exceptions.md R305, steps 2 to 4) -/

/-- The first memory fault of a list of buffers, in word order: alignment, then access, buffer by buffer. -/
def bufsFault (s : State) : List Buf → Option FaultCause
  | [] => none
  | b :: rest =>
    if ptr s b.word % 8 ≠ 0 then some .misaligned
    else if rangeOk s.plat.map b.acc (ptr s b.word) b.size = false then some .access
    else bufsFault s rest

/-- The first fault of `ARG` and of the structure. -/
def structFault (s : State) (words : Nat) (acc : Access) : Option FaultCause :=
  if s.arg.toNat % 8 ≠ 0 then some .misaligned
  else if rangeOk s.plat.map acc s.arg.toNat (8 * words) = false then some .access
  else none

/-- The first memory fault of an operation of a fixed-size format; none when `ARG`, the structure and every
buffer are aligned and accessible. -/
def memoryFault (s : State) (f : Format) : Option FaultCause :=
  (structFault s f.words f.acc).or (bufsFault s f.bufs)

/-- The first fault of one ArbBig input: pointer, length word, length, extent. -/
def arbFault (s : State) (k : Nat) : Option FaultCause :=
  let len := (rdW s.mem (ptr s k)).toNat
  if ptr s k % 8 ≠ 0 then some .misaligned
  else if rangeOk s.plat.map .read (ptr s k) 8 = false then some .access
  else if len = 0 then some .precond
  else if withinBound s.plat.maxDigits len = false then some .precond
  else if rangeOk s.plat.map .read (ptr s k) (8 + 32 * len) = false then some .access
  else none

/-- The first fault of MODEXP's structure and buffers (spec/43_modexp.md R176). -/
def modexpFault (s : State) : Option FaultCause :=
  let out := ptr s 3
  let outFault :=
    if out % 8 ≠ 0 then some .misaligned
    else if rangeOk s.plat.map .write out (8 + 32 * (rdW s.mem (ptr s 2)).toNat) = false then some .access
    else none
  (structFault s 4 .read).or ((arbFault s 0).or ((arbFault s 1).or ((arbFault s 2).or outFault)))

/-- The first fault of BN254_ECPAIRING's structure and buffers (spec/46_bn254_pairing.md R273). -/
def pairingFault (s : State) : Option FaultCause :=
  let n := (structWord s 2).toNat
  let arrays :=
    if ptr s 0 % 8 ≠ 0 then some .misaligned
    else if withinBound s.plat.maxPairs n = false then some .precond
    else if rangeOk s.plat.map .read (ptr s 0) (64 * n) = false then some .access
    else if ptr s 1 % 8 ≠ 0 then some .misaligned
    else if rangeOk s.plat.map .read (ptr s 1) (128 * n) = false then some .access
    else if ptr s 3 % 8 ≠ 0 then some .misaligned
    else if rangeOk s.plat.map .write (ptr s 3) 8 = false then some .access
    else none
  (structFault s 4 .read).or arrays

/-! ### How an issued operation comes out -/

/-- What every outcome of an issue leaves alone: `ARG`, the host's script, the platform; and that `OP` takes
the code of the operation (spec/10_state.md R22, R23). -/
structure IssueFrame (i : Instr) (s t : State) : Prop where
  op   : t.op = encode i
  arg  : t.arg = s.arg
  host : t.host = s.host
  plat : t.plat = s.plat

/-- The operation ends normally in the same step (spec/10_state.md R37 (a)): `ret` is in `RET`, `popped` hint
words are gone, the queries `qs` have been made, `CAUSE` is unchanged; every byte outside the output buffers
`ss` is unchanged, and in a memory in canonical form every output buffer holds its words unless a later one
overlaps it (spec/20_memory.md R62). -/
def EndsWith (i : Instr) (s : State) (popped : Nat) (qs : List Query) (ss : List Store) (ret : Word) : Prop :=
  ∃ t, exec i s = .next t ∧ IssueFrame i s t ∧ t.ret = ret ∧ t.status = statusIdle ∧ t.cause = s.cause ∧
    t.pend = none ∧ t.hintq = s.hintq.drop popped ∧ t.queries = s.queries ++ qs ∧
    (∀ a, ¬ storesTouch ss a → t.mem.read a = s.mem.read a) ∧
    (s.mem.wf → ∀ before st after, ss = before ++ st :: after →
      (∀ a, st.addr ≤ a → a < st.addr + 8 * st.words.length → ¬ storesTouch after a) →
      rdWords t.mem st.addr st.words.length = st.words)

/-- The operation raises a fault in the same step (spec/60_exceptions.md R306): `CAUSE` and `STATUS` are
written, memory and `RET` are unchanged. -/
def FaultsWith (i : Instr) (s : State) (popped : Nat) (qs : List Query) (c : FaultCause) : Prop :=
  ∃ t, exec i s = .next t ∧ IssueFrame i s t ∧ t.ret = s.ret ∧ t.status = statusFault ∧ t.cause = c.code ∧
    t.pend = none ∧ t.hintq = s.hintq.drop popped ∧ t.queries = s.queries ++ qs ∧ t.mem = s.mem

/-- The operation waits for hint words (spec/10_state.md R36 step 4): it is latched and its query is made;
nothing else changes. -/
def WaitsWith (i : Instr) (s : State) (p : Pend) : Prop :=
  ∃ t, exec i s = .next t ∧ IssueFrame i s t ∧ t.ret = s.ret ∧ t.status = statusWaitHint ∧
    t.cause = s.cause ∧ t.pend = some p ∧ t.hintq = s.hintq ∧ t.queries = s.queries ++ [p.query] ∧
    t.mem = s.mem

/-- A hint-consuming operation that has come to its query with the record `p` (spec/10_state.md R36 step 4,
R37): with too few words queued it waits; with enough it pops `need` of them, the oldest, and ends with the
output its rule gives, or faults as its rule says. -/
def AsksWith (i : Instr) (s : State) (p : Pend) : Prop :=
  (s.hintq.length < p.need → WaitsWith i s p) ∧
  (p.need ≤ s.hintq.length →
    (∀ ss ret, p.result (s.hintq.take p.need) = .ok (ss, ret) → EndsWith i s p.need [p.query] ss ret) ∧
    (∀ c, p.result (s.hintq.take p.need) = .error c → FaultsWith i s p.need [p.query] c))

/-- A fault of the memory checks comes before anything else (spec/60_exceptions.md R305). -/
def MemoryFaultsFirst (i : Instr) (s : State) (f : Option FaultCause) : Prop :=
  ∀ c, f = some c → FaultsWith i s 0 [] c

/-! ### Shapes of outcome shared by several operations -/

/-- The outcome of a two-operand field operation of `l` limbs whose mathematical result is `f a b m`
(spec/40_modadd.md R112, spec/30_encoding.md R82 format F4). -/
def FieldOp2Outcome (i : Instr) (l : Nat) (f : Nat → Nat → Nat → Nat) (s : State) : Prop :=
  MemoryFaultsFirst i s (memoryFault s (formatF4 l)) ∧
  (memoryFault s (formatF4 l) = none →
    let a := intAt s l 0
    let b := intAt s l 1
    let m := intAt s l 2
    (m = 0 → FaultsWith i s 0 [] .divZero) ∧
    (m ≠ 0 → (m ≤ a ∨ m ≤ b) → FaultsWith i s 0 [] .precond) ∧
    (a < m → b < m → EndsWith i s 0 [] [Store.int l (ptr s 3) (f a b m)] retZero))

/-- The outcome of a one-operand field operation of `l` limbs whose mathematical result is `f a m`
(spec/40_modadd.md R112, spec/30_encoding.md R82 format F5). -/
def FieldOp1Outcome (i : Instr) (l : Nat) (f : Nat → Nat → Nat) (s : State) : Prop :=
  MemoryFaultsFirst i s (memoryFault s (formatF5 l)) ∧
  (memoryFault s (formatF5 l) = none →
    let a := intAt s l 0
    let m := intAt s l 1
    (m = 0 → FaultsWith i s 0 [] .divZero) ∧
    (m ≠ 0 → m ≤ a → FaultsWith i s 0 [] .precond) ∧
    (a < m → EndsWith i s 0 [] [Store.int l (ptr s 2) (f a m)] retZero))

/-- The outcome of an operation that asks for the `l` limbs of an inverse of `a` modulo `m` and writes it at
`d` (spec/42_modinv.md R152, R154 to R156). -/
def InverseAnswered (i : Instr) (s : State) (p : Pend) (q : Query) (l d a m : Nat) : Prop :=
  (s.hintq.length < l → WaitsWith i s p) ∧
  (l ≤ s.hintq.length →
    let r := fromLimbs (s.hintq.take l)
    (r < m → a * r % m = 1 → EndsWith i s l [q] [Store.int l d r] retZero) ∧
    (¬ (r < m ∧ a * r % m = 1) → FaultsWith i s l [q] .hintVerify))

/-- The outcome of a hint inverse of `l` limbs (spec/42_modinv.md R152, R154). -/
def ModinvHOutcome (i : Instr) (l : Nat) (latch : Nat → Nat → Pend) (ask : Nat → Nat → Query) (s : State) : Prop :=
  MemoryFaultsFirst i s (memoryFault s (formatF5 l)) ∧
  (memoryFault s (formatF5 l) = none →
    let a := intAt s l 0
    let m := intAt s l 1
    (m = 0 → FaultsWith i s 0 [] .divZero) ∧
    (m ≠ 0 → m ≤ a → FaultsWith i s 0 [] .precond) ∧
    (m ≠ 0 → a = 0 → EndsWith i s 0 [] [] retNoInverse) ∧
    (0 < a → a < m → InverseAnswered i s (latch a m) (ask a m) l (ptr s 2) a m))

/-- The outcome of a Fp2 operation in place whose components are `re` and `im` (spec/46_bn254_pairing.md
R261). -/
def Fp2Outcome (i : Instr) (re im : Fp2 → Fp2 → Nat) (s : State) : Prop :=
  MemoryFaultsFirst i s (memoryFault s formatF8) ∧
  (memoryFault s formatF8 = none →
    let f1 := rdFp2 s.mem (ptr s 0)
    let f2 := rdFp2 s.mem (ptr s 1)
    (f1.re < bnP ∧ f1.im < bnP ∧ f2.re < bnP ∧ f2.im < bnP →
      EndsWith i s 0 [] [Store.fp2 (ptr s 0) ⟨re f1 f2, im f1 f2⟩] retZero) ∧
    (¬ (f1.re < bnP ∧ f1.im < bnP ∧ f2.re < bnP ∧ f2.im < bnP) → FaultsWith i s 0 [] .precond))

/-- How many words an operation's structure has and how it is used (spec/30_encoding.md R80, R82). -/
def structureOf : Instr → Nat × Access
  | .add256 => (4, .read)
  | .modadd256 | .modsub256 | .modadd384 | .modsub384 | .modmul256 | .modmul384 => (4, .read)
  | .modneg256 | .modneg384 | .modsqr256 | .modsqr384 => (3, .read)
  | .modinv256F | .modinv256H | .modinv384F | .modinv384H => (3, .read)
  | .arith256 | .arith256Mod | .arith384Mod => (5, .read)
  | .bn254FpInv => (2, .read)
  | .modexp | .secp256k1DmulG | .bn254Ecpairing => (4, .read)
  | .secp256k1Add | .secp256k1Cadd | .bn254CurveAdd | .bn254Cadd => (2, .read)
  | .bn254ComplexAdd | .bn254ComplexSub | .bn254ComplexMul => (2, .read)
  | .secp256k1Dbl | .bn254CurveDbl => (8, .write)
  | .secp256k1Mul | .bn254Ecmul | .bn254Ecadd => (3, .read)

/-! ### Points and the group law -/

/-- What the chord formulas of spec/44_secp256k1.md R201 say of `r`, as equations modulo `p`: some `lam` is
the slope `(y2 - y1)/(x2 - x1)` and `r` is the point it gives. -/
def ChordSum (p : Nat) (q1 q2 r : Point) : Prop :=
  r.x < p ∧ r.y < p ∧ ∃ lam : ZMod p,
    lam * (q2.x - q1.x) = q2.y - q1.y ∧ (r.x : ZMod p) = lam ^ 2 - q1.x - q2.x ∧
      (r.y : ZMod p) = lam * (q1.x - r.x) - q1.y

/-- What the tangent formulas of spec/44_secp256k1.md R202 say of `r`, as equations modulo `p`: some `lam` is
the slope `3x²/(2y)` and `r` is the point it gives. -/
def TangentSum (p : Nat) (q r : Point) : Prop :=
  r.x < p ∧ r.y < p ∧ ∃ lam : ZMod p,
    lam * (2 * q.y) = 3 * q.x ^ 2 ∧ (r.x : ZMod p) = lam ^ 2 - 2 * q.x ∧
      (r.y : ZMod p) = lam * (q.x - r.x) - q.y

/-- The curve `y² = x³ + b` over the integers modulo `p` (spec/44_secp256k1.md R200, spec/45_bn254_curve.md
R230), as Mathlib's Weierstrass curve. -/
def shortCurve (p b : Nat) : WeierstrassCurve.Affine (ZMod p) := ⟨0, 0, 0, 0, (b : ZMod p)⟩

/-- A point of the model stands for a point of the curve's group: the pair `(0, 0)` for the identity, the
reduced coordinates for every other point (spec/00_scope.md R17). -/
def Represents {p b : Nat} (q : Point) (g : (shortCurve p b).Point) : Prop :=
  match g with
  | .zero => q = identity
  | .some x y _ => q.x < p ∧ q.y < p ∧ (q.x : ZMod p) = x ∧ (q.y : ZMod p) = y

/-- Whether two hint words are the position of the most significant 1 bit of `v`, the honest answer of
spec/10_state.md R39. -/
def hintExact (v li bi : Nat) : Prop := li < 4 ∧ bi < 64 ∧ 64 * li + bi = Nat.log2 v

/-- Whether the coordinates of a point satisfy `y² = x³ + b` modulo `p`. -/
def solvesCurve (q : Point) (p b : Nat) : Prop := q.y ^ 2 % p = (q.x ^ 3 + b) % p

/-! ### The pairing tower and the twist as rings and groups -/

/-- `i`, `v` and `w` are what spec/46_bn254_pairing.md R260, R264 and R265 adjoin, in a ring in which `BN_P` is 0:
`i² = -1`, `v³ = 9 + i`, `w² = v`. -/
def TowerRoots {A : Type} [CommRing A] (i v w : A) : Prop :=
  (bnP : A) = 0 ∧ i ^ 2 = -1 ∧ v ^ 3 = 9 + i ∧ w ^ 2 = v

/-- The element of a ring that a pair `(x, y)` means: `x + y·i` (spec/46_bn254_pairing.md R260). -/
def fp2In {A : Type} [CommRing A] (i : A) (a : Fp2) : A := a.re + a.im * i

/-- The element a triple means: `c0 + c1·v + c2·v²` (spec/46_bn254_pairing.md R264). -/
def fp6In {A : Type} [CommRing A] (i v : A) (a : Fp6) : A :=
  fp2In i a.c0 + fp2In i a.c1 * v + fp2In i a.c2 * v ^ 2

/-- The element a pair of triples means: `a + b·w` (spec/46_bn254_pairing.md R265). -/
def fp12In {A : Type} [CommRing A] (i v w : A) (x : Fp12) : A := fp6In i v x.a + fp6In i v x.b * w

/-- Whether all components are reduced. -/
def f6Reduced (a : Fp6) : Bool := f2Reduced a.c0 && f2Reduced a.c1 && f2Reduced a.c2

/-- Whether all twelve components are reduced. -/
def f12Reduced (x : Fp12) : Bool := f6Reduced x.a && f6Reduced x.b

/-- The twist `E': y² = x³ + b'` (spec/46_bn254_pairing.md R266) over a field that has `i`, as Mathlib's
Weierstrass curve. -/
def twistCurve {K : Type} [Field K] (i : K) : WeierstrassCurve.Affine K := ⟨0, 0, 0, 0, fp2In i twistB⟩

/-- A G2 point of the model stands for a point of the twist's group: all zero for the identity, reduced
components for every other point (spec/46_bn254_pairing.md R266). -/
def RepresentsG2 {K : Type} [Field K] {i : K} (q : G2) (g : (twistCurve i).Point) : Prop :=
  match g with
  | .zero => q = g2Identity
  | .some x y _ => g2Reduced q = true ∧ fp2In i q.x = x ∧ fp2In i q.y = y

/-- The generator of G2 that the spec's vectors use (spec/46_bn254_pairing.md R267). PCORE holds none. -/
def bnG2 : G2 :=
  ⟨⟨0x1800DEEF121F1E76426A00665E5C4479674322D4F75EDADD46DEBD5CD992F6ED,
    0x198E9393920D483A7260BFB731FB5D25F1AA493335A9E71297E485B7AEF312C2⟩,
   ⟨0x12C85EA5DB8C6DEB4AAB71808DCB408FE3D1E7690C43D37B4CE6CC0166FA7DAA,
    0x090689D0585FF075EC9E99AD690C3395BC4B313370B38EF355ACDADCD122975B⟩⟩

/-- The product of a list of Fp12 elements, the first first (spec/46_bn254_pairing.md R273). -/
def f12Product : List Fp12 → Fp12
  | [] => f12one
  | x :: rest => f12mul x (f12Product rest)

/-- The Miller loop as spec/46_bn254_pairing.md R270 writes it: `f` and `T` through the bits 63 to 0 of `6u + 2`,
then the two closing steps. -/
def millerByBits (pt : Point) (q : G2) : Except FaultCause Fp12 := do
  let ft ← (List.range 64).reverse.foldlM (fun (ft : Fp12 × G2) n => do
    let (l, t) ← line ft.2 ft.2 pt
    let f := f12mul (f12sqr ft.1) l
    if (6 * bnU + 2).testBit n then
      let (l', t') ← line t q pt
      return (f12mul f l', t')
    else return (f, t)) (f12one, q)
  let (l, t) ← line ft.2 (g2Frob q) pt
  let (l', _) ← line t (g2NegFrob2 q) pt
  return f12mul (f12mul ft.1 l) l'

/-! ### The invariant -/

/-- Whether an output buffer of `n` bytes at `d` passed the checks of the issue. -/
abbrev outputOk (pl : Platform) (d : Word) (n : Nat) : Prop :=
  d.toNat % 8 = 0 ∧ rangeOk pl.map .write d.toNat n = true

/-- What the checks before the query leave true of a latched operation (spec/42_modinv.md R152, R154, R155;
spec/44_secp256k1.md R208, R210; spec/45_bn254_curve.md R236). -/
def pendOk (pl : Platform) : Pend → Prop
  | .modinv256H a m d => 0 < a.toNat ∧ a.toNat < m.toNat ∧ outputOk pl d 32
  | .modinv384H a m d => 0 < a.toNat ∧ a.toNat < m.toNat ∧ outputOk pl d 48
  | .bn254FpInv a d => 0 < a.toNat ∧ a.toNat < bnP ∧ outputOk pl d 32
  | .secpMul k px py q =>
    0 < k.toNat ∧ coordsOk ⟨px.toNat, py.toNat⟩ secpP = true ∧ isId ⟨px.toNat, py.toNat⟩ = false ∧
      outputOk pl q 64
  | .secpDmulG k1 k2 px py q =>
    (0 < k1.toNat ∨ 0 < k2.toNat) ∧ coordsOk ⟨px.toNat, py.toNat⟩ secpP = true ∧ outputOk pl q 64
  | .bnEcmul k px py q =>
    0 < k.toNat ∧ validPoint ⟨px.toNat, py.toNat⟩ bnP bnB = true ∧ isId ⟨px.toNat, py.toNat⟩ = false ∧
      outputOk pl q 64

/-- The invariant of the machine: memory is canonical; `STATUS` is never 3 (spec/10_state.md R25); `CAUSE` is
`NONE` exactly outside `FAULT` and is else one of 1 to 6 (R26, spec/60_exceptions.md R302); `PEND` exists
exactly in `WAIT_HINT` (R32) and is of an operation whose checks have passed. -/
structure Inv (s : State) : Prop where
  memory : s.mem.wf
  status : s.status = statusIdle ∨ s.status = statusWaitHint ∨ s.status = statusFault
  cause  : s.cause = causeNone ↔ s.status ≠ statusFault
  codes  : s.cause.toNat ≤ 6
  pend   : s.pend.isSome = true ↔ s.status = statusWaitHint
  latch  : ∀ p, s.pend = some p → pendOk s.plat p

/-! ### Safe runs -/

/-- A state is safe when PCORE has raised no fault (spec/70_reset_and_hazards.md R349). -/
def Safe (s : State) : Prop := s.status ≠ statusFault

/-- The first `k` steps from `s` stay in next states and safe. -/
def SafeRun (k : Nat) (s : State) : Prop :=
  ∀ j, j ≤ k → ∃ t, Host.Core.run Sys2Proof.core j s = .next t ∧ Safe t

end Sys2Proof.Machine
end

