-- ==== Sys2Proof/Certificates/Slice0/Obligations.lean ====
section
/-! DEFINITION. The statements for the provers (OBLIGATIONS.json). `exec i s` is the issue of the operation `i`
in the state `s`; the outcome shapes are those of Safety.lean. -/

open Sys2Proof Sys2Proof.Machine

/-- O1 (R80, R81, R83). Every one of the 34 operations is well formed and its code is; a byte decodes to
an operation if and only if it is the operation's code, also at the head of a list of bytes, whose rest is
handed back; a byte is refused by name exactly when its unit and fn fields name no row of the table, and
there are 222 such codes. -/
def Obligations.DecodeEncodeAgree : Prop :=
  (∀ (i : Instr) (rest : List Byte), WellFormed i = true ∧ codeWellFormed (encode i) = true ∧
    decode (encode i) = .ok i ∧ decodeBytes (encode i :: rest) = .ok (i, rest)) ∧
  (∀ (c : Byte) (i : Instr), decode c = .ok i ↔ encode i = c) ∧
  (∀ c : Byte, decode c = .error (.illegalCode c) ↔ codeWellFormed c = false) ∧
  ((List.range 256).filter fun n => !codeWellFormed (BitVec.ofNat 8 n)).length = 222

/-- O2 (R80). One code of each unit, written out as unit and fn bits, decodes to the operation of its row:
0x01 ADD256, 0x15 MODMUL384, 0x21 MODINV256_H, 0x30 MODEXP, 0x44 SECP256K1_DMUL_G, 0x53 BN254_ECADD, 0x63
BN254_ECPAIRING; 0x00 is illegal. -/
def Obligations.DecodedWords : Prop :=
  decode 0b0000_0001#8 = .ok .add256 ∧ decode 0b0001_0101#8 = .ok .modmul384 ∧
    decode 0b0010_0001#8 = .ok .modinv256H ∧ decode 0b0011_0000#8 = .ok .modexp ∧
    decode 0b0100_0100#8 = .ok .secp256k1DmulG ∧ decode 0b0101_0011#8 = .ok .bn254Ecadd ∧
    decode 0b0110_0011#8 = .ok .bn254Ecpairing ∧ decode 0b0000_0000#8 = .error (.illegalCode 0)

/-- O3 (R22, R36, R20). When no completion is enabled and the host's next action is a write of a code to
OP that decodes to a well-formed operation, the step is exec of that operation on the state with that
action consumed, and nothing else. With the code placed by withFetchWord (the model's own placement of
that write, log entry 1), the next step is exec of the operation on the state with STATUS IDLE and nothing
pending, in an idle state the state itself. -/
def Obligations.StepRunsDecodedOperation : Prop :=
  (∀ (s : State) (c : Byte) (rest : List HostAction) (i : Instr), readyPend s = none →
    s.host = .writeOp c :: rest → decode c = .ok i → WellFormed i = true →
    step s = exec i { s with host := rest }) ∧
  ∀ (s : State) (i : Instr),
    step (s.withFetchWord 8 (encode i).toNat) = exec i { s with status := statusIdle, pend := none }

/-- O4 (R35). The state after reset has OP 0, ARG 0, RET 0, STATUS IDLE, CAUSE NONE, an empty HINTQ and no
PEND; and the reset event, in every state, sets exactly these and leaves memory as it is. -/
def Obligations.ResetValues : Prop :=
  (State.reset.op = 0x00 ∧ State.reset.arg = 0 ∧ State.reset.ret = 0 ∧ State.reset.status = statusIdle ∧
    State.reset.cause = causeNone ∧ State.reset.hintq = [] ∧ State.reset.pend = none) ∧
  ∀ s : State, ∃ t, hostStep .reset s = .next t ∧ t.op = 0x00 ∧ t.arg = 0 ∧ t.ret = 0 ∧ t.status = statusIdle ∧
    t.cause = causeNone ∧ t.hintq = [] ∧ t.pend = none ∧ t.mem = s.mem

/-- O5 (R340, R25, R26, R32). State.reset satisfies Inv: canonical memory, a legal STATUS, CAUSE NONE
outside FAULT, PEND only in WAIT_HINT. -/
def Obligations.ResetInv : Prop :=
  Inv State.reset

/-- O6 (R25, R26, R32, R302, R50, R59). From every state that satisfies Inv (memory in canonical form and
inside the address space; STATUS never 3; CAUSE is NONE exactly outside FAULT and at most 6; PEND exists
exactly in WAIT_HINT and holds operands and an output address that passed the checks of the issue), every
step that goes on leads to a state that satisfies it: whatever the host does, whatever operation runs,
ends, waits, completes or faults. -/
def Obligations.StepKeepsInv : Prop :=
  ∀ s t : State, Inv s → step s = .next t → Inv t

/-- O7 (R351). In every state whose STATUS is not IDLE, a host write of any code to OP (legal or not) and
of any value to ARG leaves the whole state as it is. -/
def Obligations.IgnoredWrites : Prop :=
  ∀ s : State, s.status ≠ statusIdle →
    (∀ c : Byte, hostStep (.writeOp c) s = .next s) ∧ ∀ v : Word, hostStep (.writeArg v) s = .next s

/-- O8 (R22, R23, R27, R28, R307). In IDLE a host write to ARG sets ARG and nothing else, and a host write
of any code to OP leads to a state whose OP is the code and whose ARG is unchanged. With an unbounded hint
queue, or a bounded one with room, a push in IDLE or WAIT_HINT appends the word at the tail of HINTQ and
changes nothing else; in FAULT it changes nothing. (A push to a full bounded queue is refused: the model's
choice, log entry 8.) -/
def Obligations.HostWrites : Prop :=
  (∀ s : State, s.status = statusIdle →
    (∀ v : Word, hostStep (.writeArg v) s = .next { s with arg := v }) ∧
      ∀ c : Byte, ∃ t, hostStep (.writeOp c) s = .next t ∧ t.op = c ∧ t.arg = s.arg) ∧
  ∀ (s : State) (w : Word),
    (s.status ≠ statusFault → (∀ d, s.plat.hintDepth = some d → s.hintq.length < d) →
      hostStep (.pushHint w) s = .next { s with hintq := s.hintq ++ [w] }) ∧
    (s.status = statusFault → hostStep (.pushHint w) s = .next s)

/-- O9 (R310, R25, R26). A host read of a readable register leaves the whole state as it is and returns
the register's value; a read of a write-only one and a write of a read-only one are no events of the spec
and are refused (the model's choice, log entry 15). -/
def Obligations.RegisterReads : Prop :=
  ∀ s : State,
    (readReg s .arg = some s.arg ∧ readReg s .ret = some s.ret ∧
      readReg s .status = some (s.status.setWidth 64) ∧ readReg s .cause = some (s.cause.setWidth 64)) ∧
    (∀ r, r ∈ [Reg.arg, .ret, .status, .cause] → hostStep (.readReg r) s = .next s) ∧
    (∀ r, r ∈ [Reg.op, .hintPush] → hostStep (.readReg r) s = .refused (.readOfWriteOnly r)) ∧
    ∀ r v, hostStep (.writeReadOnly r v) s = .refused (.writeOfReadOnly r)

/-- O10 (R85, R52, R54). Where the platform makes its eight bytes writable, a host store of a word or of
RET gives a next state in which the address reads as the value, byte k from it is bits 8k+7..8k of the
value, in a canonical memory, every other byte and every register of PCORE is unchanged; elsewhere the
model stops (its choice, log entry 7). -/
def Obligations.HostStoreWord : Prop :=
  ∀ (s : State) (a : Word) (v : StoreValue),
    (rangeOk s.plat.map .write a.toNat 8 = true → ∃ t, hostStep (.store a v) s = .next t ∧
      t = { s with mem := t.mem } ∧ (∀ x, ¬ (a.toNat ≤ x ∧ x < a.toNat + 8) → t.mem.read x = s.mem.read x) ∧
      (s.mem.wf → rdW t.mem a.toNat = storedWord s v ∧
        ∀ k, k < 8 → t.mem.read (a.toNat + k) = (storedWord s v).extractLsb' (8 * k) 8)) ∧
    (rangeOk s.plat.map .write a.toNat 8 = false → hostStep (.store a v) s = .fault (.hostStore a))

/-- O11 (R83, R302, R306, R22). In IDLE a host write of a code that is in no row of the table gives the
state with OP that code, STATUS FAULT, CAUSE 1 and PEND absent, and everything else (RET, ARG, HINTQ,
memory) unchanged. That OP holds the code although R306 leaves OP unchanged by a fault is the model's
reading of R22 (log entry 16). -/
def Obligations.IllegalCodesFault : Prop :=
  ∀ (s : State) (c : Byte), s.status = statusIdle → codeWellFormed c = false →
    hostStep (.writeOp c) s = .next { s with op := c, status := statusFault, cause := 1, pend := none }

/-- O12 (R306, R309, R14, R22). If an operation issued in IDLE ends in FAULT, or a waiting one faults at
its completion, then memory, RET and ARG are as before, PEND is discarded and CAUSE is one of the six
codes; the completion leaves OP alone. That a faulting issue leaves OP at the operation's code, where R306
says OP is unchanged, is the model's reading of R22 (log entry 16). -/
def Obligations.FaultLeavesMemory : Prop :=
  (∀ (i : Instr) (s t : State), s.status = statusIdle → exec i s = .next t → t.status = statusFault →
    t.mem = s.mem ∧ t.ret = s.ret ∧ t.arg = s.arg ∧ t.op = encode i ∧ t.pend = none ∧
      ∃ c : FaultCause, t.cause = c.code ∧ 1 ≤ c.code.toNat ∧ c.code.toNat ≤ 6) ∧
  (∀ (p : Pend) (s : State), (complete p s).status = statusFault →
    (complete p s).mem = s.mem ∧ (complete p s).ret = s.ret ∧ (complete p s).arg = s.arg ∧
      (complete p s).op = s.op ∧ (complete p s).pend = none ∧ ∃ c : FaultCause, (complete p s).cause = c.code)

/-- O13 (R307, R340, R349). Over any number of steps from a state in FAULT in which the host applies no
reset, STATUS stays FAULT, CAUSE keeps the first cause, and OP, ARG, RET, HINTQ, PEND and the query
history do not change; if the host makes no store among those steps, memory does not change either. A
reset step leads to IDLE with CAUSE NONE. -/
def Obligations.FaultIsSticky : Prop :=
  (∀ (k : Nat) (s t : State), s.status = statusFault → (∀ act ∈ s.host.take k, act ≠ .reset) →
    Host.Core.run Sys2Proof.core k s = .next t →
    t.status = statusFault ∧ t.cause = s.cause ∧ t.op = s.op ∧ t.arg = s.arg ∧ t.ret = s.ret ∧
      t.hintq = s.hintq ∧ t.pend = s.pend ∧ t.queries = s.queries ∧
      ((∀ act ∈ s.host.take k, ∀ a v, act ≠ .store a v) → t.mem = s.mem)) ∧
  (∀ (s : State) (rest : List HostAction), s.status = statusFault → s.host = .reset :: rest →
    ∃ t, step s = .next t ∧ t.status = statusIdle ∧ t.cause = causeNone)

/-- O14 (R300, R306, R14). For every operation and every state exec answers a next state. Issued in IDLE,
that state is IDLE with CAUSE unchanged and nothing pending, or WAIT_HINT with the operation latched and
CAUSE, RET and memory unchanged (only for the six operations that consume hints), or FAULT. -/
def Obligations.OperationsNeverStop : Prop :=
  ∀ (i : Instr) (s : State), ∃ t, exec i s = .next t ∧ (s.status ≠ statusIdle → t = s) ∧
    (s.status = statusIdle →
      (t.status = statusIdle ∧ t.cause = s.cause ∧ t.pend = none) ∨
      (t.status = statusWaitHint ∧ t.cause = s.cause ∧ t.mem = s.mem ∧ t.ret = s.ret ∧
        i ∈ [Instr.modinv256H, .modinv384H, .bn254FpInv, .secp256k1Mul, .secp256k1DmulG, .bn254Ecmul] ∧
        ∃ p, t.pend = some p ∧ p.instr = i) ∨
      (t.status = statusFault ∧ t.mem = s.mem ∧ t.ret = s.ret))

/-- O15 (R85, R51, 93_implementation_defined.md). A step faults only at a host store to bytes the platform
does not make writable; it is refused only at a host read of a write-only register, a host write of a
read-only one, or a push to a full bounded queue. These stops are the model's choice (log entries 7, 8,
15); no operation stops. -/
def Obligations.StepStopsOnlyForHost : Prop :=
  ∀ s : State,
    (∀ f, step s = .fault f → ∃ a v rest, s.host = .store a v :: rest ∧ f = .hostStore a ∧
      rangeOk s.plat.map .write a.toNat 8 = false) ∧
    (∀ r, step s = .refused r →
      (∃ reg rest, s.host = .readReg reg :: rest ∧ r = .readOfWriteOnly reg ∧ reg ∈ [Reg.op, .hintPush]) ∨
      (∃ reg v rest, s.host = .writeReadOnly reg v :: rest ∧ r = .writeOfReadOnly reg) ∨
      (∃ w rest d, s.host = .pushHint w :: rest ∧ r = .hintQueueFull ∧ s.plat.hintDepth = some d ∧
        d ≤ s.hintq.length))

/-- O16 (R305, R58, R59, R82). For every operation issued in IDLE: an ARG that is not a multiple of 8
raises MISALIGNED; with ARG aligned, a structure (of the operation's format: its words read, or for the
two doublings written) that is not accessible or passes the top of the address space raises ACCESS;
whatever the other operands. -/
def Obligations.StructureFaultsFirst : Prop :=
  ∀ (i : Instr) (s : State), s.status = statusIdle →
    (s.arg.toNat % 8 ≠ 0 → FaultsWith i s 0 [] .misaligned) ∧
    (s.arg.toNat % 8 = 0 →
      rangeOk s.plat.map (structureOf i).2 s.arg.toNat (8 * (structureOf i).1) = false →
      FaultsWith i s 0 [] .access)

/-- O17 (R58, R59, R305). The first memory fault of a fixed-size format is absent exactly when ARG is a
multiple of 8, the structure stays in the address space and every byte of it allows its use, and the same
holds of every buffer; otherwise it is MISALIGNED or ACCESS. -/
def Obligations.MemoryFaultMeaning : Prop :=
  ∀ (s : State) (f : Format),
    (memoryFault s f = none ↔
      (s.arg.toNat % 8 = 0 ∧ s.arg.toNat + 8 * f.words ≤ 2 ^ 64 ∧
        ∀ k, k < 8 * f.words → Perm.allows (mappedAt s.plat.map (s.arg.toNat + k)) f.acc = true) ∧
      ∀ b ∈ f.bufs, ptr s b.word % 8 = 0 ∧ ptr s b.word + b.size ≤ 2 ^ 64 ∧
        ∀ k, k < b.size → Perm.allows (mappedAt s.plat.map (ptr s b.word + k)) b.acc = true) ∧
    ∀ c, memoryFault s f = some c → c = .misaligned ∨ c = .access

/-- O18 (R61, R62, R55). Writing a list of output buffers inside the address space keeps a canonical
memory canonical; every byte outside them is unchanged; a buffer of l limbs not touched by a later one
reads back as the integer written, modulo 2^(64 l), and the last one always does. -/
def Obligations.OutputBuffersHold : Prop :=
  ∀ (m : Memory) (before after : List Store) (l a v : Nat), m.wf →
    (∀ st ∈ before ++ Store.int l a v :: after, st.addr + 8 * st.words.length ≤ 2 ^ 64) →
    (applyStores m (before ++ Store.int l a v :: after)).wf ∧
    (∀ x, ¬ storesTouch (before ++ Store.int l a v :: after) x →
      (applyStores m (before ++ Store.int l a v :: after)).read x = m.read x) ∧
    ((∀ x, a ≤ x → x < a + 8 * l → ¬ storesTouch after x) →
      rdInt (applyStores m (before ++ Store.int l a v :: after)) l a = v % 2 ^ (64 * l)) ∧
    rdInt (applyStores m (before ++ [Store.int l a v])) l a = v % 2 ^ (64 * l)

/-- O19 (R100). For a, b below 2^(64 L) and a carry in of 0 or 1: the sum is t mod 2^W, the carry out is t
div 2^W and 0 or 1; and there is a chain of carries from cin to cout, limb by limb, as the limb-wise form
says. -/
def Obligations.AddWithCarryExact : Prop :=
  ∀ L a b cin : Nat, a < 2 ^ (64 * L) → b < 2 ^ (64 * L) → cin ≤ 1 →
    addWithCarry (64 * L) a b cin = ((a + b + cin) % 2 ^ (64 * L), (a + b + cin) / 2 ^ (64 * L)) ∧
    (addWithCarry (64 * L) a b cin).2 ≤ 1 ∧
    ∃ c : Nat → Nat, c 0 = cin ∧ c L = (addWithCarry (64 * L) a b cin).2 ∧ ∀ j, j < L →
      (limb (addWithCarry (64 * L) a b cin).1 j).toNat =
        ((limb a j).toNat + (limb b j).toNat + c j) % 2 ^ 64 ∧
      c (j + 1) = ((limb a j).toNat + (limb b j).toNat + c j) / 2 ^ 64

/-- O20 (R101). For a, b below 2^W and a borrow in of 0 or 1, with t = a - b - bin as an integer: the
difference is t mod 2^W, the borrow out is 1 if t is negative and else 0, and t = diff - 2^W * bout. -/
def Obligations.SubWithBorrowExact : Prop :=
  ∀ w a b bin : Nat, a < 2 ^ w → b < 2 ^ w → bin ≤ 1 →
    (((subWithBorrow w a b bin).1 : Int) = ((a : Int) - b - bin) % 2 ^ w) ∧
    (subWithBorrow w a b bin).2 = (if (a : Int) - b - bin < 0 then 1 else 0) ∧
    (a : Int) - b - bin = (subWithBorrow w a b bin).1 - 2 ^ w * (subWithBorrow w a b bin).2 ∧
    (subWithBorrow w a b bin).1 < 2 ^ w

/-- O21 (R102, R103, R104). cmp decides as the integers compare; shl and shr by less than the width
multiply and divide, and are refused from the width on; bit is the binary digit; a non-zero value lies
between 2^msb and 2^(msb+1); below 2^W it is less than 2^(W - leading_zeros), and leading_zeros of 0 is W. -/
def Obligations.FixedBigHelpers : Prop :=
  (∀ a b : Nat, (Machine.cmp a b = .lt ↔ a < b) ∧ (Machine.cmp a b = .eq ↔ a = b) ∧
    (Machine.cmp a b = .gt ↔ b < a)) ∧
  (∀ w a s : Nat, (s < w → shl w a s = some (a * 2 ^ s % 2 ^ w) ∧ shr w a s = some (a / 2 ^ s)) ∧
    (w ≤ s → shl w a s = none ∧ shr w a s = none)) ∧
  (∀ a i : Nat, bit a i = a / 2 ^ i % 2 ∧ (bit a i = 1 ↔ a.testBit i = true)) ∧
  (∀ a : Nat, isZero a = true ↔ a = 0) ∧
  (∀ w a : Nat, a < 2 ^ w → 0 < a → 2 ^ msb a ≤ a ∧ a < 2 ^ (msb a + 1) ∧ leadingZeros w a = w - 1 - msb a ∧
    a < 2 ^ (w - leadingZeros w a) ∧ 2 ^ (w - leadingZeros w a) ≤ 2 * a) ∧
  ∀ w : Nat, leadingZeros w 0 = w

/-- O22 (R105). ADD256 issued in IDLE: a memory fault comes first; else a carry in above 1 raises PRECOND;
else it ends with (a + b + cin) mod 2^256 at the address in word 3 and the carry in RET, all other bytes,
CAUSE, ARG, HINTQ and the query history unchanged. -/
def Obligations.Add256Outcome : Prop :=
  ∀ s : State, s.status = statusIdle →
    MemoryFaultsFirst .add256 s (memoryFault s formatF1) ∧
    (memoryFault s formatF1 = none →
      let t := intAt s 4 0 + intAt s 4 1 + (structWord s 2).toNat
      (1 < (structWord s 2).toNat → FaultsWith .add256 s 0 [] .precond) ∧
      ((structWord s 2).toNat ≤ 1 →
        EndsWith .add256 s 0 [] [Store.int 4 (ptr s 3) (t % 2 ^ 256)] (BitVec.ofNat 64 (t / 2 ^ 256))))

/-- O23 (R106, R109, R112). MODADD256 and MODADD384 issued in IDLE: a memory fault comes first; m = 0
raises DIV_ZERO; an operand not below m raises PRECOND; else they end with (a + b) mod m in the output
buffer and RET 0, every other byte and register of PCORE unchanged. -/
def Obligations.ModaddOutcome : Prop :=
  ∀ s : State, s.status = statusIdle →
    FieldOp2Outcome .modadd256 4 (fun a b m => (a + b) % m) s ∧
    FieldOp2Outcome .modadd384 6 (fun a b m => (a + b) % m) s

/-- O24 (R107, R110, R112). MODSUB256 and MODSUB384 issued in IDLE: memory faults, DIV_ZERO and PRECOND as
for the addition; else they end with the least non-negative residue of a - b modulo m in the output buffer
and RET 0, all else unchanged. -/
def Obligations.ModsubOutcome : Prop :=
  ∀ s : State, s.status = statusIdle →
    FieldOp2Outcome .modsub256 4 (fun a b m => (((a : Int) - b) % m).toNat) s ∧
    FieldOp2Outcome .modsub384 6 (fun a b m => (((a : Int) - b) % m).toNat) s

/-- O25 (R108, R111). MODNEG256 and MODNEG384 issued in IDLE: memory faults first, m = 0 DIV_ZERO, a not
below m PRECOND; else they end with the least non-negative residue of -a modulo m in the output buffer and
RET 0, all else unchanged. -/
def Obligations.ModnegOutcome : Prop :=
  ∀ s : State, s.status = statusIdle →
    FieldOp1Outcome .modneg256 4 (fun a m => ((-(a : Int)) % m).toNat) s ∧
    FieldOp1Outcome .modneg384 6 (fun a m => ((-(a : Int)) % m).toNat) s

/-- O26 (R113, R106, R107, R108). For every width w, modulus m with 1 ≤ m < 2^w and reduced a, b: the
datapath steps of MODADD, MODSUB and MODNEG (one addition or subtraction and one correction at width w)
give d < m congruent modulo m to a + b, a - b and -a. -/
def Obligations.FieldClosure : Prop :=
  ∀ w m a b : Nat, m < 2 ^ w → a < m → b < m →
    (modAddSteps w a b m < m ∧ (modAddSteps w a b m : Int) ≡ a + b [ZMOD m]) ∧
    (modSubSteps w a b m < m ∧ (modSubSteps w a b m : Int) ≡ a - b [ZMOD m]) ∧
    (modNegSteps a m < m ∧ (modNegSteps a m : Int) ≡ -a [ZMOD m])

/-- O27 (R130). ARITH256 issued in IDLE: a memory fault comes first, and there is no other fault; else it
ends with (a*b + c) div 2^256 at word 3's address, then (a*b + c) mod 2^256 at word 4's (written last, so
it wins on overlap), RET 0, all else unchanged; the high half is below 2^256. -/
def Obligations.Arith256Outcome : Prop :=
  ∀ s : State, s.status = statusIdle →
    MemoryFaultsFirst .arith256 s (memoryFault s formatF2) ∧
    (memoryFault s formatF2 = none →
      let t := intAt s 4 0 * intAt s 4 1 + intAt s 4 2
      t / 2 ^ 256 < 2 ^ 256 ∧
      EndsWith .arith256 s 0 [] [Store.int 4 (ptr s 3) (t / 2 ^ 256), Store.int 4 (ptr s 4) (t % 2 ^ 256)] retZero)

/-- O28 (R131, R132). ARITH256_MOD and ARITH384_MOD issued in IDLE: a memory fault comes first; m = 0
raises DIV_ZERO; else, whatever a, b and c, they end with (a*b + c) mod m in the output buffer and RET 0,
all else unchanged. -/
def Obligations.ArithModOutcome : Prop :=
  ∀ (i : Instr) (l : Nat), (i, l) ∈ [(Instr.arith256Mod, 4), (.arith384Mod, 6)] → ∀ s : State, s.status = statusIdle →
    MemoryFaultsFirst i s (memoryFault s (formatF3 l)) ∧
    (memoryFault s (formatF3 l) = none →
      (intAt s l 3 = 0 → FaultsWith i s 0 [] .divZero) ∧
      (intAt s l 3 ≠ 0 → EndsWith i s 0 []
        [Store.int l (ptr s 4) ((intAt s l 0 * intAt s l 1 + intAt s l 2) % intAt s l 3)] retZero))

/-- O29 (R135, R137). MODMUL256 and MODMUL384 issued in IDLE: memory faults first, m = 0 DIV_ZERO, an
operand not below m PRECOND; else they end with a*b mod m in the output buffer and RET 0, all else
unchanged. -/
def Obligations.ModmulOutcome : Prop :=
  ∀ s : State, s.status = statusIdle →
    FieldOp2Outcome .modmul256 4 (fun a b m => a * b % m) s ∧
    FieldOp2Outcome .modmul384 6 (fun a b m => a * b % m) s

/-- O30 (R136, R138). MODSQR256 and MODSQR384 issued in IDLE: memory faults first, m = 0 DIV_ZERO, a not
below m PRECOND; else they end with a*a mod m in the output buffer and RET 0, all else unchanged. -/
def Obligations.ModsqrOutcome : Prop :=
  ∀ s : State, s.status = statusIdle →
    FieldOp1Outcome .modsqr256 4 (fun a m => a * a % m) s ∧
    FieldOp1Outcome .modsqr384 6 (fun a m => a * a % m) s

/-- O31 (R151, R153). MODINV256_F and MODINV384_F issued in IDLE: memory faults, DIV_ZERO and PRECOND as
for every field operation; a = 0 ends with RET 1 and no byte written; else with r = a^(m-2) mod m they end
with r in the output buffer and RET 0 if a*r mod m = 1, and raise PRECOND if not; for a prime m the check
always holds. -/
def Obligations.ModinvFOutcome : Prop :=
  ∀ (i : Instr) (l : Nat), (i, l) ∈ [(Instr.modinv256F, 4), (.modinv384F, 6)] → ∀ s : State, s.status = statusIdle →
    MemoryFaultsFirst i s (memoryFault s (formatF5 l)) ∧
    (memoryFault s (formatF5 l) = none →
      let a := intAt s l 0
      let m := intAt s l 1
      let r := a ^ (m - 2) % m
      (m = 0 → FaultsWith i s 0 [] .divZero) ∧
      (m ≠ 0 → m ≤ a → FaultsWith i s 0 [] .precond) ∧
      (m ≠ 0 → a = 0 → EndsWith i s 0 [] [] retNoInverse) ∧
      (0 < a → a < m →
        (a * r % m = 1 → EndsWith i s 0 [] [Store.int l (ptr s 2) r] retZero) ∧
        (a * r % m ≠ 1 → FaultsWith i s 0 [] .precond) ∧
        (m.Prime → a * r % m = 1)))

/-- O32 (R152, R154, R36, R37, R305). MODINV256_H and MODINV384_H issued in IDLE: memory faults, DIV_ZERO,
PRECOND first; a = 0 ends with RET 1, no byte written, no query, no word popped; else the query INV256 or
INV384 of a and m is made, and with fewer than 4 (6) words queued the operation waits, latched; with
enough, the oldest 4 (6) are popped and their integer r is written with RET 0 if r < m and a*r mod m = 1,
and HINT_VERIFY is raised if not. That the faults of the data checks (DIV_ZERO and PRECOND) come at issue,
with no query made and no word popped whatever the queue holds, is the model's reading (log entry 6). -/
def Obligations.HintInverseOutcome : Prop :=
  ∀ s : State, s.status = statusIdle →
    ModinvHOutcome .modinv256H 4
      (fun a m => .modinv256H (BitVec.ofNat 256 a) (BitVec.ofNat 256 m) (structWord s 2))
      (fun a m => .inv256 (BitVec.ofNat 256 a) (BitVec.ofNat 256 m)) s ∧
    ModinvHOutcome .modinv384H 6
      (fun a m => .modinv384H (BitVec.ofNat 384 a) (BitVec.ofNat 384 m) (structWord s 2))
      (fun a m => .inv384 (BitVec.ofNat 384 a) (BitVec.ofNat 384 m)) s

/-- O33 (R155, R36, R37, R305). BN254_FP_INV issued in IDLE: memory faults first; a not below BN_P raises
PRECOND; a = 0 writes 0 with RET 0, no query, no word popped; else the query INV256 of a and BN_P is made
and the operation waits for 4 words, pops them, and writes their integer with RET 0 if it is the inverse
of a modulo BN_P, else raises HINT_VERIFY. That the PRECOND of an unreduced operand comes at issue, with
no query made and no word popped whatever the queue holds, is the model's reading (log entry 6). -/
def Obligations.Bn254FpInvOutcome : Prop :=
  ∀ s : State, s.status = statusIdle →
    MemoryFaultsFirst .bn254FpInv s (memoryFault s formatF6) ∧
    (memoryFault s formatF6 = none →
      let a := intAt s 4 0
      (bnP ≤ a → FaultsWith .bn254FpInv s 0 [] .precond) ∧
      (a = 0 → EndsWith .bn254FpInv s 0 [] [Store.int 4 (ptr s 1) 0] retZero) ∧
      (0 < a → a < bnP → InverseAnswered .bn254FpInv s (.bn254FpInv (BitVec.ofNat 256 a) (structWord s 1))
        (.inv256 (BitVec.ofNat 256 a) (BitVec.ofNat 256 bnP)) 4 (ptr s 1) a bnP))

/-- O34 (R150, R156, R16, R39). For 0 < a < m: two candidates below m that pass the check are equal; when
a and m are coprime, the limbs of invm(a, m) pass it, so the honest hint is accepted, at 256 bits from 4
words and at 384 bits from 6; when they are not coprime no candidate passes; and the Fermat candidate,
when it passes, is invm(a, m) too. -/
def Obligations.InverseIsUnique : Prop :=
  ∀ a m : Nat, 0 < a → a < m →
    (∀ r r' : Nat, r < m → r' < m → a * r % m = 1 → a * r' % m = 1 → r = r') ∧
    (Nat.Coprime a m → ∀ l, m < 2 ^ (64 * l) →
      hintedInverse a m (toLimbs l (invm a m)) = .ok (invm a m) ∧ a * invm a m % m = 1 ∧ invm a m < m) ∧
    (¬ Nat.Coprime a m → ∀ ws, hintedInverse a m ws = .error .hintVerify) ∧
    (a * (a ^ (m - 2) % m) % m = 1 → a ^ (m - 2) % m = invm a m)

/-- O35 (R176, R177, R179). MODEXP issued in IDLE: its memory and length faults come first; a non-
canonical input raises PRECOND; else it ends with RET 0 and, in as many digits as the modulus, 0 for m =
1, b^e mod m for m ≥ 2, and for m = 0: 0 if b = 0 < e, 1 if b = 1, and DIV_ZERO in every other case; all
else unchanged. -/
def Obligations.ModexpOutcome : Prop :=
  ∀ s : State, s.status = statusIdle →
    MemoryFaultsFirst .modexp s (modexpFault s) ∧
    (modexpFault s = none →
      let b := arbValue (arbAt s 0)
      let e := arbValue (arbAt s 1)
      let m := arbValue (arbAt s 2)
      let canonical := arbCanonical (arbAt s 0) && arbCanonical (arbAt s 1) && arbCanonical (arbAt s 2)
      let writes := fun v =>
        EndsWith .modexp s 0 [] [Store.arb (ptr s 3) (digitsPadded (arbAt s 2).length v)] retZero
      (canonical = false → FaultsWith .modexp s 0 [] .precond) ∧
      (canonical = true →
        (m = 1 → writes 0) ∧
        (2 ≤ m → writes (b ^ e % m)) ∧
        (m = 0 → b = 0 → 0 < e → writes 0) ∧
        (m = 0 → b = 1 → writes 1) ∧
        (m = 0 → b ≠ 1 → (b = 0 → e = 0) → FaultsWith .modexp s 0 [] .divZero)))

/-- O36 (R179, R170, R57). For a non-empty list of 256-bit digits with value m and a result v below m or
at most 1, the padded digits are as many as those of m, each below 2^256, digit k is (v div 2^(256 k)) mod
2^256, and their value is v. -/
def Obligations.ModexpOutputFits : Prop :=
  ∀ (ds : List Nat) (v : Nat), ds ≠ [] → (∀ d ∈ ds, d < 2 ^ 256) → (v < arbValue ds ∨ v ≤ 1) →
    (digitsPadded ds.length v).length = ds.length ∧ (∀ d ∈ digitsPadded ds.length v, d < 2 ^ 256) ∧
    (∀ k, k < ds.length → (digitsPadded ds.length v)[k]? = some (v / 2 ^ (256 * k) % 2 ^ 256)) ∧
    arbValue (digitsPadded ds.length v) = v

/-- O37 (R170, R171, R172, R173, R174, R175). On lists of 256-bit digits: trim keeps the value of a non-
empty list and is canonical; add_agtb has value a + b and len(a) digits when the sum fits in them, one
digit more exactly when it does not; sub has value a - b, trimmed, and is refused when negative; mul_short
has len(a) + 1 digits and mul_long len(a) + len(b), with the product as value; div_long gives the quotient
and the remainder, canonical, or DIV_ZERO for a divisor of value 0. -/
def Obligations.ArbBigFunctions : Prop :=
  (∀ a : List Nat, (∀ d ∈ a, d < 2 ^ 256) → a ≠ [] →
    arbValue (arbTrim a) = arbValue a ∧ arbCanonical (arbTrim a) = true) ∧
  ∀ a b : List Nat, (∀ d ∈ a, d < 2 ^ 256) → (∀ d ∈ b, d < 2 ^ 256) →
    (b.length ≤ a.length → arbValue (addAgtb a b) = arbValue a + arbValue b ∧
      (arbValue a + arbValue b < 2 ^ (256 * a.length) → (addAgtb a b).length = a.length) ∧
      (2 ^ (256 * a.length) ≤ arbValue a + arbValue b → (addAgtb a b).length = a.length + 1) ∧
      ∀ d ∈ addAgtb a b, d < 2 ^ 256) ∧
    (arbValue b ≤ arbValue a → ∃ d, arbSub a b = some d ∧ arbValue d = arbValue a - arbValue b ∧
      arbCanonical d = true) ∧
    (arbValue a < arbValue b → arbSub a b = none) ∧
    (∀ d, d < 2 ^ 256 → arbValue (mulShort a d) = arbValue a * d ∧ (mulShort a d).length = a.length + 1) ∧
    (arbValue (mulLong a b) = arbValue a * arbValue b ∧ (mulLong a b).length = a.length + b.length) ∧
    (arbValue b = 0 → divLongDigits a b = .error .divZero) ∧
    (0 < arbValue b → ∃ q r, divLongDigits a b = .ok (q, r) ∧ arbValue q = arbValue a / arbValue b ∧
      arbValue r = arbValue a % arbValue b ∧ arbCanonical q = true ∧ arbCanonical r = true)

/-- O38 (R203, R231, R201). SECP256K1_ADD and BN254_CURVE_ADD issued in IDLE: a memory fault comes first;
unreduced coordinates, an identity operand or equal abscissas raise PRECOND; else they end with the point
of the chord formulas (some slope lam with lam (x2 - x1) = y2 - y1 modulo p, x3 = lam² - x1 - x2, y3 = lam
(x1 - x3) - y1, reduced) over the first point, RET 0, all else unchanged; curve membership is not tested. -/
def Obligations.RawAddOutcome : Prop :=
  ∀ (i : Instr) (p : Nat), (i, p) ∈ [(Instr.secp256k1Add, secpP), (.bn254CurveAdd, bnP)] →
    ∀ s : State, s.status = statusIdle →
    MemoryFaultsFirst i s (memoryFault s formatF8) ∧
    (memoryFault s formatF8 = none →
      let q1 := pointAt s 0
      let q2 := pointAt s 1
      let domain := (q1.x < p ∧ q1.y < p ∧ q2.x < p ∧ q2.y < p) ∧ q1 ≠ identity ∧ q2 ≠ identity ∧ q1.x ≠ q2.x
      (domain → ∃ r, ChordSum p q1 q2 r ∧ EndsWith i s 0 [] [Store.point (ptr s 0) r] retZero) ∧
      (¬ domain → FaultsWith i s 0 [] .precond))

/-- O39 (R204, R232, R202). SECP256K1_DBL and BN254_CURVE_DBL issued in IDLE: a memory fault of the 64
bytes at ARG, which must be writable, comes first; unreduced coordinates, the identity or y = 0 raise
PRECOND; else they end with the point of the tangent formulas (lam 2y = 3x² modulo p, x3 = lam² - 2x, y3 =
lam (x - x3) - y, reduced) at ARG, RET 0, all else unchanged. -/
def Obligations.RawDblOutcome : Prop :=
  ∀ (i : Instr) (p : Nat), (i, p) ∈ [(Instr.secp256k1Dbl, secpP), (.bn254CurveDbl, bnP)] →
    ∀ s : State, s.status = statusIdle →
    MemoryFaultsFirst i s (memoryFault s formatF9) ∧
    (memoryFault s formatF9 = none →
      let q := rdPt s.mem s.arg.toNat
      let domain := (q.x < p ∧ q.y < p) ∧ q ≠ identity ∧ q.y ≠ 0
      (domain → ∃ r, TangentSum p q r ∧ EndsWith i s 0 [] [Store.point s.arg.toNat r] retZero) ∧
      (¬ domain → FaultsWith i s 0 [] .precond))

/-- O40 (R206, R233, R205). SECP256K1_CADD and BN254_CADD issued in IDLE: a memory fault comes first;
unreduced coordinates raise PRECOND; else, over the first point with RET 0 and all else unchanged: the
other point if one is the identity, (0, 0) for equal abscissas whose ordinates sum to 0 modulo p, the
tangent point for equal points, the chord point for different abscissas; equal abscissas with neither
equal nor opposite ordinates raise PRECOND. -/
def Obligations.CompleteAddOutcome : Prop :=
  ∀ (i : Instr) (p : Nat), (i, p) ∈ [(Instr.secp256k1Cadd, secpP), (.bn254Cadd, bnP)] →
    ∀ s : State, s.status = statusIdle →
    MemoryFaultsFirst i s (memoryFault s formatF8) ∧
    (memoryFault s formatF8 = none →
      let q1 := pointAt s 0
      let q2 := pointAt s 1
      let reduced := q1.x < p ∧ q1.y < p ∧ q2.x < p ∧ q2.y < p
      let ends := fun r => EndsWith i s 0 [] [Store.point (ptr s 0) r] retZero
      (¬ reduced → FaultsWith i s 0 [] .precond) ∧
      (reduced → q1 = identity → ends q2) ∧
      (reduced → q1 ≠ identity → q2 = identity → ends q1) ∧
      (reduced → q1 ≠ identity → q2 ≠ identity →
        (q1.x = q2.x → (q1.y + q2.y) % p = 0 → ends identity) ∧
        (q1.x = q2.x → (q1.y + q2.y) % p ≠ 0 → q1.y = q2.y → ∃ r, TangentSum p q1 r ∧ ends r) ∧
        (q1.x = q2.x → (q1.y + q2.y) % p ≠ 0 → q1.y ≠ q2.y → FaultsWith i s 0 [] .precond) ∧
        (q1.x ≠ q2.x → ∃ r, ChordSum p q1 q2 r ∧ ends r)))

/-- O41 (R205, R211, R200, R17). For every prime p > 3 and curve constant b not divisible by p: a pair is
valid exactly when it stands for a point of the curve y² = x³ + b over the integers modulo p in Mathlib's
group; the complete addition of two valid pairs answers a pair that stands for the sum of the two points,
so it never faults on valid points and its result is valid. -/
def Obligations.CompleteAddIsGroupSum : Prop :=
  ∀ (p b : Nat) [Fact p.Prime], 3 < p → b % p ≠ 0 →
    (∀ q : Point, validPoint q p b = true ↔ ∃ g : (shortCurve p b).Point, Represents q g) ∧
    ∀ (q1 q2 : Point) (g1 g2 : (shortCurve p b).Point), Represents q1 g1 → Represents q2 g2 →
      ∃ r, cadd q1 q2 p = .ok r ∧ Represents r (g1 + g2)

/-- O42 (R207, R208, R39, R211). For every prime p > 3, curve constant b not divisible by p, 0 < k < 2^256
and a pair other than the identity that stands for a point g of the curve: with hint words that are the
position of the most significant 1 bit of k, smul answers a pair that stands for k • g in the curve's
group; with any other two hint words it raises HINT_VERIFY. -/
def Obligations.SmulIsGroupMultiple : Prop :=
  ∀ (p b : Nat) [Fact p.Prime], 3 < p → b % p ≠ 0 →
    ∀ (k : Nat) (q : Point) (g : (shortCurve p b).Point) (li bi : Nat),
      0 < k → k < 2 ^ 256 → q ≠ identity → Represents q g →
      (hintExact k li bi → ∃ r, smul k q p li bi = .ok r ∧ Represents r (k • g)) ∧
      (¬ hintExact k li bi → smul k q p li bi = .error .hintVerify)

/-- O43 (R209, R210, R39). For every prime p > 3, curve constant b not divisible by p, scalars below 2^256
not both 0, and pairs that stand for points gg and g of the curve: with hint words that are the position
of the most significant 1 bit of the larger scalar, dsmul answers a pair that stands for k1 • gg + k2 • g;
with any other hint words it raises HINT_VERIFY. P may be the identity, G or -G. -/
def Obligations.DsmulIsGroupSum : Prop :=
  ∀ (p b : Nat) [Fact p.Prime], 3 < p → b % p ≠ 0 →
    ∀ (k1 k2 : Nat) (q qg : Point) (g gg : (shortCurve p b).Point) (li bi : Nat),
      0 < max k1 k2 → max k1 k2 < 2 ^ 256 → Represents q g → Represents qg gg →
      (hintExact (max k1 k2) li bi →
        ∃ r, dsmul k1 k2 q qg p li bi = .ok r ∧ Represents r (k1 • gg + k2 • g)) ∧
      (¬ hintExact (max k1 k2) li bi → dsmul k1 k2 q qg p li bi = .error .hintVerify)

/-- O44 (R207, R209, R304). For any modulus and any points, on the curve or not: if smul completes, the
two hint words are the position of the most significant 1 bit of the scalar; if dsmul completes, they are
that of the larger scalar. -/
def Obligations.ScalarHintMustBeExact : Prop :=
  (∀ (k p li bi : Nat) (q r : Point), smul k q p li bi = .ok r → hintExact k li bi) ∧
  ∀ (k1 k2 p li bi : Nat) (q g r : Point), dsmul k1 k2 q g p li bi = .ok r → hintExact (max k1 k2) li bi

/-- O45 (R208, R207, R36, R37, R305). SECP256K1_MUL issued in IDLE: a memory fault comes first; unreduced
coordinates raise PRECOND; k = 0 or the identity ends with (0, 0), no query, no word popped; else the
query MSB_POS_256 of k and 0 is made, with fewer than two words queued the operation waits, latched, and
with two it pops them and ends with smul's point at word 2's address and RET 0, or raises the fault smul
raises. For a point on the curve with the true bit position it ends with the multiple k • P, with a wrong
one it raises HINT_VERIFY. That the PRECOND of unreduced coordinates comes at issue, with no query made
and no word popped whatever the queue holds, is the model's reading (log entry 6). -/
def Obligations.SecpMulOutcome : Prop :=
  ∀ s : State, s.status = statusIdle →
    MemoryFaultsFirst .secp256k1Mul s (memoryFault s formatF10) ∧
    (memoryFault s formatF10 = none →
      let k := intAt s 4 0
      let q := pointAt s 1
      let query := Query.msbPos256 (BitVec.ofNat 256 k) 0
      let p : Pend := .secpMul (BitVec.ofNat 256 k) (BitVec.ofNat 256 q.x) (BitVec.ofNat 256 q.y) (structWord s 2)
      let li := hintWord s.hintq 0
      let bi := hintWord s.hintq 1
      (¬ (q.x < secpP ∧ q.y < secpP) → FaultsWith .secp256k1Mul s 0 [] .precond) ∧
      (q.x < secpP ∧ q.y < secpP →
        ((k = 0 ∨ q = identity) → EndsWith .secp256k1Mul s 0 [] [Store.point (ptr s 2) identity] retZero) ∧
        (0 < k → q ≠ identity →
          p.query = query ∧
          (s.hintq.length < 2 → WaitsWith .secp256k1Mul s p) ∧
          (2 ≤ s.hintq.length →
            (∀ r, smul k q secpP li bi = .ok r →
              EndsWith .secp256k1Mul s 2 [query] [Store.point (ptr s 2) r] retZero) ∧
            (∀ c, smul k q secpP li bi = .error c → FaultsWith .secp256k1Mul s 2 [query] c) ∧
            ∀ [Fact secpP.Prime] (g : (shortCurve secpP secpB).Point), Represents q g →
              (hintExact k li bi → ∃ r, Represents r (k • g) ∧
                EndsWith .secp256k1Mul s 2 [query] [Store.point (ptr s 2) r] retZero) ∧
              (¬ hintExact k li bi → FaultsWith .secp256k1Mul s 2 [query] .hintVerify)))))

/-- O46 (R210, R209, R36, R37, R305). SECP256K1_DMUL_G issued in IDLE: a memory fault comes first;
unreduced coordinates raise PRECOND; two zero scalars end with (0, 0), no query; else the query
MSB_POS_256 of k1 and k2 is made, with fewer than two words queued it waits, latched, and with two it pops
them and ends with dsmul's point at word 3's address and RET 0, or raises the fault dsmul raises. A point
with the abscissa of G whose ordinate is neither G's nor its opposite has no table entry G + P: then it
raises PRECOND whatever the two words are (R305 items 5 and 7, log entry 18). For a valid point with the
true bit position it ends with k1 • G + k2 • P, with a wrong one it raises HINT_VERIFY. That the PRECOND
of unreduced coordinates comes at issue, with no query made and no word popped whatever the queue holds,
is the model's reading (log entry 6). -/
def Obligations.SecpDmulGOutcome : Prop :=
  ∀ s : State, s.status = statusIdle →
    MemoryFaultsFirst .secp256k1DmulG s (memoryFault s formatF11) ∧
    (memoryFault s formatF11 = none →
      let k1 := intAt s 4 0
      let k2 := intAt s 4 1
      let q := pointAt s 2
      let query := Query.msbPos256 (BitVec.ofNat 256 k1) (BitVec.ofNat 256 k2)
      let p : Pend := .secpDmulG (BitVec.ofNat 256 k1) (BitVec.ofNat 256 k2) (BitVec.ofNat 256 q.x)
        (BitVec.ofNat 256 q.y) (structWord s 3)
      let li := hintWord s.hintq 0
      let bi := hintWord s.hintq 1
      (¬ (q.x < secpP ∧ q.y < secpP) → FaultsWith .secp256k1DmulG s 0 [] .precond) ∧
      (q.x < secpP ∧ q.y < secpP →
        (k1 = 0 → k2 = 0 → EndsWith .secp256k1DmulG s 0 [] [Store.point (ptr s 3) identity] retZero) ∧
        (0 < max k1 k2 →
          p.query = query ∧
          (s.hintq.length < 2 → WaitsWith .secp256k1DmulG s p) ∧
          (2 ≤ s.hintq.length →
            (∀ r, dsmul k1 k2 q ⟨secpGx, secpGy⟩ secpP li bi = .ok r →
              EndsWith .secp256k1DmulG s 2 [query] [Store.point (ptr s 3) r] retZero) ∧
            (∀ c, dsmul k1 k2 q ⟨secpGx, secpGy⟩ secpP li bi = .error c →
              FaultsWith .secp256k1DmulG s 2 [query] c) ∧
            (q.x = secpGx → q.y ≠ secpGy → (secpGy + q.y) % secpP ≠ 0 →
              FaultsWith .secp256k1DmulG s 2 [query] .precond) ∧
            ∀ [Fact secpP.Prime] (g gg : (shortCurve secpP secpB).Point), Represents q g →
              Represents ⟨secpGx, secpGy⟩ gg →
              (hintExact (max k1 k2) li bi → ∃ r, Represents r (k1 • gg + k2 • g) ∧
                EndsWith .secp256k1DmulG s 2 [query] [Store.point (ptr s 3) r] retZero) ∧
              (¬ hintExact (max k1 k2) li bi → FaultsWith .secp256k1DmulG s 2 [query] .hintVerify)))))

/-- O47 (R236). BN254_ECMUL issued in IDLE: a memory fault comes first; x not below BN_P ends with code 1,
else y not below BN_P with code 2, else a point neither (0, 0) nor on y² = x³ + 3 with code 5, each with
(0, 0) written; k = 0 or the identity ends with (0, 0) and 0; none of these makes a query or pops. Else
the query MSB_POS_256 of k and 0 is made; with fewer than two words queued it waits, latched; with two it
pops them, and ends with k • P and RET 0 for the true bit position and raises HINT_VERIFY for any other. -/
def Obligations.EcmulOutcome : Prop :=
  ∀ s : State, s.status = statusIdle →
    MemoryFaultsFirst .bn254Ecmul s (memoryFault s formatF10) ∧
    (memoryFault s formatF10 = none →
      let k := intAt s 4 0
      let q := pointAt s 1
      let query := Query.msbPos256 (BitVec.ofNat 256 k) 0
      let p : Pend := .bnEcmul (BitVec.ofNat 256 k) (BitVec.ofNat 256 q.x) (BitVec.ofNat 256 q.y) (structWord s 2)
      let li := hintWord s.hintq 0
      let bi := hintWord s.hintq 1
      let code := fun c => EndsWith .bn254Ecmul s 0 [] [Store.point (ptr s 2) identity] c
      (bnP ≤ q.x → code 1) ∧
      (q.x < bnP → bnP ≤ q.y → code 2) ∧
      (q.x < bnP → q.y < bnP → q ≠ identity → ¬ solvesCurve q bnP 3 → code 5) ∧
      (q.x < bnP → q.y < bnP → (q = identity ∨ solvesCurve q bnP 3) →
        ((k = 0 ∨ q = identity) → code 0) ∧
        (0 < k → q ≠ identity →
          p.query = query ∧
          (s.hintq.length < 2 → WaitsWith .bn254Ecmul s p) ∧
          (2 ≤ s.hintq.length →
            (¬ hintExact k li bi → FaultsWith .bn254Ecmul s 2 [query] .hintVerify) ∧
            (hintExact k li bi → ∃ r, smul k q bnP li bi = .ok r ∧
              EndsWith .bn254Ecmul s 2 [query] [Store.point (ptr s 2) r] retZero ∧
              ∀ [Fact bnP.Prime] (g : (shortCurve bnP bnB).Point), Represents q g → Represents r (k • g))))))

/-- O48 (R235). BN254_ECADD issued in IDLE: a memory fault comes first, and there is no other fault. A
coordinate not below BN_P ends with code 1, 2, 3 or 4 in that order, then a point neither (0, 0) nor on y²
= x³ + 3 with code 5 or 6, each with (0, 0) written; else it ends with RET 0 and the pair that complete
addition gives, which stands for the sum of the two points in the curve's group, at word 2's address; all
else unchanged. -/
def Obligations.EcaddOutcome : Prop :=
  ∀ s : State, s.status = statusIdle →
    MemoryFaultsFirst .bn254Ecadd s (memoryFault s formatF12) ∧
    (memoryFault s formatF12 = none →
      let q1 := pointAt s 0
      let q2 := pointAt s 1
      let code := fun c => EndsWith .bn254Ecadd s 0 [] [Store.point (ptr s 2) identity] c
      let valid := fun q : Point => q = identity ∨ solvesCurve q bnP 3
      (bnP ≤ q1.x → code 1) ∧
      (q1.x < bnP → bnP ≤ q1.y → code 2) ∧
      (q1.x < bnP → q1.y < bnP → bnP ≤ q2.x → code 3) ∧
      (q1.x < bnP → q1.y < bnP → q2.x < bnP → bnP ≤ q2.y → code 4) ∧
      (q1.x < bnP → q1.y < bnP → q2.x < bnP → q2.y < bnP →
        (¬ valid q1 → code 5) ∧
        (valid q1 → ¬ valid q2 → code 6) ∧
        (valid q1 → valid q2 → ∃ r, cadd q1 q2 bnP = .ok r ∧
          EndsWith .bn254Ecadd s 0 [] [Store.point (ptr s 2) r] retZero ∧
          ∀ [Fact bnP.Prime] (g1 g2 : (shortCurve bnP bnB).Point), Represents q1 g1 → Represents q2 g2 →
            Represents r (g1 + g2))))

/-- O49 (R261, R262, R263). The three complex operations issued in IDLE: a memory fault comes first; a
component not below BN_P raises PRECOND; else they end, over the first operand with RET 0 and all else
unchanged, with the componentwise sum, the componentwise difference f1 - f2, and the product (x1 x2 - y1
y2) + (x1 y2 + y1 x2) i, each as least non-negative residues modulo BN_P. -/
def Obligations.ComplexOutcome : Prop :=
  ∀ s : State, s.status = statusIdle →
    Fp2Outcome .bn254ComplexAdd (fun f g => (f.re + g.re) % bnP) (fun f g => (f.im + g.im) % bnP) s ∧
    Fp2Outcome .bn254ComplexSub (fun f g => (((f.re : Int) - g.re) % bnP).toNat)
      (fun f g => (((f.im : Int) - g.im) % bnP).toNat) s ∧
    Fp2Outcome .bn254ComplexMul (fun f g => (((f.re : Int) * g.re - f.im * g.im) % bnP).toNat)
      (fun f g => (f.re * g.im + f.im * g.re) % bnP) s

/-- O50 (R260). For reduced a and b: f2add, f2sub, f2neg, f2mul, f2sqr, f2conj and f2xi (times 9 + i) are
reduced and are, component by component in the integers modulo BN_P, the sum, difference, negation,
product with i² = -1, square, conjugate and multiple by 9 + i; for a not 0, a0² + a1² is not 0 and a times
f2inv(a) is 1. -/
def Obligations.Fp2InverseIsDefined : Prop :=
  ∀ a b : Fp2, f2Reduced a = true → f2Reduced b = true →
    (∀ c ∈ [f2add a b, f2sub a b, f2neg a, f2mul a b, f2sqr a, f2conj a, f2xi a, f2inv a], f2Reduced c = true) ∧
    (((f2add a b).re : ZMod bnP) = a.re + b.re ∧ ((f2add a b).im : ZMod bnP) = a.im + b.im) ∧
    (((f2sub a b).re : ZMod bnP) = a.re - b.re ∧ ((f2sub a b).im : ZMod bnP) = a.im - b.im) ∧
    (((f2neg a).re : ZMod bnP) = -a.re ∧ ((f2neg a).im : ZMod bnP) = -a.im) ∧
    (((f2mul a b).re : ZMod bnP) = a.re * b.re - a.im * b.im ∧
      ((f2mul a b).im : ZMod bnP) = a.re * b.im + a.im * b.re) ∧
    f2sqr a = f2mul a a ∧
    (((f2conj a).re : ZMod bnP) = a.re ∧ ((f2conj a).im : ZMod bnP) = -a.im) ∧
    f2xi a = f2mul a ⟨9, 1⟩ ∧
    (a ≠ f2zero → (a.re ^ 2 + a.im ^ 2) % bnP ≠ 0 ∧ f2mul a (f2inv a) = f2one)

/-- O51 (R273, R274, R305, R301, R271, R272, R275, R267). BN254_ECPAIRING issued in IDLE: the memory
faults and the count bound come first; if validation finds an error code it ends with the word 0 and that
code in RET; if validation passes and the product check answers a truth value it ends with the word 1 or 0
and RET 0; all else unchanged. With no pairs, or with every pair valid and one side of each the identity,
it ends with 1. Valid pairs (P, -Q), (P, Q), or (-P, Q), (P, Q), end with 1, for all points whose Miller
loop meets no zero denominator (log entry 12): the pairing inverts with a negated side. For a valid P not
the identity and a reduced Q the Miller value is not 0, and the pairing is its power (p^12 - 1)/r, of an
order that divides r. For the generators: the pair is valid, its single pair ends with 0, and e(2P, 12Q) =
e(P, Q)^24 = e(12P, 2Q), as product checks with (-24P, Q). (Bilinearity for all points is not stated.) -/
def Obligations.EcpairingOutcome : Prop :=
  (∀ s : State, s.status = statusIdle →
    MemoryFaultsFirst .bn254Ecpairing s (pairingFault s) ∧
    (pairingFault s = none →
      let ks := rdPairs s.mem (ptr s 0) (ptr s 1) (structWord s 2).toNat
      let ends := fun (b : Bool) (c : Word) =>
        EndsWith .bn254Ecpairing s 0 [] [⟨ptr s 3, [if b then 1 else 0]⟩] c
      (∀ c, validatePairs ks = .ok (some c) → ends false c.code) ∧
      (∀ b, validatePairs ks = .ok none → pairingCheck ks = .ok b → ends b 0) ∧
      ((structWord s 2).toNat = 0 → ends true 0) ∧
      ((∀ k ∈ ks, validatePair k = .ok none ∧ (isId k.g1 = true ∨ isId2 k.g2 = true)) → ends true 0) ∧
      (∀ (pt : Point) (q : G2) (f : Fp12),
        (ks = [⟨pt, g2Neg q⟩, ⟨pt, q⟩] ∨ ks = [⟨⟨pt.x, negm pt.y bnP⟩, q⟩, ⟨pt, q⟩]) →
        validatePairs ks = .ok none → miller pt q = .ok f → ends true 0) ∧
      (ks = [⟨⟨1, 2⟩, bnG2⟩] → ends false 0))) ∧
  (∀ (pt : Point) (q : G2) (f : Fp12), validPoint pt bnP bnB = true → pt ≠ identity → g2Reduced q = true →
    miller pt q = .ok f → f ≠ ⟨f6zero, f6zero⟩ ∧
      ∃ e, pairing pt q = .ok e ∧ e = f12pow f ((bnP ^ 12 - 1) / bnR) ∧ f12pow e bnR = f12one) ∧
  validatePair ⟨⟨1, 2⟩, bnG2⟩ = .ok none ∧
  ∃ p2 p12 p24 q2 q12, smul 2 ⟨1, 2⟩ bnP 0 1 = .ok p2 ∧ smul 12 ⟨1, 2⟩ bnP 0 3 = .ok p12 ∧
    smul 24 ⟨1, 2⟩ bnP 0 4 = .ok p24 ∧ g2Mul 2 bnG2 = .ok q2 ∧ g2Mul 12 bnG2 = .ok q12 ∧
    pairingCheck [⟨p2, q12⟩, ⟨⟨p24.x, negm p24.y bnP⟩, bnG2⟩] = .ok true ∧
    pairingCheck [⟨p12, q2⟩, ⟨⟨p24.x, negm p24.y bnP⟩, bnG2⟩] = .ok true

/-- O52 (R274, R266). Validation of one pair always answers: 1 for a G1 abscissa not below BN_P, else 2
for its ordinate, else 5 for a G1 point neither (0, 0) nor on the curve, else 7 for a G2 component not
below BN_P, else, for a G2 point that is not the identity, 8 if it is not on the twist and 9 if r times it
is not the identity; else no error. Over a list, the pairs are examined in order and the first with an
error decides. Over every field with p = 0 and i² = -1: a reduced point that is the identity or on the
twist is one that stands for a point of Mathlib's group of y² = x³ + 3/(9 + i); complete addition on the
twist gives the sum, g2_mul the multiple, and code 9 is answered exactly when r times the point is not 0. -/
def Obligations.PairValidation : Prop :=
  (∀ k : Pair,
    let g1Bad := k.g1 ≠ identity ∧ ¬ solvesCurve k.g1 bnP 3
    let g2Big := bnP ≤ k.g2.x.re ∨ bnP ≤ k.g2.x.im ∨ bnP ≤ k.g2.y.re ∨ bnP ≤ k.g2.y.im
    let g2Off := k.g2 ≠ g2Identity ∧ f2sqr k.g2.y ≠ f2add (f2mul k.g2.x (f2sqr k.g2.x)) twistB
    (bnP ≤ k.g1.x → validatePair k = .ok (some .p1xRange)) ∧
    (k.g1.x < bnP → bnP ≤ k.g1.y → validatePair k = .ok (some .p1yRange)) ∧
    (k.g1.x < bnP → k.g1.y < bnP →
      (g1Bad → validatePair k = .ok (some .p1OffCurve)) ∧
      (¬ g1Bad → g2Big → validatePair k = .ok (some .g2Range)) ∧
      (¬ g1Bad → ¬ g2Big → g2Off → validatePair k = .ok (some .g2OffTwist)) ∧
      (¬ g1Bad → ¬ g2Big → k.g2 = g2Identity → validatePair k = .ok none) ∧
      (¬ g1Bad → ¬ g2Big → ¬ g2Off → k.g2 ≠ g2Identity → ∃ o, g2Mul bnR k.g2 = .ok o ∧
        validatePair k = .ok (if o = g2Identity then none else some .g2OffGroup)))) ∧
  (ErrorCode.p1xRange.code = 1 ∧ ErrorCode.p1yRange.code = 2 ∧ ErrorCode.p1OffCurve.code = 5 ∧
    ErrorCode.g2Range.code = 7 ∧ ErrorCode.g2OffTwist.code = 8 ∧ ErrorCode.g2OffGroup.code = 9) ∧
  (∀ (pre post : List Pair) (k : Pair) (c : ErrorCode), (∀ j ∈ pre, validatePair j = .ok none) →
    validatePair k = .ok (some c) → validatePairs (pre ++ k :: post) = .ok (some c)) ∧
  (∀ ks : List Pair, (∀ j ∈ ks, validatePair j = .ok none) → validatePairs ks = .ok none) ∧
  ∀ (K : Type) [Field K] [DecidableEq K] (i : K), (bnP : K) = 0 → i ^ 2 = -1 →
    fp2In i twistB * (9 + i) = 3 ∧
    (∀ q : G2, (g2Reduced q = true ∧ (q = g2Identity ∨ onTwist q = true)) ↔
      ∃ g : (twistCurve i).Point, RepresentsG2 q g) ∧
    (∀ (q1 q2 : G2) (g1 g2 : (twistCurve i).Point), RepresentsG2 q1 g1 → RepresentsG2 q2 g2 →
      ∃ r, g2Cadd q1 q2 = .ok r ∧ RepresentsG2 r (g1 + g2)) ∧
    ∀ (q : G2) (g : (twistCurve i).Point), RepresentsG2 q g →
      RepresentsG2 (g2Neg q) (-g) ∧
      (∀ k : Nat, ∃ r, g2Mul k q = .ok r ∧ RepresentsG2 r (k • g)) ∧
      ∀ pt : Point, validPoint pt bnP bnB = true →
        (validatePair ⟨pt, q⟩ = .ok none ∨ validatePair ⟨pt, q⟩ = .ok (some .g2OffGroup)) ∧
        (validatePair ⟨pt, q⟩ = .ok none ↔ bnR • g = 0)

/-- O53 (R276, R273, R268, R269, R270, R271). If the product check answers a truth value for a list of
pairs, it answers the same for every permutation of the list, and for the list with a pair added anywhere
one of whose points is the identity: the product in Fp12 does not depend on the order, and identities are
skipped. For pairs without an identity the check is whether the product of their Miller values to the
power (p^12 - 1)/r is 1. The Miller loop is the one R270 writes over the bits 63 to 0 of 6u + 2. Its line
through reduced T and Q, for a tangent with T.y not 0 or abscissas that differ, has a slope lam with lam
(xQ - xT) = yQ - yT or lam 2 yT = 3 xT²; its sum is T + Q of the complete addition; its value is yP - lam
xP w + (lam xT - yT) v w in every ring that holds the tower. On x w² and y w³ the two maps of R268 are the
p-th power and, with the sign of the ordinate changed, the p²-th power. -/
def Obligations.PairOrderIrrelevant : Prop :=
  (∀ (ks ks' : List Pair) (b : Bool), ks.Perm ks' → pairingCheck ks = .ok b → pairingCheck ks' = .ok b) ∧
  (∀ (pre post : List Pair) (k : Pair), (isId k.g1 = true ∨ isId2 k.g2 = true) →
    pairingCheck (pre ++ k :: post) = pairingCheck (pre ++ post)) ∧
  (∀ (ks : List Pair) (fs : List Fp12), (∀ k ∈ ks, isId k.g1 = false ∧ isId2 k.g2 = false) →
    List.Forall₂ (fun k f => miller k.g1 k.g2 = .ok f) ks fs →
    pairingCheck ks = .ok (decide (f12pow (f12Product fs) ((bnP ^ 12 - 1) / bnR) = f12one))) ∧
  (∀ (pt : Point) (q : G2), miller pt q = millerByBits pt q) ∧
  (∀ (t q : G2) (pt : Point), g2Reduced t = true → g2Reduced q = true →
    (if t = q then t.y ≠ f2zero else t.x ≠ q.x) →
    ∃ (lam : Fp2) (l : Fp12) (r : G2), line t q pt = .ok (l, r) ∧ f2Reduced lam = true ∧ g2Reduced r = true ∧
      (t = q → f2mul lam (f2mul ⟨2, 0⟩ t.y) = f2mul ⟨3, 0⟩ (f2sqr t.x)) ∧
      (t ≠ q → f2mul lam (f2sub q.x t.x) = f2sub q.y t.y) ∧
      r.x = f2sub (f2sub (f2sqr lam) t.x) q.x ∧ r.y = f2sub (f2mul lam (f2sub t.x r.x)) t.y ∧
      (t ≠ g2Identity → q ≠ g2Identity → g2Cadd t q = .ok r) ∧
      ∀ (A : Type) [CommRing A] (i v w : A), TowerRoots i v w → fp12In i v w l =
        pt.y - fp2In i lam * pt.x * w + (fp2In i lam * fp2In i t.x - fp2In i t.y) * v * w) ∧
  ∀ (A : Type) [CommRing A] (i v w : A), TowerRoots i v w → ∀ q : G2, g2Reduced q = true →
    (fp2In i q.x * w ^ 2) ^ bnP = fp2In i (g2Frob q).x * w ^ 2 ∧
    (fp2In i q.y * w ^ 3) ^ bnP = fp2In i (g2Frob q).y * w ^ 3 ∧
    (fp2In i q.x * w ^ 2) ^ bnP ^ 2 = fp2In i (g2NegFrob2 q).x * w ^ 2 ∧
    (fp2In i q.y * w ^ 3) ^ bnP ^ 2 = -(fp2In i (g2NegFrob2 q).y * w ^ 3)

/-- O54 (R304, R352, R150, R207, R209). Take any operation and any state in IDLE but for its hint queue,
and any two hint queues. If with both the operation ends (STATUS IDLE), it leaves the same memory and the
same RET. The same holds of the completion of any waiting operation, whatever words the host pushes: an
adversarial host can only cause a verified failure or a wait. -/
def Obligations.HintIndependence : Prop :=
  (∀ (i : Instr) (s : State) (hq hq' : List Word) (t t' : State), s.status = statusIdle →
    exec i { s with hintq := hq } = .next t → exec i { s with hintq := hq' } = .next t' →
    t.status = statusIdle → t'.status = statusIdle → t.mem = t'.mem ∧ t.ret = t'.ret) ∧
  ∀ (p : Pend) (s : State) (hq hq' : List Word),
    (complete p { s with hintq := hq }).status = statusIdle →
    (complete p { s with hintq := hq' }).status = statusIdle →
    (complete p { s with hintq := hq }).mem = (complete p { s with hintq := hq' }).mem ∧
      (complete p { s with hintq := hq }).ret = (complete p { s with hintq := hq' }).ret

/-- O55 (R21, R64, R31). Two idle states with the same memory, ARG, platform and hint queue, however
different their OP, RET, CAUSE, query history and host script, give the same memory, STATUS, hint queue
and PEND after any operation, the same RET if it ends and the same CAUSE if it faults. -/
def Obligations.NothingElseSurvives : Prop :=
  ∀ (i : Instr) (s s' t t' : State), s.status = statusIdle → s'.status = statusIdle → s.mem = s'.mem →
    s.arg = s'.arg → s.plat = s'.plat → s.hintq = s'.hintq → exec i s = .next t → exec i s' = .next t' →
    t.op = t'.op ∧ t.mem = t'.mem ∧ t.status = t'.status ∧ t.hintq = t'.hintq ∧ t.pend = t'.pend ∧
      (t.status = statusIdle → t.ret = t'.ret) ∧ (t.status = statusFault → t.cause = t'.cause)

/-- O56 (R37, R63, R348, R32, R20). In WAIT_HINT with enough words queued, the step pops exactly the
oldest words it needs and ends with the outputs and RET of its rule (every byte outside them unchanged,
STATUS IDLE, PEND discarded), or faults as its rule says (memory and RET unchanged); what it writes
depends on the latched operands and the words, not on what the host has stored in memory since the issue.
R37 and R20 let the operation complete once the words are there; that the completion is the very next
step, before the host's next action, is the model's reading (log entry 4). -/
def Obligations.WaitingCompletes : Prop :=
  ∀ (s : State) (p : Pend), s.status = statusWaitHint → s.pend = some p → p.need ≤ s.hintq.length →
    ∃ t, step s = .next t ∧ t.hintq = s.hintq.drop p.need ∧ t.pend = none ∧ t.op = s.op ∧ t.arg = s.arg ∧
      t.host = s.host ∧ t.queries = s.queries ∧
      (∀ ss ret, p.result (s.hintq.take p.need) = .ok (ss, ret) →
        t.ret = ret ∧ t.status = statusIdle ∧ t.cause = s.cause ∧ t.mem = applyStores s.mem ss ∧
        ∀ x, ¬ storesTouch ss x → t.mem.read x = s.mem.read x) ∧
      (∀ c, p.result (s.hintq.take p.need) = .error c →
        t.ret = s.ret ∧ t.status = statusFault ∧ t.cause = c.code ∧ t.mem = s.mem)

/-- O57 (R22, R23, R32, R37, R63, R315). In WAIT_HINT with too few words queued, every step whose host
action is not a reset leaves STATUS, PEND, OP, ARG, RET, CAUSE and the query history as they are; a push
appends its word at the tail of HINTQ and no other action changes HINTQ; only a host store changes memory. -/
def Obligations.WaitingPersists : Prop :=
  ∀ (s t : State) (p : Pend), s.status = statusWaitHint → s.pend = some p → s.hintq.length < p.need →
    (∀ act ∈ s.host.take 1, act ≠ .reset) → step s = .next t →
    t.status = statusWaitHint ∧ t.pend = some p ∧ t.op = s.op ∧ t.arg = s.arg ∧ t.ret = s.ret ∧
      t.cause = s.cause ∧ t.queries = s.queries ∧ (∀ w, s.host.head? = some (.pushHint w) → t.hintq = s.hintq ++ [w]) ∧
      ((∀ w, s.host.head? ≠ some (.pushHint w)) → t.hintq = s.hintq) ∧
      ((∀ a v, s.host.head? ≠ some (.store a v)) → t.mem = s.mem)

/-- O58 (R37, R40, R315, R20). In WAIT_HINT, with an unbounded hint queue, if the host's next actions push
exactly the words that are lacking, then after those pushes and one more step the operation has completed
on the queue with those words: STATUS is IDLE or FAULT and nothing is pending. That the completion comes
ahead of the rest of the host's script is the model's reading (log entry 4). -/
def Obligations.WaitEndsAfterPushes : Prop :=
  ∀ (s : State) (p : Pend) (ws : List Word) (rest : List HostAction),
    s.status = statusWaitHint → s.pend = some p → s.plat.hintDepth = none →
    s.hintq.length + ws.length = p.need → s.host = ws.map .pushHint ++ rest →
    ∃ t, Host.Core.run Sys2Proof.core (ws.length + 1) s = .next t ∧
      t = complete p { s with hintq := s.hintq ++ ws, host := rest } ∧
      (t.status = statusIdle ∨ t.status = statusFault) ∧ t.pend = none

/-- O59 (R40, R28, R36, R37, R20). If an operation issued in IDLE comes to wait, then pushing the words it
lacks after the issue and letting it complete leads to the same state, field by field, as issuing it with
those words already queued: the wait is not observable in the result. That the completion comes ahead of
the rest of the host's script is the model's reading (log entry 4). -/
def Obligations.PushBeforeOrAfter : Prop :=
  ∀ (i : Instr) (s u : State) (p : Pend) (ws : List Word) (rest : List HostAction),
    s.status = statusIdle → s.plat.hintDepth = none → exec i s = .next u → u.status = statusWaitHint →
    u.pend = some p → s.hintq.length + ws.length = p.need →
    ∃ t, exec i { s with hintq := s.hintq ++ ws, host := rest } = .next t ∧
      Host.Core.run Sys2Proof.core (ws.length + 1) { u with host := ws.map .pushHint ++ rest } = .next t

/-- O60 (R264, R265, R271, R260). In every commutative ring with p = 0, i² = -1, v³ = 9 + i and w² = v,
the operations on reduced triples and pairs of triples are reduced and mean what their names say: sum,
difference, negation, product, product with v; f12one means 1, f12mul and f12sqr the product and the
square, f12conj a - b w, which is the p^6-th power, f12pow the power, and the final exponentiation is
f12pow with (p^12 - 1)/r. A reduced triple or pair not 0 times its f6inv or f12inv is 1. There is a field
with such i, v and w in which reduced pairs of triples that mean the same are the same, so that what holds
of the meanings in it holds of the operations. -/
def Obligations.TowerArithmetic : Prop :=
  (∀ (A : Type) [CommRing A] (i v w : A), TowerRoots i v w →
    (∀ a b : Fp6, f6Reduced a = true → f6Reduced b = true →
      fp6In i v (f6add a b) = fp6In i v a + fp6In i v b ∧ fp6In i v (f6sub a b) = fp6In i v a - fp6In i v b ∧
      fp6In i v (f6neg a) = -fp6In i v a ∧ fp6In i v (f6mul a b) = fp6In i v a * fp6In i v b ∧
      fp6In i v (f6mulv a) = fp6In i v a * v) ∧
    fp12In i v w f12one = 1 ∧
    ∀ x y : Fp12, f12Reduced x = true → f12Reduced y = true →
      fp12In i v w (f12mul x y) = fp12In i v w x * fp12In i v w y ∧
      fp12In i v w (f12sqr x) = fp12In i v w x ^ 2 ∧
      fp12In i v w (f12conj x) = fp6In i v x.a - fp6In i v x.b * w ∧
      fp12In i v w (f12conj x) = fp12In i v w x ^ bnP ^ 6 ∧
      ∀ e : Nat, fp12In i v w (f12pow x e) = fp12In i v w x ^ e) ∧
  (∀ a b : Fp6, f6Reduced a = true → f6Reduced b = true →
    (∀ c ∈ [f6add a b, f6sub a b, f6neg a, f6mul a b, f6mulv a, f6inv a], f6Reduced c = true) ∧
    (a ≠ f6zero → f6mul a (f6inv a) = f6one)) ∧
  (∀ x y : Fp12, f12Reduced x = true → f12Reduced y = true →
    (∀ z ∈ [f12one, f12mul x y, f12sqr x, f12conj x, f12inv x, finalExp x], f12Reduced z = true) ∧
    (x ≠ ⟨f6zero, f6zero⟩ → f12mul x (f12inv x) = f12one) ∧
    finalExp x = f12pow x ((bnP ^ 12 - 1) / bnR)) ∧
  ∃ (K : Type) (_ : Field K) (i v w : K), TowerRoots i v w ∧
    ∀ x y : Fp12, f12Reduced x = true → f12Reduced y = true → fp12In i v w x = fp12In i v w y → x = y
end

