-- ==== Sys2Proof/Laws/Memory.lean ====
section
/-! SUPPORT. The laws of memory: read after write, the frame of a write, and that every memory operation
keeps the canonical form (spec/20_memory.md R50, R54, R61, R62). -/

namespace Sys2Proof.Machine

/-! ### Bytes -/

theorem Memory.wf_tail {c : Host.Cell} {m : Memory} (h : Memory.wf (c :: m)) : Memory.wf m :=
  ⟨(List.pairwise_cons.1 h.1).2, fun d hd => h.2 d (List.mem_cons_of_mem _ hd)⟩

theorem Memory.read_eq_unlisted {m : Memory} {a : Nat} (h : ∀ c ∈ m, c.1 ≠ a) :
    m.read a = unlistedByte := by
  induction m with
  | nil => rfl
  | cons c rest ih =>
    obtain ⟨k, b⟩ := c
    have hk : k ≠ a := h (k, b) (by simp)
    simp only [Memory.read, if_neg hk]
    exact ih fun d hd => h d (List.mem_cons_of_mem _ hd)

theorem Memory.read_below_head {k a : Nat} {b : Byte} {m : Memory} (h : Memory.wf ((k, b) :: m)) (ha : a < k) :
    Memory.read ((k, b) :: m) a = unlistedByte := by
  apply Memory.read_eq_unlisted
  intro c hc
  rcases List.mem_cons.1 hc with rfl | hc
  · simp; omega
  · have := (List.pairwise_cons.1 h.1).1 c hc
    simp at this; omega

theorem Memory.tail_unlisted {k : Nat} {b : Byte} {m : Memory} (h : Memory.wf ((k, b) :: m)) :
    Memory.read m k = unlistedByte :=
  Memory.read_eq_unlisted fun c hc => by
    have := (List.pairwise_cons.1 h.1).1 c hc
    simp at this; omega

/-- Read after write, at the same address. -/
theorem Memory.read_write_same {m : Memory} (h : m.wf) (a : Nat) (b : Byte) : (m.write a b).read a = b := by
  induction m with
  | nil =>
    by_cases hb : b = unlistedByte
    · simp [Memory.write, hb, Memory.read]
    · simp [Memory.write, hb, Memory.read]
  | cons c rest ih =>
    obtain ⟨k, d⟩ := c
    have ht := Memory.wf_tail h
    simp only [Memory.write]
    by_cases hlt : a < k
    · rw [if_pos hlt]
      by_cases hb : b = unlistedByte
      · rw [if_pos hb, Memory.read_below_head h hlt, hb]
      · rw [if_neg hb]; simp [Memory.read]
    · rw [if_neg hlt]
      by_cases heq : a = k
      · rw [if_pos heq]
        by_cases hb : b = unlistedByte
        · rw [if_pos hb, hb, heq, Memory.tail_unlisted h]
        · rw [if_neg hb]; simp [Memory.read]
      · rw [if_neg heq]
        have : k ≠ a := fun e => heq e.symm
        simp only [Memory.read, if_neg this]
        exact ih ht

/-- A write leaves every other address alone. -/
theorem Memory.read_write_other (m : Memory) {a a' : Nat} (b : Byte) (h : a' ≠ a) :
    (m.write a b).read a' = m.read a' := by
  induction m with
  | nil =>
    by_cases hb : b = unlistedByte
    · simp [Memory.write, hb]
    · simp [Memory.write, hb, Memory.read, h.symm]
  | cons c rest ih =>
    obtain ⟨k, d⟩ := c
    simp only [Memory.write]
    split
    · split
      · rfl
      · simp [Memory.read, h.symm]
    · split
      · rename_i heq
        subst heq
        split
        · simp [Memory.read, h.symm]
        · simp [Memory.read, h.symm]
      · simp only [Memory.read, ih]

theorem Memory.mem_write {m : Memory} {a : Nat} {b : Byte} {c : Host.Cell} (h : c ∈ m.write a b) :
    c ∈ m ∨ (c = (a, b) ∧ b ≠ unlistedByte) := by
  induction m with
  | nil =>
    by_cases hb : b = unlistedByte
    · simp [Memory.write, hb] at h
    · simp [Memory.write, hb] at h
      exact .inr ⟨h, hb⟩
  | cons d rest ih =>
    obtain ⟨k, e⟩ := d
    simp only [Memory.write] at h
    split at h
    · split at h
      · exact .inl h
      · rename_i hb
        rcases List.mem_cons.1 h with h | h
        · exact .inr ⟨h, hb⟩
        · exact .inl h
    · split at h
      · split at h
        · exact .inl (List.mem_cons_of_mem _ h)
        · rename_i hb
          rcases List.mem_cons.1 h with h | h
          · exact .inr ⟨h, hb⟩
          · exact .inl (List.mem_cons_of_mem _ h)
      · rcases List.mem_cons.1 h with h | h
        · exact .inl (by rw [h]; simp)
        · rcases ih h with h | h
          · exact .inl (List.mem_cons_of_mem _ h)
          · exact .inr h

/-- A write keeps the canonical form. -/
theorem Memory.write_wf {m : Memory} (h : m.wf) {a : Nat} (b : Byte) (ha : a < 2 ^ 64) : (m.write a b).wf := by
  refine ⟨?_, fun c hc => ?_⟩
  · induction m with
    | nil =>
      by_cases hb : b = unlistedByte
      · simp [Memory.write, hb]
      · simp [Memory.write, hb]
    | cons d rest ih =>
      obtain ⟨k, e⟩ := d
      have hp := List.pairwise_cons.1 h.1
      simp only [Memory.write]
      split
      · rename_i hlt
        split
        · exact h.1
        · refine List.pairwise_cons.2 ⟨fun c hc => ?_, h.1⟩
          rcases List.mem_cons.1 hc with rfl | hc
          · exact hlt
          · exact Nat.lt_trans hlt (hp.1 c hc)
      · rename_i hge
        split
        · rename_i heq
          split
          · exact hp.2
          · exact List.pairwise_cons.2 ⟨fun c hc => by rw [heq]; exact hp.1 c hc, hp.2⟩
        · rename_i hne
          refine List.pairwise_cons.2 ⟨fun c hc => ?_, ih (Memory.wf_tail h)⟩
          rcases Memory.mem_write hc with hc | ⟨rfl, -⟩
          · exact hp.1 c hc
          · simp; omega
  · rcases Memory.mem_write hc with hc | ⟨rfl, hb⟩
    · exact h.2 c hc
    · exact ⟨ha, hb⟩

/-- Equal reads make canonical memories equal data. -/
theorem Memory.ext_read {m n : Memory} (hm : m.wf) (hn : n.wf) (h : ∀ a, m.read a = n.read a) : m = n := by
  induction m generalizing n with
  | nil =>
    cases n with
    | nil => rfl
    | cons c rest =>
      obtain ⟨k, b⟩ := c
      have h1 := h k
      simp [Memory.read] at h1
      exact absurd h1.symm (hn.2 (k, b) (by simp)).2
  | cons c rest ih =>
    obtain ⟨k, b⟩ := c
    have hb := (hm.2 (k, b) (by simp)).2
    cases n with
    | nil =>
      have h1 := h k
      simp [Memory.read] at h1
      exact absurd h1 hb
    | cons d rest' =>
      obtain ⟨k', b'⟩ := d
      have hb' := (hn.2 (k', b') (by simp)).2
      have hk : k = k' := by
        rcases Nat.lt_trichotomy k k' with hlt | heq | hlt
        · have h1 := h k
          rw [Memory.read_below_head hn hlt] at h1
          simp [Memory.read] at h1
          exact absurd h1 hb
        · exact heq
        · have h1 := h k'
          rw [Memory.read_below_head hm hlt] at h1
          simp [Memory.read] at h1
          exact absurd h1.symm hb'
      subst hk
      have hbb : b = b' := by
        have h1 := h k
        simpa [Memory.read] using h1
      subst hbb
      have hr : rest = rest' := by
        refine ih (Memory.wf_tail hm) (Memory.wf_tail hn) fun a => ?_
        by_cases hka : k = a
        · subst hka
          rw [Memory.tail_unlisted hm, Memory.tail_unlisted hn]
        · have h1 := h a
          simpa [Memory.read, hka] using h1
      rw [hr]

/-! ### Runs of bytes -/

theorem Memory.readLE_congr {m n : Memory} (k a : Nat) (h : ∀ x, a ≤ x → x < a + k → m.read x = n.read x) :
    m.readLE a k = n.readLE a k := by
  induction k generalizing a with
  | zero => rfl
  | succ k ih =>
    simp only [Memory.readLE]
    rw [h a (by omega) (by omega), ih (a + 1) fun x h1 h2 => h x (by omega) (by omega)]

theorem Memory.readLE_lt (m : Memory) (k a : Nat) : m.readLE a k < 2 ^ (8 * k) := by
  induction k generalizing a with
  | zero => simp [Memory.readLE]
  | succ k ih =>
    have h1 := ih (a + 1)
    have h2 := (m.read a).isLt
    have h3 : 2 ^ (8 * (k + 1)) = 2 ^ 8 * 2 ^ (8 * k) := by rw [← pow_add]; ring_nf
    simp only [Memory.readLE]
    rw [h3]
    omega

theorem Memory.writeLE_read_other (m : Memory) (k a v x : Nat) (h : ¬ (a ≤ x ∧ x < a + k)) :
    (m.writeLE a k v).read x = m.read x := by
  induction k generalizing m a v with
  | zero => rfl
  | succ k ih =>
    simp only [Memory.writeLE]
    rw [ih _ (a + 1) _ (by omega), Memory.read_write_other _ _ (by omega)]

theorem Memory.writeLE_wf {m : Memory} (h : m.wf) (k a v : Nat) (ha : a + k ≤ 2 ^ 64) : (m.writeLE a k v).wf := by
  induction k generalizing m a v with
  | zero => exact h
  | succ k ih => exact ih (Memory.write_wf h _ (by omega)) (a + 1) _ (by omega)

theorem Memory.readLE_writeLE {m : Memory} (h : m.wf) (k a v : Nat) (ha : a + k ≤ 2 ^ 64) :
    (m.writeLE a k v).readLE a k = v % 2 ^ (8 * k) := by
  induction k generalizing m a v with
  | zero => simp [Memory.readLE, Nat.mod_one]
  | succ k ih =>
    have hw := Memory.write_wf h (BitVec.ofNat 8 v) (a := a) (by omega)
    have h3 : 2 ^ (8 * (k + 1)) = 2 ^ 8 * 2 ^ (8 * k) := by rw [← pow_add]; ring_nf
    simp only [Memory.readLE, Memory.writeLE]
    rw [ih hw (a + 1) _ (by omega), Memory.writeLE_read_other _ _ _ _ _ (by omega),
      Memory.read_write_same h, h3, Nat.mod_mul, BitVec.toNat_ofNat]

/-! ### Words -/

theorem rdW_congr {m n : Memory} (a : Nat) (h : ∀ x, a ≤ x → x < a + 8 → m.read x = n.read x) :
    rdW m a = rdW n a := by
  rw [rdW, rdW, Memory.readLE_congr 8 a h]

theorem wrW_read_other (m : Memory) (a x : Nat) (v : Word) (h : ¬ (a ≤ x ∧ x < a + 8)) :
    (wrW m a v).read x = m.read x :=
  Memory.writeLE_read_other m 8 a v.toNat x h

theorem wrW_wf {m : Memory} (h : m.wf) (a : Nat) (v : Word) (ha : a + 8 ≤ 2 ^ 64) : (wrW m a v).wf :=
  Memory.writeLE_wf h 8 a v.toNat ha

theorem rdW_wrW {m : Memory} (h : m.wf) (a : Nat) (v : Word) (ha : a + 8 ≤ 2 ^ 64) : rdW (wrW m a v) a = v := by
  rw [rdW, wrW, Memory.readLE_writeLE h 8 a v.toNat ha]
  apply BitVec.eq_of_toNat_eq
  have := v.isLt
  simp
  omega

@[simp] theorem rdWords_length (m : Memory) (a l : Nat) : (rdWords m a l).length = l := by
  induction l generalizing a with
  | zero => rfl
  | succ l ih => simp [rdWords, ih]

theorem rdWords_congr {m n : Memory} (l a : Nat) (h : ∀ x, a ≤ x → x < a + 8 * l → m.read x = n.read x) :
    rdWords m a l = rdWords n a l := by
  induction l generalizing a with
  | zero => rfl
  | succ l ih =>
    simp only [rdWords]
    rw [rdW_congr a fun x h1 h2 => h x h1 (by omega), ih (a + 8) fun x h1 h2 => h x (by omega) (by omega)]

theorem wrWords_read_other (m : Memory) (ws : List Word) (a x : Nat)
    (h : ¬ (a ≤ x ∧ x < a + 8 * ws.length)) : (wrWords m a ws).read x = m.read x := by
  induction ws generalizing m a with
  | nil => rfl
  | cons w rest ih =>
    simp only [List.length_cons] at h
    simp only [wrWords]
    rw [ih _ (a + 8) (by omega), wrW_read_other _ _ _ _ (by omega)]

theorem wrWords_wf {m : Memory} (h : m.wf) (ws : List Word) (a : Nat) (ha : a + 8 * ws.length ≤ 2 ^ 64) :
    (wrWords m a ws).wf := by
  induction ws generalizing m a with
  | nil => exact h
  | cons w rest ih =>
    simp only [List.length_cons] at ha
    exact ih (wrW_wf h a w (by omega)) (a + 8) (by omega)

theorem rdWords_wrWords {m : Memory} (h : m.wf) (ws : List Word) (a : Nat) (ha : a + 8 * ws.length ≤ 2 ^ 64) :
    rdWords (wrWords m a ws) a ws.length = ws := by
  induction ws generalizing m a with
  | nil => rfl
  | cons w rest ih =>
    simp only [List.length_cons] at ha
    have hw := wrW_wf h a w (by omega)
    simp only [List.length_cons, rdWords, wrWords]
    rw [ih hw (a + 8) (by omega)]
    congr 1
    rw [rdW_congr a (n := wrW m a w) fun x h1 h2 => wrWords_read_other _ _ _ _ (by omega),
      rdW_wrW h a w (by omega)]

/-! ### Output buffers (spec/20_memory.md R61, R62) -/

theorem storesTouch_cons {st : Store} {ss : List Store} {a : Nat} :
    storesTouch (st :: ss) a ↔ (st.addr ≤ a ∧ a < st.addr + 8 * st.words.length) ∨ storesTouch ss a := by
  simp [storesTouch]

@[simp] theorem storesTouch_nil (a : Nat) : ¬ storesTouch [] a := by simp [storesTouch]

theorem applyStores_append (m : Memory) (ss ss' : List Store) :
    applyStores m (ss ++ ss') = applyStores (applyStores m ss) ss' := by
  induction ss generalizing m with
  | nil => rfl
  | cons st rest ih => exact ih _

/-- The frame of a list of output buffers: every byte outside them is unchanged. -/
theorem applyStores_read_other (m : Memory) (ss : List Store) {a : Nat} (h : ¬ storesTouch ss a) :
    (applyStores m ss).read a = m.read a := by
  induction ss generalizing m with
  | nil => rfl
  | cons st rest ih =>
    rw [storesTouch_cons, not_or] at h
    simp only [applyStores]
    rw [ih _ h.2, wrWords_read_other _ _ _ _ h.1]

/-- Whether every store of a list stays inside the address space. -/
def storesInSpace (ss : List Store) : Prop := ∀ st ∈ ss, st.addr + 8 * st.words.length ≤ 2 ^ 64

theorem applyStores_wf {m : Memory} (h : m.wf) (ss : List Store) (hs : storesInSpace ss) :
    (applyStores m ss).wf := by
  induction ss generalizing m with
  | nil => exact h
  | cons st rest ih =>
    exact ih (wrWords_wf h _ _ (hs st (by simp))) fun x hx => hs x (List.mem_cons_of_mem _ hx)

/-- An output buffer holds its words unless a later one overlaps it. -/
theorem applyStores_holds {m : Memory} (h : m.wf) (before after : List Store) (st : Store)
    (hs : storesInSpace (before ++ st :: after))
    (hlate : ∀ a, st.addr ≤ a → a < st.addr + 8 * st.words.length → ¬ storesTouch after a) :
    rdWords (applyStores m (before ++ st :: after)) st.addr st.words.length = st.words := by
  have hb : storesInSpace before := fun x hx => hs x (by simp [hx])
  have hst := hs st (by simp)
  rw [applyStores_append]
  simp only [applyStores]
  rw [rdWords_congr _ _ fun x h1 h2 => applyStores_read_other _ after (hlate x h1 h2),
    rdWords_wrWords (applyStores_wf h before hb) _ _ hst]

end Sys2Proof.Machine
end

