-- ==== Sys2Proof/Laws/Arith.lean ====
section
/-! SUPPORT. The laws of limbs (spec/00_scope.md R11) and of the field functions (R16): ranges, and what
each is in the ring of integers modulo `m`. -/

namespace Sys2Proof.Machine

/-! ### Limbs -/

@[simp] theorem toLimbs_length (l v : Nat) : (toLimbs l v).length = l := by
  induction l generalizing v with
  | zero => rfl
  | succ l ih => simp [toLimbs, ih]

theorem pow_limbs_succ (l : Nat) : (2 : Nat) ^ (64 * (l + 1)) = 2 ^ 64 * 2 ^ (64 * l) := by
  rw [← pow_add]; ring_nf

theorem fromLimbs_lt (ws : List Word) : fromLimbs ws < 2 ^ (64 * ws.length) := by
  induction ws with
  | nil => simp [fromLimbs]
  | cons w rest ih =>
    have := w.isLt
    rw [List.length_cons, pow_limbs_succ, fromLimbs]
    omega

theorem fromLimbs_toLimbs (l v : Nat) : fromLimbs (toLimbs l v) = v % 2 ^ (64 * l) := by
  induction l generalizing v with
  | zero => simp [toLimbs, fromLimbs, Nat.mod_one]
  | succ l ih => rw [toLimbs, fromLimbs, ih, pow_limbs_succ, Nat.mod_mul, BitVec.toNat_ofNat]

theorem rdInt_lt (m : Memory) (l a : Nat) : rdInt m l a < 2 ^ (64 * l) := by
  have := fromLimbs_lt (rdWords m a l)
  rwa [rdWords_length] at this

theorem intAt_lt (s : State) (l k : Nat) : intAt s l k < 2 ^ (64 * l) := rdInt_lt _ _ _

/-- Reading an integer back where its limbs stand. -/
theorem rdInt_of_words {m : Memory} {l a v : Nat} (h : rdWords m a l = toLimbs l v) (hv : v < 2 ^ (64 * l)) :
    rdInt m l a = v := by
  rw [rdInt, h, fromLimbs_toLimbs, Nat.mod_eq_of_lt hv]

/-! ### Field functions -/

theorem addm_lt {m : Nat} (a b : Nat) (h : 0 < m) : addm a b m < m := Nat.mod_lt _ h

theorem subm_lt {m : Nat} (a b : Nat) (h : 0 < m) : subm a b m < m := Nat.mod_lt _ h

theorem negm_lt {m : Nat} (a : Nat) (h : 0 < m) : negm a m < m := Nat.mod_lt _ h

theorem mulm_lt {m : Nat} (a b : Nat) (h : 0 < m) : mulm a b m < m := Nat.mod_lt _ h

@[simp] theorem addm_cast (a b m : Nat) : ((addm a b m : Nat) : ZMod m) = a + b := by
  simp [addm]

@[simp] theorem mulm_cast (a b m : Nat) : ((mulm a b m : Nat) : ZMod m) = a * b := by
  simp [mulm]

theorem subm_cast {m : Nat} (a b : Nat) (h : 0 < m) : ((subm a b m : Nat) : ZMod m) = a - b := by
  have hb : b % m ≤ m := (Nat.mod_lt b h).le
  simp [subm, Nat.cast_sub hb, sub_eq_add_neg]

theorem negm_cast {m : Nat} (a : Nat) (h : 0 < m) : ((negm a m : Nat) : ZMod m) = -a := by
  have hb : a % m ≤ m := (Nat.mod_lt a h).le
  simp [negm, Nat.cast_sub hb]

theorem eq_of_cast_eq {a b m : Nat} (ha : a < m) (hb : b < m) (h : (a : ZMod m) = b) : a = b := by
  have := (ZMod.natCast_eq_natCast_iff a b m).1 h
  rwa [Nat.ModEq, Nat.mod_eq_of_lt ha, Nat.mod_eq_of_lt hb] at this

/-! ### The inverse (spec/00_scope.md R16) -/

theorem invLoop_spec (a : Nat) {m : Nat} (hm : 1 < m) (fuel r0 r1 t0 t1 : Nat) (hf : r1 < fuel)
    (hg : Nat.gcd r0 r1 = 1) (h0 : (r0 : ZMod m) = a * t0) (h1 : (r1 : ZMod m) = a * t1)
    (l0 : t0 < m) (l1 : t1 < m) :
    ((a : ZMod m) * (invLoop m fuel r0 r1 t0 t1 : Nat) = 1) ∧ invLoop m fuel r0 r1 t0 t1 < m := by
  induction fuel generalizing r0 r1 t0 t1 with
  | zero => omega
  | succ fuel ih =>
    simp only [invLoop]
    by_cases hz : r1 = 0
    · subst hz
      have hr0 : r0 = 1 := by simpa using hg
      subst hr0
      simp only [if_true]
      exact ⟨by rw [← h0]; simp, l0⟩
    · rw [if_neg hz]
      have hpos : 0 < r1 := Nat.pos_of_ne_zero hz
      have hlt := Nat.mod_lt r0 hpos
      have hq : (r0 : ZMod m) = (r1 : ZMod m) * ((r0 / r1 : Nat) : ZMod m) + ((r0 % r1 : Nat) : ZMod m) := by
        rw [← Nat.cast_mul, ← Nat.cast_add, Nat.div_add_mod]
      refine ih r1 (r0 % r1) t1 _ (by omega) ?_ h1 ?_ l1 (subm_lt _ _ (by omega))
      · rw [Nat.gcd_comm, ← Nat.gcd_rec, Nat.gcd_comm]; exact hg
      · rw [subm_cast _ _ (by omega), mulm_cast]
        have : ((r0 % r1 : Nat) : ZMod m) = r0 - r1 * ((r0 / r1 : Nat) : ZMod m) := by rw [hq]; ring
        rw [this, h0, h1]; ring

/-- `invm` is the inverse, on its domain (spec/00_scope.md R16). -/
theorem invm_spec {a m : Nat} (hm : 1 < m) (h : Nat.gcd a m = 1) :
    mulm a (invm a m) m = 1 ∧ invm a m < m := by
  have hg : Nat.gcd m (a % m) = 1 := by rw [Nat.gcd_comm, ← Nat.gcd_rec, Nat.gcd_comm]; exact h
  have h1 : (1 : Nat) % m = 1 := Nat.mod_eq_of_lt hm
  have key := invLoop_spec a hm (a % m + 1) m (a % m) 0 (1 % m) (Nat.lt_succ_self _) hg (by simp)
    (by rw [h1]; simp) (by omega) (by omega)
  refine ⟨eq_of_cast_eq (mulm_lt _ _ (by omega)) hm ?_, key.2⟩
  rw [mulm_cast, Nat.cast_one]
  exact key.1

/-- There is at most one inverse below `m`. -/
theorem inverse_unique {a m r r' : Nat} (hr : r < m) (hr' : r' < m) (h : mulm a r m = 1)
    (h' : mulm a r' m = 1) : r = r' := by
  refine eq_of_cast_eq hr hr' ?_
  have e : (a : ZMod m) * r = 1 := by rw [← mulm_cast, h, Nat.cast_one]
  have e' : (a : ZMod m) * r' = 1 := by rw [← mulm_cast, h', Nat.cast_one]
  calc (r : ZMod m) = r * (a * r') := by rw [e', mul_one]
    _ = (a * r) * r' := by ring
    _ = r' := by rw [e, one_mul]

/-! ### Exponentiation (spec/43_modexp.md R178, R180) -/

/-- One more bit of a shifted exponent. -/
theorem bit_add_two_mul_shift (e i : Nat) : 2 * (e >>> (i + 1)) + bit e i = e >>> i := by
  rw [bit, Nat.shiftRight_succ]; omega

theorem bit_lt_two (e i : Nat) : bit e i < 2 := Nat.mod_lt _ (by decide)

/-- The loop of `sqmul` keeps `r` a power of `x` by the bits consumed (spec/43_modexp.md R178). -/
theorem sqmulLoop_spec (x e m : Nat) (i r : Nat) (h : r % m = x ^ (e >>> i) % m) :
    sqmulLoop x e m i r % m = x ^ e % m := by
  induction i generalizing r with
  | zero => simpa [sqmulLoop] using h
  | succ i ih =>
    refine ih _ ?_
    have hb := bit_add_two_mul_shift e i
    have hsq : r * r % m = x ^ (2 * (e >>> (i + 1))) % m := by
      rw [Nat.mul_mod, h, ← Nat.mul_mod, two_mul, pow_add]
    have := bit_lt_two e i
    rcases (by omega : bit e i = 0 ∨ bit e i = 1) with h0 | h0
    · rw [h0] at hb
      simp only [h0, zero_ne_one, if_false, Nat.mod_mod]
      rw [hsq, ← hb, add_zero]
    · rw [h0] at hb
      simp only [h0, if_true, Nat.mod_mod]
      rw [Nat.mul_mod, Nat.mod_mod, hsq, ← Nat.mul_mod, ← hb, pow_succ]

theorem sqmulLoop_lt (x e : Nat) {m : Nat} (hm : 0 < m) (i r : Nat) (hr : r < m) : sqmulLoop x e m i r < m := by
  induction i generalizing r with
  | zero => exact hr
  | succ i ih =>
    refine ih _ ?_
    split_ifs <;> exact Nat.mod_lt _ hm

/-- The highest 1 bit stands alone. -/
theorem shift_msb {e : Nat} (he : e ≠ 0) : e >>> msb e = 1 := by
  rw [msb, Nat.shiftRight_eq_div_pow]
  have h1 := Nat.log2_self_le he
  have h2 := Nat.lt_log2_self (n := e)
  have h3 : 2 ^ (Nat.log2 e + 1) = 2 * 2 ^ Nat.log2 e := by rw [pow_succ, mul_comm]
  rw [Nat.div_eq_iff (by positivity)]
  omega

theorem sqmul_spec (x e m : Nat) (he : e ≠ 0) : sqmul x e m % m = x ^ e % m :=
  sqmulLoop_spec x e m _ x (by rw [shift_msb he, pow_one])

/-- `powm` is the power modulo `m` (spec/00_scope.md R16). -/
theorem powm_eq {a e m : Nat} (hm : 0 < m) : powm a e m = a ^ e % m := by
  by_cases he : e = 0
  · simp [powm, he]
  · have hlt : sqmul (a % m) e m < m := sqmulLoop_lt (a % m) e hm (msb e) _ (Nat.mod_lt _ hm)
    rw [powm, if_neg he, ← Nat.mod_eq_of_lt hlt, sqmul_spec _ _ _ he, ← Nat.pow_mod]

end Sys2Proof.Machine
end

