-- ==== Sys2Proof/Laws/State.lean ====
section
/-! SUPPORT. What each state update leaves in each field (spec/10_state.md R21): true by definition, so that
no proof unfolds a record update. -/

namespace Sys2Proof.Machine

/-! ### Fault entry (spec/60_exceptions.md R306) -/

@[simp] theorem takeFault_op (c : FaultCause) (s : State) : (takeFault c s).op = s.op := rfl
@[simp] theorem takeFault_arg (c : FaultCause) (s : State) : (takeFault c s).arg = s.arg := rfl
@[simp] theorem takeFault_ret (c : FaultCause) (s : State) : (takeFault c s).ret = s.ret := rfl
@[simp] theorem takeFault_status (c : FaultCause) (s : State) : (takeFault c s).status = statusFault := rfl
@[simp] theorem takeFault_cause (c : FaultCause) (s : State) : (takeFault c s).cause = c.code := rfl
@[simp] theorem takeFault_hintq (c : FaultCause) (s : State) : (takeFault c s).hintq = s.hintq := rfl
@[simp] theorem takeFault_pend (c : FaultCause) (s : State) : (takeFault c s).pend = none := rfl
@[simp] theorem takeFault_mem (c : FaultCause) (s : State) : (takeFault c s).mem = s.mem := rfl
@[simp] theorem takeFault_queries (c : FaultCause) (s : State) : (takeFault c s).queries = s.queries := rfl
@[simp] theorem takeFault_host (c : FaultCause) (s : State) : (takeFault c s).host = s.host := rfl
@[simp] theorem takeFault_plat (c : FaultCause) (s : State) : (takeFault c s).plat = s.plat := rfl

/-! ### Reset (spec/70_reset_and_hazards.md R340) -/

@[simp] theorem applyReset_op (s : State) : (applyReset s).op = 0 := rfl
@[simp] theorem applyReset_arg (s : State) : (applyReset s).arg = 0 := rfl
@[simp] theorem applyReset_ret (s : State) : (applyReset s).ret = 0 := rfl
@[simp] theorem applyReset_status (s : State) : (applyReset s).status = statusIdle := rfl
@[simp] theorem applyReset_cause (s : State) : (applyReset s).cause = causeNone := rfl
@[simp] theorem applyReset_hintq (s : State) : (applyReset s).hintq = [] := rfl
@[simp] theorem applyReset_pend (s : State) : (applyReset s).pend = none := rfl
@[simp] theorem applyReset_mem (s : State) : (applyReset s).mem = s.mem := rfl
@[simp] theorem applyReset_queries (s : State) : (applyReset s).queries = s.queries := rfl
@[simp] theorem applyReset_host (s : State) : (applyReset s).host = s.host := rfl
@[simp] theorem applyReset_plat (s : State) : (applyReset s).plat = s.plat := rfl

/-! ### Normal completion (spec/10_state.md R37) -/

@[simp] theorem finish_op (ss : List Store) (r : Word) (s : State) : (finish ss r s).op = s.op := rfl
@[simp] theorem finish_arg (ss : List Store) (r : Word) (s : State) : (finish ss r s).arg = s.arg := rfl
@[simp] theorem finish_ret (ss : List Store) (r : Word) (s : State) : (finish ss r s).ret = r := rfl
@[simp] theorem finish_status (ss : List Store) (r : Word) (s : State) : (finish ss r s).status = statusIdle := rfl
@[simp] theorem finish_cause (ss : List Store) (r : Word) (s : State) : (finish ss r s).cause = s.cause := rfl
@[simp] theorem finish_hintq (ss : List Store) (r : Word) (s : State) : (finish ss r s).hintq = s.hintq := rfl
@[simp] theorem finish_pend (ss : List Store) (r : Word) (s : State) : (finish ss r s).pend = none := rfl
@[simp] theorem finish_mem (ss : List Store) (r : Word) (s : State) : (finish ss r s).mem = applyStores s.mem ss := rfl
@[simp] theorem finish_queries (ss : List Store) (r : Word) (s : State) : (finish ss r s).queries = s.queries := rfl
@[simp] theorem finish_host (ss : List Store) (r : Word) (s : State) : (finish ss r s).host = s.host := rfl
@[simp] theorem finish_plat (ss : List Store) (r : Word) (s : State) : (finish ss r s).plat = s.plat := rfl

/-! ### The query history (spec/10_state.md R38) -/

@[simp] theorem recordQuery_op (q : Query) (s : State) : (recordQuery q s).op = s.op := rfl
@[simp] theorem recordQuery_arg (q : Query) (s : State) : (recordQuery q s).arg = s.arg := rfl
@[simp] theorem recordQuery_ret (q : Query) (s : State) : (recordQuery q s).ret = s.ret := rfl
@[simp] theorem recordQuery_status (q : Query) (s : State) : (recordQuery q s).status = s.status := rfl
@[simp] theorem recordQuery_cause (q : Query) (s : State) : (recordQuery q s).cause = s.cause := rfl
@[simp] theorem recordQuery_hintq (q : Query) (s : State) : (recordQuery q s).hintq = s.hintq := rfl
@[simp] theorem recordQuery_pend (q : Query) (s : State) : (recordQuery q s).pend = s.pend := rfl
@[simp] theorem recordQuery_mem (q : Query) (s : State) : (recordQuery q s).mem = s.mem := rfl
@[simp] theorem recordQuery_queries (q : Query) (s : State) : (recordQuery q s).queries = s.queries ++ [q] := rfl
@[simp] theorem recordQuery_host (q : Query) (s : State) : (recordQuery q s).host = s.host := rfl
@[simp] theorem recordQuery_plat (q : Query) (s : State) : (recordQuery q s).plat = s.plat := rfl

/-! ### Placing the next operation -/

@[simp] theorem withFetchWord_op (s : State) (n w : Nat) : (s.withFetchWord n w).op = s.op := rfl
@[simp] theorem withFetchWord_arg (s : State) (n w : Nat) : (s.withFetchWord n w).arg = s.arg := rfl
@[simp] theorem withFetchWord_ret (s : State) (n w : Nat) : (s.withFetchWord n w).ret = s.ret := rfl
@[simp] theorem withFetchWord_status (s : State) (n w : Nat) : (s.withFetchWord n w).status = statusIdle := rfl
@[simp] theorem withFetchWord_cause (s : State) (n w : Nat) : (s.withFetchWord n w).cause = s.cause := rfl
@[simp] theorem withFetchWord_hintq (s : State) (n w : Nat) : (s.withFetchWord n w).hintq = s.hintq := rfl
@[simp] theorem withFetchWord_pend (s : State) (n w : Nat) : (s.withFetchWord n w).pend = none := rfl
@[simp] theorem withFetchWord_mem (s : State) (n w : Nat) : (s.withFetchWord n w).mem = s.mem := rfl
@[simp] theorem withFetchWord_queries (s : State) (n w : Nat) : (s.withFetchWord n w).queries = s.queries := rfl
@[simp] theorem withFetchWord_host (s : State) (n w : Nat) : (s.withFetchWord n w).host = .writeOp (BitVec.ofNat 8 (w % 2 ^ n)) :: s.host := rfl
@[simp] theorem withFetchWord_plat (s : State) (n w : Nat) : (s.withFetchWord n w).plat = s.plat := rfl

/-! ### Distinct codes (spec/10_state.md R25, spec/60_exceptions.md R302) -/

@[simp] theorem waitHint_ne_idle : statusWaitHint ≠ statusIdle := by decide

@[simp] theorem fault_ne_idle : statusFault ≠ statusIdle := by decide

@[simp] theorem fault_ne_waitHint : statusFault ≠ statusWaitHint := by decide

@[simp] theorem idle_ne_waitHint : statusIdle ≠ statusWaitHint := by decide

@[simp] theorem idle_ne_fault : statusIdle ≠ statusFault := by decide

@[simp] theorem waitHint_ne_fault : statusWaitHint ≠ statusFault := by decide

theorem causeCode_ne_none (c : FaultCause) : c.code ≠ causeNone := by cases c <;> decide

theorem causeCode_le (c : FaultCause) : c.code.toNat ≤ 6 := by cases c <;> decide

/-! ### Operands do not depend on the registers an issue writes -/

@[simp] theorem structWord_withOp (s : State) (c : Byte) (k : Nat) :
    structWord { s with op := c } k = structWord s k := rfl

@[simp] theorem ptr_withOp (s : State) (c : Byte) (k : Nat) : ptr { s with op := c } k = ptr s k := rfl

@[simp] theorem intAt_withOp (s : State) (c : Byte) (l k : Nat) :
    intAt { s with op := c } l k = intAt s l k := rfl

@[simp] theorem pointAt_withOp (s : State) (c : Byte) (k : Nat) :
    pointAt { s with op := c } k = pointAt s k := rfl

@[simp] theorem arbAt_withOp (s : State) (c : Byte) (k : Nat) :
    arbAt { s with op := c } k = arbAt s k := rfl

end Sys2Proof.Machine
end

