-- ==== Sys2Proof/Laws/Checks.lean ====
section
/-! SUPPORT. What the checks of an issue answer, said once: each shared check is the answer of the
corresponding fault function of Safety.lean. -/

namespace Sys2Proof.Machine

/-- A check as the answer of a fault function. -/
def answer (f : Option FaultCause) : Except FaultCause Unit :=
  match f with
  | none => .ok ()
  | some c => .error c

@[simp] theorem answer_none : answer none = .ok () := rfl

@[simp] theorem answer_some (c : FaultCause) : answer (some c) = .error c := rfl

@[simp] theorem ok_bind {α β : Type} (a : α) (f : α → Except FaultCause β) :
    (Except.ok a >>= f) = f a := rfl

@[simp] theorem error_bind {α β : Type} (c : FaultCause) (f : α → Except FaultCause β) :
    ((Except.error c : Except FaultCause α) >>= f) = .error c := rfl

/-- A sequence answers `.ok` exactly when both parts do. -/
theorem bind_ok_iff {α β : Type} {x : Except FaultCause α} {f : α → Except FaultCause β} {b : β} :
    (x >>= f) = .ok b ↔ ∃ a, x = .ok a ∧ f a = .ok b := by
  cases x <;> simp

theorem require_ok_iff {c : Bool} {f : FaultCause} : require c f = .ok () ↔ c = true := by
  cases c <;> simp [require]

@[simp] theorem require_true (f : FaultCause) : require true f = .ok () := rfl

@[simp] theorem require_false (f : FaultCause) : require false f = .error f := rfl

theorem checkAligned_eq (a : Nat) :
    checkAligned a = answer (if a % 8 ≠ 0 then some .misaligned else none) := by
  by_cases h : a % 8 = 0 <;> simp [checkAligned, require, h]

theorem checkAccess_eq (s : State) (acc : Access) (a n : Nat) :
    checkAccess s acc a n = answer (if rangeOk s.plat.map acc a n = false then some .access else none) := by
  cases h : rangeOk s.plat.map acc a n <;> simp [checkAccess, require, h]

/-- Two checks in a row answer the first fault. -/
theorem answer_seq (f g : Option FaultCause) : (answer f >>= fun _ => answer g) = answer (f.or g) := by
  cases f <;> rfl

theorem checkStruct_eq (s : State) (words : Nat) (acc : Access) :
    checkStruct s words acc = answer (structFault s words acc) := by
  simp only [checkStruct, structFault, checkAligned_eq, checkAccess_eq, answer_seq]
  split_ifs <;> rfl

theorem checkBufs_eq (s : State) (bs : List Buf) : checkBufs s bs = answer (bufsFault s bs) := by
  induction bs with
  | nil => rfl
  | cons b rest ih =>
    simp only [checkBufs, checkBuf, bufsFault, checkAligned_eq, checkAccess_eq, ih, answer_seq]
    split_ifs <;> rfl

/-- The memory checks of a fixed-size format answer its first memory fault. -/
theorem checkFormat_eq (s : State) (f : Format) : checkFormat s f = answer (memoryFault s f) := by
  simp only [checkFormat, memoryFault, checkStruct_eq, checkBufs_eq, answer_seq]

theorem checkArb_eq (s : State) (k : Nat) :
    checkArb s k = (answer (arbFault s k) >>= fun _ => .ok (rdW s.mem (ptr s k)).toNat) := by
  simp only [checkArb, arbFault, checkAligned_eq, checkAccess_eq]
  by_cases h1 : ptr s k % 8 = 0
  · cases h2 : rangeOk s.plat.map .read (ptr s k) 8
    · simp [h1]
    · by_cases h3 : (rdW s.mem (ptr s k)).toNat = 0
      · simp [h1, h3]
      · have h3' : 1 ≤ (rdW s.mem (ptr s k)).toNat := Nat.one_le_iff_ne_zero.2 h3
        cases h4 : withinBound s.plat.maxDigits (rdW s.mem (ptr s k)).toNat
        · simp [h1, h3, h3']
        · cases h5 : rangeOk s.plat.map .read (ptr s k) (8 + 32 * (rdW s.mem (ptr s k)).toNat) <;>
            simp [h1, h3, h3']
  · simp [h1]

/-- The memory checks of MODEXP answer its first fault. -/
theorem checkF7_eq (s : State) : checkF7 s = answer (modexpFault s) := by
  simp only [checkF7, modexpFault, checkStruct_eq, checkArb_eq, checkAligned_eq, checkAccess_eq]
  cases structFault s 4 .read <;> cases arbFault s 0 <;> cases arbFault s 1 <;> cases arbFault s 2 <;>
    simp only [answer_none, answer_some, ok_bind, error_bind, Option.or, answer_seq]
  split_ifs <;> rfl

/-- The memory checks of BN254_ECPAIRING answer its first fault. -/
theorem checkF13_eq (s : State) : checkF13 s = answer (pairingFault s) := by
  simp only [checkF13, pairingFault, checkStruct_eq, checkAligned_eq, checkAccess_eq]
  cases structFault s 4 .read
  · simp only [answer_none, ok_bind, Option.or]
    by_cases h1 : ptr s 0 % 8 = 0
    · cases h2 : withinBound s.plat.maxPairs (structWord s 2).toNat
      · simp [h1]
      · simp only [h1, ne_eq, not_true_eq_false, if_false, answer_none, ok_bind, require_true, answer_seq,
          Bool.true_eq_false]
        split_ifs <;> rfl
    · simp [h1]
  · rfl

/-! ### Ranges -/

theorem bytesAllow_iff (map : List Region) (acc : Access) (a n : Nat) :
    bytesAllow map acc a n = true ↔ ∀ k, k < n → Perm.allows (mappedAt map (a + k)) acc = true := by
  induction n generalizing a with
  | zero => simp [bytesAllow]
  | succ n ih =>
    simp only [bytesAllow, Bool.and_eq_true, ih]
    constructor
    · rintro ⟨h0, h⟩ k hk
      cases k with
      | zero => exact h0
      | succ k => have := h k (by omega); rwa [show a + 1 + k = a + (k + 1) by omega] at this
    · intro h
      refine ⟨h 0 (by omega), fun k hk => ?_⟩
      have := h (k + 1) (by omega)
      rwa [show a + (k + 1) = a + 1 + k by omega] at this

/-- What a range check says: the range stays in the space and every byte allows the access. -/
theorem rangeOk_iff (map : List Region) (acc : Access) (a n : Nat) :
    rangeOk map acc a n = true ↔
      a + n ≤ 2 ^ 64 ∧ ∀ k, k < n → Perm.allows (mappedAt map (a + k)) acc = true := by
  simp [rangeOk, bytesAllow_iff]

theorem rangeOk_space {map : List Region} {acc : Access} {a n : Nat} (h : rangeOk map acc a n = true) :
    a + n ≤ 2 ^ 64 := ((rangeOk_iff ..).1 h).1

/-- A buffer of a format without memory fault is aligned and accessible. -/
theorem bufsFault_none {s : State} {bs : List Buf} (h : bufsFault s bs = none) {b : Buf} (hb : b ∈ bs) :
    ptr s b.word % 8 = 0 ∧ rangeOk s.plat.map b.acc (ptr s b.word) b.size = true := by
  induction bs with
  | nil => cases hb
  | cons c rest ih =>
    simp only [bufsFault] at h
    split_ifs at h with h1 h2
    rcases List.mem_cons.1 hb with rfl | hb
    · exact ⟨by simpa using h1, by simpa using h2⟩
    · exact ih h hb

/-- A format without memory fault: the structure and every buffer are aligned and accessible. -/
theorem memoryFault_none {s : State} {f : Format} (h : memoryFault s f = none) :
    s.arg.toNat % 8 = 0 ∧ rangeOk s.plat.map f.acc s.arg.toNat (8 * f.words) = true ∧
      ∀ b ∈ f.bufs, ptr s b.word % 8 = 0 ∧ rangeOk s.plat.map b.acc (ptr s b.word) b.size = true := by
  rw [memoryFault, Option.or_eq_none_iff] at h
  obtain ⟨hs, hb⟩ := h
  simp only [structFault] at hs
  split_ifs at hs with h1 h2
  exact ⟨by simpa using h1, by simpa using h2, fun b hm => bufsFault_none hb hm⟩

end Sys2Proof.Machine
end

