-- ==== Sys2Proof/Laws/Issue.lean ====
section
/-! SUPPORT. What the issue and the completion of an operation can do, said once (spec/10_state.md R36, R37):
the provers cite these instead of unfolding `issue`, `applyPlan`, `startHinted`, `complete` and `step`. -/

namespace Sys2Proof.Machine

/-! ### Issue -/

/-- The state an operation's body runs on: the state of the issue, with its code in `OP`. -/
abbrev issued (i : Instr) (s : State) : State := { s with op := encode i }

theorem issue_idle {i : Instr} {body : State → Except FaultCause Plan} {s : State} (h : s.status = statusIdle) :
    issue i body s = .next (applyPlan (issued i s) (body (issued i s))) := by
  rw [issue, if_pos h]

theorem issue_busy {i : Instr} {body : State → Except FaultCause Plan} {s : State} (h : s.status ≠ statusIdle) :
    issue i body s = .next s := by
  rw [issue, if_neg h]

@[simp] theorem memoryFault_withOp (s : State) (c : Byte) (f : Format) :
    memoryFault { s with op := c } f = memoryFault s f := by
  have hb : ∀ bs, bufsFault { s with op := c } bs = bufsFault s bs := fun bs => by
    induction bs with
    | nil => rfl
    | cons b rest ih => simp only [bufsFault, ih, ptr_withOp]
  simp only [memoryFault, structFault, hb]

@[simp] theorem modexpFault_withOp (s : State) (c : Byte) :
    modexpFault { s with op := c } = modexpFault s := rfl

@[simp] theorem pairingFault_withOp (s : State) (c : Byte) :
    pairingFault { s with op := c } = pairingFault s := rfl

/-! ### Hinted operations -/

theorem startHinted_waits {p : Pend} {s : State} (h : s.hintq.length < p.need) :
    startHinted p s = { recordQuery p.query s with status := statusWaitHint, pend := some p } := by
  have : ¬ p.need ≤ (recordQuery p.query s).hintq.length := by simpa using h
  simp only [startHinted, if_neg this]

theorem startHinted_completes {p : Pend} {s : State} (h : p.need ≤ s.hintq.length) :
    startHinted p s = complete p (recordQuery p.query s) := by
  have : p.need ≤ (recordQuery p.query s).hintq.length := by simpa using h
  simp only [startHinted, if_pos this]

theorem complete_ok {p : Pend} {s : State} {out : List Store × Word}
    (h : p.result (s.hintq.take p.need) = .ok out) :
    complete p s = finish out.1 out.2 { s with hintq := s.hintq.drop p.need } := by
  simp only [complete, h]

theorem complete_error {p : Pend} {s : State} {c : FaultCause}
    (h : p.result (s.hintq.take p.need) = .error c) :
    complete p s = takeFault c { s with hintq := s.hintq.drop p.need } := by
  simp only [complete, h]

/-- Everything a completion can do. -/
theorem complete_cases (p : Pend) (s : State) :
    (∃ ss ret, p.result (s.hintq.take p.need) = .ok (ss, ret) ∧
      complete p s = finish ss ret { s with hintq := s.hintq.drop p.need }) ∨
    ∃ c, p.result (s.hintq.take p.need) = .error c ∧
      complete p s = takeFault c { s with hintq := s.hintq.drop p.need } := by
  cases h : p.result (s.hintq.take p.need) with
  | ok out => exact .inl ⟨out.1, out.2, rfl, complete_ok h⟩
  | error c => exact .inr ⟨c, rfl, complete_error h⟩

/-! ### Every operation is an issue -/

/-- The body of each operation. -/
def bodyOf : Instr → State → Except FaultCause Plan
  | .add256 => bodyAdd256
  | .modadd256 => fieldOp2 4 (modAddSteps 256)
  | .modsub256 => fieldOp2 4 (modSubSteps 256)
  | .modneg256 => fieldOp1 4 modNegSteps
  | .modadd384 => fieldOp2 6 (modAddSteps 384)
  | .modsub384 => fieldOp2 6 (modSubSteps 384)
  | .modneg384 => fieldOp1 6 modNegSteps
  | .arith256 => bodyArith256
  | .arith256Mod => bodyArithMod 4
  | .arith384Mod => bodyArithMod 6
  | .modmul256 => fieldOp2 4 (fun a b m => reduce (a * b) m)
  | .modsqr256 => fieldOp1 4 (fun a m => reduce (a * a) m)
  | .modmul384 => fieldOp2 6 (fun a b m => reduce (a * b) m)
  | .modsqr384 => fieldOp1 6 (fun a m => reduce (a * a) m)
  | .modinv256F => bodyModinvF 4
  | .modinv256H => fun t => bodyModinvH 4
      (fun a m => .modinv256H (BitVec.ofNat 256 a) (BitVec.ofNat 256 m) (structWord t 2)) t
  | .modinv384F => bodyModinvF 6
  | .modinv384H => fun t => bodyModinvH 6
      (fun a m => .modinv384H (BitVec.ofNat 384 a) (BitVec.ofNat 384 m) (structWord t 2)) t
  | .bn254FpInv => bodyBn254FpInv
  | .modexp => bodyModexp
  | .secp256k1Add => pointOp2 (fun p q => rawAdd p q secpP)
  | .secp256k1Dbl => pointOp1 (fun p => rawDbl p secpP)
  | .secp256k1Cadd => pointOp2 (fun p q => cadd p q secpP)
  | .secp256k1Mul => bodySecpMul
  | .secp256k1DmulG => bodySecpDmulG
  | .bn254CurveAdd => pointOp2 (fun p q => rawAdd p q bnP)
  | .bn254CurveDbl => pointOp1 (fun p => rawDbl p bnP)
  | .bn254Cadd => pointOp2 (fun p q => cadd p q bnP)
  | .bn254Ecadd => bodyBn254Ecadd
  | .bn254Ecmul => bodyBn254Ecmul
  | .bn254ComplexAdd => fp2Op2 f2add
  | .bn254ComplexSub => fp2Op2 f2sub
  | .bn254ComplexMul => fp2Op2 f2mul
  | .bn254Ecpairing => bodyBn254Ecpairing

/-- `exec` is the issue of the operation's body. -/
theorem exec_eq_issue (i : Instr) (s : State) : exec i s = issue i (bodyOf i) s := by cases i <;> rfl

theorem exec_idle {i : Instr} {s : State} (h : s.status = statusIdle) :
    exec i s = .next (applyPlan (issued i s) (bodyOf i (issued i s))) := by
  rw [exec_eq_issue, issue_idle h]

theorem exec_busy {i : Instr} {s : State} (h : s.status ≠ statusIdle) : exec i s = .next s := by
  rw [exec_eq_issue, issue_busy h]

/-! ### From a body's answer to the outcome of the operation -/

/-- A state with its outputs written and its operation ended, under the frame of the issue. -/
theorem finish_ends {i : Instr} {s u : State} {popped : Nat} {qs : List Query} {ss : List Store} {ret : Word}
    (hf : IssueFrame i s u) (he : exec i s = .next (finish ss ret u)) (hc : u.cause = s.cause)
    (hq : u.hintq = s.hintq.drop popped) (hqs : u.queries = s.queries ++ qs) (hm : u.mem = s.mem)
    (hs : storesInSpace ss) : EndsWith i s popped qs ss ret := by
  refine ⟨finish ss ret u, he, ⟨hf.op, hf.arg, hf.host, hf.plat⟩, rfl, rfl, hc, rfl, hq, hqs, ?_, ?_⟩
  · intro a ha
    rw [finish_mem, applyStores_read_other _ _ ha, hm]
  · rintro hw before st after rfl hlate
    rw [finish_mem, hm]
    exact applyStores_holds hw before after st hs hlate

/-- A body that ends, ends the operation. -/
theorem endsWith_of_body {i : Instr} {s : State} {ss : List Store} {ret : Word} (h : s.status = statusIdle)
    (hb : bodyOf i (issued i s) = .ok (.done ss ret)) (hs : storesInSpace ss) :
    EndsWith i s 0 [] ss ret := by
  refine finish_ends (u := issued i s) ⟨rfl, rfl, rfl, rfl⟩ ?_ rfl rfl (by simp) rfl hs
  rw [exec_idle h, hb]
  rfl

/-- A body that raises a fault faults the operation. -/
theorem faultsWith_of_body {i : Instr} {s : State} {c : FaultCause} (h : s.status = statusIdle)
    (hb : bodyOf i (issued i s) = .error c) : FaultsWith i s 0 [] c := by
  refine ⟨takeFault c (issued i s), ?_, ⟨rfl, rfl, rfl, rfl⟩, rfl, rfl, rfl, rfl, rfl, by simp, rfl⟩
  rw [exec_idle h, hb]
  rfl

/-- A body that asks for hint words. -/
theorem asksWith_of_body {i : Instr} {s : State} {p : Pend} (h : s.status = statusIdle)
    (hb : bodyOf i (issued i s) = .ok (.hint p))
    (hs : ∀ ws ss ret, p.result ws = .ok (ss, ret) → storesInSpace ss) : AsksWith i s p := by
  have he : exec i s = .next (startHinted p (issued i s)) := by rw [exec_idle h, hb]; rfl
  refine ⟨fun hlt => ?_, fun hle => ⟨fun ss ret hr => ?_, fun c hr => ?_⟩⟩
  · rw [startHinted_waits (s := issued i s) hlt] at he
    exact ⟨_, he, ⟨rfl, rfl, rfl, rfl⟩, rfl, rfl, rfl, rfl, rfl, rfl, rfl⟩
  · rw [startHinted_completes (s := issued i s) hle, complete_ok (s := recordQuery p.query (issued i s)) hr] at he
    exact finish_ends (u := { recordQuery p.query (issued i s) with hintq := s.hintq.drop p.need })
      ⟨rfl, rfl, rfl, rfl⟩ he rfl rfl rfl rfl (hs _ _ _ hr)
  · rw [startHinted_completes (s := issued i s) hle, complete_error (s := recordQuery p.query (issued i s)) hr] at he
    exact ⟨_, he, ⟨rfl, rfl, rfl, rfl⟩, rfl, rfl, rfl, rfl, rfl, rfl, rfl⟩

/-! ### The shared bodies -/

/-- The first fault of the operand checks of spec/40_modadd.md R112, one operand. -/
def fieldFault1 (a m : Nat) : Option FaultCause :=
  if m = 0 then some .divZero else if a < m then none else some .precond

/-- The first fault of the operand checks of spec/40_modadd.md R112, two operands. -/
def fieldFault2 (a b m : Nat) : Option FaultCause :=
  if m = 0 then some .divZero else if a < m ∧ b < m then none else some .precond

theorem fieldChecks1_eq (a m : Nat) : fieldChecks1 a m = answer (fieldFault1 a m) := by
  by_cases h : m = 0 <;> by_cases h' : a < m <;> simp [fieldChecks1, fieldFault1, h, h', require]

theorem fieldChecks2_eq (a b m : Nat) : fieldChecks2 a b m = answer (fieldFault2 a b m) := by
  by_cases h : m = 0 <;> by_cases h' : a < m <;> by_cases h'' : b < m <;>
    simp [fieldChecks2, fieldFault2, h, h', h'', require]

theorem fieldOp2_eq (l : Nat) (f : Nat → Nat → Nat → Nat) (s : State) :
    fieldOp2 l f s =
      (answer ((memoryFault s (formatF4 l)).or (fieldFault2 (intAt s l 0) (intAt s l 1) (intAt s l 2))) >>=
        fun _ => .ok (.done [Store.int l (ptr s 3) (f (intAt s l 0) (intAt s l 1) (intAt s l 2))] retZero)) := by
  simp only [fieldOp2, checkFormat_eq, fieldChecks2_eq, ← answer_seq]
  cases memoryFault s (formatF4 l) <;> rfl

theorem fieldOp1_eq (l : Nat) (f : Nat → Nat → Nat) (s : State) :
    fieldOp1 l f s =
      (answer ((memoryFault s (formatF5 l)).or (fieldFault1 (intAt s l 0) (intAt s l 1))) >>=
        fun _ => .ok (.done [Store.int l (ptr s 2) (f (intAt s l 0) (intAt s l 1))] retZero)) := by
  simp only [fieldOp1, checkFormat_eq, fieldChecks1_eq, ← answer_seq]
  cases memoryFault s (formatF5 l) <;> rfl

/-- A body whose memory checks fail answers their fault. -/
theorem body_memoryFault {f : Format} {s : State} {c : FaultCause} {α : Type} {k : Unit → Except FaultCause α}
    (h : memoryFault s f = some c) : (checkFormat s f >>= k) = .error c := by
  rw [checkFormat_eq, h]; rfl

/-- A body whose memory checks pass goes on. -/
theorem body_noMemoryFault {f : Format} {s : State} {α : Type} {k : Unit → Except FaultCause α}
    (h : memoryFault s f = none) : (checkFormat s f >>= k) = k () := by
  rw [checkFormat_eq, h]; rfl

/-! ### Steps -/

/-- No operation stops the model: `exec` always answers a next state. -/
theorem exec_next (i : Instr) (s : State) : ∃ t, exec i s = .next t := by
  by_cases h : s.status = statusIdle
  · exact ⟨_, exec_idle h⟩
  · exact ⟨_, exec_busy h⟩

/-- When a completion is enabled (spec/10_state.md R37). -/
theorem readyPend_some {s : State} {p : Pend} :
    readyPend s = some p ↔ s.pend = some p ∧ s.status = statusWaitHint ∧ p.need ≤ s.hintq.length := by
  simp only [readyPend]
  cases s.pend with
  | none => simp
  | some q =>
    simp only
    split_ifs with h
    · simp only [Option.some.injEq]
      exact ⟨by rintro rfl; exact ⟨rfl, h⟩, fun ⟨h', _⟩ => h'⟩
    · simp only [Option.some.injEq, false_iff]
      rintro ⟨rfl, h'⟩
      exact h h'

theorem readyPend_not_waiting {s : State} (h : s.status ≠ statusWaitHint) : readyPend s = none := by
  cases hr : readyPend s with
  | none => rfl
  | some p => exact absurd (readyPend_some.1 hr).2.1 h

/-- Everything a step that goes on can do. -/
theorem step_cases {s t : State} (h : step s = .next t) :
    (∃ p, readyPend s = some p ∧ t = complete p s) ∨
    (readyPend s = none ∧ s.host = [] ∧ t = s) ∨
    (∃ act rest, readyPend s = none ∧ s.host = act :: rest ∧ hostStep act { s with host := rest } = .next t) := by
  simp only [step] at h
  cases hr : readyPend s with
  | some p =>
    rw [hr] at h
    exact .inl ⟨p, rfl, (Host.Outcome.next.inj h).symm⟩
  | none =>
    rw [hr] at h
    cases hh : s.host with
    | nil =>
      rw [hh] at h
      exact .inr (.inl ⟨rfl, rfl, (Host.Outcome.next.inj h).symm⟩)
    | cons act rest =>
      rw [hh] at h
      exact .inr (.inr ⟨act, rest, rfl, rfl, h⟩)

/-- Everything one action of the host that goes on can do. -/
theorem hostStep_cases {act : HostAction} {s t : State} (h : hostStep act s = .next t) :
    (∃ c i, act = .writeOp c ∧ decode c = .ok i ∧ exec i s = .next t) ∨
    (∃ c e, act = .writeOp c ∧ decode c = .error e ∧ issueIllegal c s = .next t) ∨
    (∃ v, act = .writeArg v ∧ t = hostWriteArg v s) ∨
    (∃ w, act = .pushHint w ∧ (t = s ∨ s.status ≠ statusFault ∧ t = { s with hintq := s.hintq ++ [w] })) ∨
    (∃ r, act = .readReg r ∧ t = s) ∨
    (∃ a v, act = .store a v ∧ rangeOk s.plat.map .write a.toNat 8 = true ∧
      t = { s with mem := wrW s.mem a.toNat (storedWord s v) }) ∨
    (act = .reset ∧ t = applyReset s) := by
  cases act with
  | writeOp c =>
    simp only [hostStep, hostWriteOp] at h
    cases hd : decode c with
    | ok i => rw [hd] at h; exact .inl ⟨c, i, rfl, hd, h⟩
    | error e => rw [hd] at h; exact .inr (.inl ⟨c, e, rfl, hd, h⟩)
  | writeArg v => exact .inr (.inr (.inl ⟨v, rfl, (Host.Outcome.next.inj h).symm⟩))
  | pushHint w =>
    refine .inr (.inr (.inr (.inl ⟨w, rfl, ?_⟩)))
    simp only [hostStep, hostPush] at h
    split at h
    · exact .inl (Host.Outcome.next.inj h).symm
    · rename_i hf
      split at h
      · exact .inr ⟨hf, (Host.Outcome.next.inj h).symm⟩
      · split at h
        · exact .inr ⟨hf, (Host.Outcome.next.inj h).symm⟩
        · cases h
  | readReg r =>
    refine .inr (.inr (.inr (.inr (.inl ⟨r, rfl, ?_⟩))))
    simp only [hostStep, hostRead] at h
    split at h
    · exact (Host.Outcome.next.inj h).symm
    · cases h
  | writeReadOnly r v => cases h
  | store a v =>
    refine .inr (.inr (.inr (.inr (.inr (.inl ⟨a, v, rfl, ?_⟩)))))
    simp only [hostStep, hostStore] at h
    split at h
    · rename_i hr
      exact ⟨hr, (Host.Outcome.next.inj h).symm⟩
    · cases h
  | reset => exact .inr (.inr (.inr (.inr (.inr (.inr ⟨rfl, (Host.Outcome.next.inj h).symm⟩)))))

/-! ### Runs -/

theorem machine_run_succ (M : Host.Core) {k : Nat} {s u : M.State} (h : M.step s = .next u) :
    M.run (k + 1) s = M.run k u := by
  rw [Host.Core.run, h]

theorem machine_run_succ_next (M : Host.Core) {k : Nat} {s t : M.State} (h : M.run (k + 1) s = .next t) :
    ∃ u, M.step s = .next u ∧ M.run k u = .next t := by
  rw [Host.Core.run] at h
  split at h
  · rename_i u hu
    exact ⟨u, hu, h⟩
  · cases h
  · cases h

/-- The first step of a run. -/
theorem run_succ {k : Nat} {s u : State} (h : step s = .next u) :
    Host.Core.run Sys2Proof.core (k + 1) s = Host.Core.run Sys2Proof.core k u :=
  machine_run_succ Sys2Proof.core h

/-- The first step of a run that goes on. -/
theorem run_succ_next {k : Nat} {s t : State} (h : Host.Core.run Sys2Proof.core (k + 1) s = .next t) :
    ∃ u, step s = .next u ∧ Host.Core.run Sys2Proof.core k u = .next t :=
  machine_run_succ_next Sys2Proof.core h

end Sys2Proof.Machine
end

