-- ==== Sys2Proof/Laws/Bodies.lean ====
section
/-! SUPPORT. What the body of each operation can answer, said once for all 34 (spec/10_state.md R36): every
answer has passed its checks, and only six operations ask for hint words. A proof about one operation opens
its body with `simp only [bodyOf]` (never by unification: `whnf` unfolds the field arithmetic). -/

namespace Sys2Proof.Machine

/-! ### What an issue and a completion leave alone -/

/-- Every answer of a body leaves `OP`, `ARG`, the host's script and the platform as the issue set them. -/
theorem applyPlan_fields (s : State) (r : Except FaultCause Plan) :
    (applyPlan s r).op = s.op ∧ (applyPlan s r).arg = s.arg ∧ (applyPlan s r).host = s.host ∧
      (applyPlan s r).plat = s.plat := by
  cases r with
  | error c => exact ⟨rfl, rfl, rfl, rfl⟩
  | ok pl =>
    cases pl with
    | done ss ret => exact ⟨rfl, rfl, rfl, rfl⟩
    | hint p =>
      by_cases h : p.need ≤ s.hintq.length
      · simp only [applyPlan, startHinted_completes h]
        rcases complete_cases p (recordQuery p.query s) with ⟨ss, ret, _, h⟩ | ⟨c, _, h⟩ <;> rw [h] <;>
          exact ⟨rfl, rfl, rfl, rfl⟩
      · simp only [applyPlan, startHinted_waits (Nat.lt_of_not_le h)]
        exact ⟨rfl, rfl, rfl, rfl⟩

/-- A completion ends in `IDLE` with `CAUSE` unchanged, or in `FAULT` with memory and `RET` unchanged. -/
theorem complete_idle_or_fault (p : Pend) (s : State) :
    (complete p s).pend = none ∧
    ((complete p s).status = statusIdle ∧ (complete p s).cause = s.cause ∨
      ((complete p s).status = statusFault ∧ (complete p s).mem = s.mem ∧ (complete p s).ret = s.ret ∧
        ∃ c : FaultCause, (complete p s).cause = c.code)) ∧
    (complete p s).arg = s.arg ∧ (complete p s).op = s.op := by
  rcases complete_cases p s with ⟨ss, ret, _, h⟩ | ⟨c, _, h⟩ <;> rw [h]
  · exact ⟨rfl, .inl ⟨rfl, rfl⟩, rfl, rfl⟩
  · exact ⟨rfl, .inr ⟨rfl, rfl, rfl, c, rfl⟩, rfl, rfl⟩

/-- The bytes a little-endian write leaves (spec/20_memory.md R52). -/
theorem Memory.writeLE_read_byte (m : Memory) (n a v k : Nat) (hm : m.wf) (hk : k < n) (ha : a + n ≤ 2 ^ 64) :
    (m.writeLE a n v).read (a + k) = BitVec.ofNat 8 (v / 2 ^ (8 * k)) := by
  induction n generalizing m a v k with
  | zero => omega
  | succ n ih =>
    rw [Memory.writeLE]
    cases k with
    | zero => rw [Memory.writeLE_read_other _ _ _ _ _ (by omega)]; simp [Memory.read_write_same hm]
    | succ k =>
      have := ih (m.write a (BitVec.ofNat 8 v)) (a+1) (v / 2^8) k (Memory.write_wf hm _ (by omega)) (by omega) (by omega)
      rw [show a + (k+1) = a + 1 + k by omega, this, Nat.div_div_eq_div_mul, ← pow_add]
      congr 3; ring

/-! ### Answers that passed their checks -/

/-- What the checks of an issue leave true of what a body answers: its output buffers are inside the address
space, its latched record has passed the checks. -/
def planOk (pl : Platform) : Plan → Prop
  | .done ss _ => storesInSpace ss
  | .hint p => pendOk pl p

/-- A body that answers has passed the memory checks of its format. -/
theorem memoryFault_none_of_ok {f : Format} {s : State} {α} {k : Unit → Except FaultCause α} {x : α}
    (h : (checkFormat s f >>= k) = .ok x) : memoryFault s f = none ∧ k () = .ok x := by
  cases hm : memoryFault s f with
  | none => rw [body_noMemoryFault hm] at h; exact ⟨rfl, h⟩
  | some c => rw [body_memoryFault hm] at h; cases h

/-- A format without memory fault: each written buffer passed its checks. -/
theorem outputOk_of_format {f : Format} {s : State} (h : memoryFault s f = none) {b : Buf}
    (hb : b ∈ f.bufs) (ha : b.acc = .write): outputOk s.plat (structWord s b.word) b.size := by
  have := (memoryFault_none h).2.2 b hb
  rw [ha] at this; exact this

theorem buffer_in_space {f : Format} {s : State} (h : memoryFault s f = none) {b : Buf}
    (hb : b ∈ f.bufs) : ptr s b.word + b.size ≤ 2^64 :=
  rangeOk_space ((memoryFault_none h).2.2 b hb).2

theorem store_int_in_space {a l v : Nat} (h : a + 8 * l ≤ 2^64) : storesInSpace [Store.int l a v] := by
  intro st hst; simp at hst; subst hst; simpa [Store.int] using h

theorem store_point_in_space {a : Nat} {q : Point} (h : a + 64 ≤ 2^64) : storesInSpace [Store.point a q] := by
  intro st hst; simp at hst; subst hst; simp [Store.point]; omega

theorem store_fp2_in_space {a : Nat} {q : Fp2} (h : a + 64 ≤ 2^64) : storesInSpace [Store.fp2 a q] := by
  intro st hst; simp at hst; subst hst; simp [Store.fp2]; omega

/-- What a completion writes stays in the address space. -/
theorem result_in_space {pl : Platform} {p : Pend} (hp : pendOk pl p) {ws ss ret}
    (h : p.result ws = .ok (ss, ret)) : storesInSpace ss := by
  cases p <;> simp only [Pend.result, bind_ok_iff] at h <;> obtain ⟨r, _, h⟩ := h <;> injection h with h <;> injection h with h1 h2 <;> subst h1
  · exact store_int_in_space (rangeOk_space hp.2.2.2)
  · exact store_int_in_space (rangeOk_space hp.2.2.2)
  · exact store_int_in_space (rangeOk_space hp.2.2.2)
  · exact store_point_in_space (rangeOk_space hp.2.2.2.2)
  · exact store_point_in_space (rangeOk_space hp.2.2.2)
  · exact store_point_in_space (rangeOk_space hp.2.2.2.2)

theorem fieldOp2_planOk (l : Nat) (f) (s : State) (pl) (h : fieldOp2 l f s = .ok pl) : planOk s.plat pl := by
  rw [fieldOp2_eq, bind_ok_iff] at h
  obtain ⟨_, h1, h⟩ := h
  injection h with h; subst h
  cases hm : memoryFault s (formatF4 l) with
  | none => exact store_int_in_space (buffer_in_space hm (b := ⟨3, 8*l, .write⟩) (by simp [formatF4]))
  | some c => rw [hm] at h1; cases h1

theorem fieldOp1_planOk (l : Nat) (f) (s : State) (pl) (h : fieldOp1 l f s = .ok pl) : planOk s.plat pl := by
  rw [fieldOp1_eq, bind_ok_iff] at h
  obtain ⟨_, h1, h⟩ := h
  injection h with h; subst h
  cases hm : memoryFault s (formatF5 l) with
  | none => exact store_int_in_space (buffer_in_space hm (b := ⟨2, 8*l, .write⟩) (by simp [formatF5]))
  | some c => rw [hm] at h1; cases h1

theorem pointOp2_planOk (f) (s : State) (pl) (h : pointOp2 f s = .ok pl) : planOk s.plat pl := by
  obtain ⟨hm, h⟩ := memoryFault_none_of_ok h
  simp only [bind_ok_iff] at h
  obtain ⟨r, _, h⟩ := h
  injection h with h; subst h
  exact store_point_in_space (buffer_in_space hm (b := ⟨0, 64, .write⟩) (by simp [formatF8]))

theorem pointOp1_planOk (f) (s : State) (pl) (h : pointOp1 f s = .ok pl) : planOk s.plat pl := by
  obtain ⟨hm, h⟩ := memoryFault_none_of_ok h
  simp only [bind_ok_iff] at h
  obtain ⟨r, _, h⟩ := h
  injection h with h; subst h
  exact store_point_in_space (rangeOk_space (memoryFault_none hm).2.1)

theorem fp2Op2_planOk (f) (s : State) (pl) (h : fp2Op2 f s = .ok pl) : planOk s.plat pl := by
  obtain ⟨hm, h⟩ := memoryFault_none_of_ok h
  simp only [bind_ok_iff] at h
  obtain ⟨r, _, h⟩ := h
  injection h with h; subst h
  exact store_fp2_in_space (buffer_in_space hm (b := ⟨0, 64, .write⟩) (by simp [formatF8]))

theorem fieldChecks1_lt {a m : Nat} (h : fieldChecks1 a m = .ok ()) : a < m := by
  rw [fieldChecks1_eq, fieldFault1] at h
  split_ifs at h <;> first | assumption | cases h

theorem modinvF_planOk (l) (s : State) (pl) (h : bodyModinvF l s = .ok pl) : planOk s.plat pl := by
  obtain ⟨hm, h⟩ := memoryFault_none_of_ok h
  simp only [bind_ok_iff] at h
  obtain ⟨_, hc, h⟩ := h
  split_ifs at h
  · injection h with h; subst h; intro st hst; cases hst
  · simp only [bind_ok_iff] at h
    obtain ⟨_, _, h⟩ := h
    injection h with h; subst h
    exact store_int_in_space (buffer_in_space hm (b := ⟨2, 8*l, .write⟩) (by simp [formatF5]))

theorem modinvH_planOk (l latch) (s : State) (pl) (h : bodyModinvH l latch s = .ok pl)
   (hl : memoryFault s (formatF5 l) = none → 0 < intAt s l 0 → intAt s l 0 < intAt s l 1 → pendOk s.plat (latch (intAt s l 0) (intAt s l 1))) : planOk s.plat pl := by
  obtain ⟨hm, h⟩ := memoryFault_none_of_ok h
  simp only [bind_ok_iff] at h
  obtain ⟨_, hc, h⟩ := h
  split_ifs at h
  · injection h with h; subst h; intro st hst; cases hst
  · injection h with h; subst h
    exact hl hm (by omega) (fieldChecks1_lt hc)

/-- A latched integer operand is the operand. -/
theorem toNat_intAt (s : State) (l k w) (hw : w = 64 * l): (BitVec.ofNat w (intAt s l k)).toNat =
    intAt s l k := by
  subst hw
  rw [BitVec.toNat_ofNat, Nat.mod_eq_of_lt (intAt_lt _ _ _)]

theorem pointAt_lt (s : State) (k) : (pointAt s k).x < 2^256 ∧ (pointAt s k).y < 2^256 :=
    ⟨rdInt_lt _ 4 _, rdInt_lt _ 4 _⟩

/-- A latched point operand is the point. -/
theorem toNat_pointAt (s : State) (k) :
    (⟨(BitVec.ofNat 256 (pointAt s k).x).toNat, (BitVec.ofNat 256 (pointAt s k).y).toNat⟩ : Point) =
    pointAt s k := by
  rw [BitVec.toNat_ofNat, BitVec.toNat_ofNat, Nat.mod_eq_of_lt (pointAt_lt s k).1, Nat.mod_eq_of_lt (pointAt_lt s k).2]

theorem rdDigits_length (m : Memory) (a n : Nat) : (rdDigits m a n).length = n := by
  induction n generalizing a with
  | zero => rfl
  | succ n ih => simp [rdDigits, ih]

theorem digitsPadded_length (n v : Nat) : (digitsPadded n v).length = n := by
  induction n generalizing v with
  | zero => rfl
  | succ n ih => simp [digitsPadded, ih]

theorem flatMap_toLimbs_length (l : Nat) (ds : List Nat) : (ds.flatMap (toLimbs l)).length = l * ds.length := by
  induction ds with
  | nil => rfl
  | cons d rest ih => simp only [List.flatMap_cons, List.length_append, toLimbs_length, ih, List.length_cons]; ring

/-- What every operation's body answers has passed its checks. -/
theorem bodyOf_planOk (i : Instr) (s : State) (pl) (h : bodyOf i s = .ok pl) : planOk s.plat pl := by
  cases i
  case add256 =>
    simp only [bodyOf, bodyAdd256] at h
    obtain ⟨hm, h⟩ := memoryFault_none_of_ok h
    simp only [bind_ok_iff] at h
    obtain ⟨_, _, h⟩ := h
    injection h with h; subst h
    exact store_int_in_space (buffer_in_space hm (b := ⟨3, 32, .write⟩) (by simp [formatF1]))
  case arith256 =>
    simp only [bodyOf, bodyArith256] at h
    obtain ⟨hm, h⟩ := memoryFault_none_of_ok h
    injection h with h; subst h
    have h1 := buffer_in_space hm (b := ⟨3, 32, .write⟩) (by simp [formatF2])
    have h2 := buffer_in_space hm (b := ⟨4, 32, .write⟩) (by simp [formatF2])
    simp only at h1 h2
    intro st hst
    simp at hst
    rcases hst with rfl | rfl <;> simp [Store.int] <;> omega
  case arith256Mod | arith384Mod =>
    simp only [bodyOf, bodyArithMod] at h
    obtain ⟨hm, h⟩ := memoryFault_none_of_ok h
    simp only [bind_ok_iff] at h
    obtain ⟨_, _, h⟩ := h
    injection h with h; subst h
    exact store_int_in_space (buffer_in_space hm (b := ⟨4, 8*_, .write⟩) (by simp [formatF3]))
  case modinv256F | modinv384F => simp only [bodyOf] at h; exact modinvF_planOk _ _ _ h
  case modinv256H =>
    simp only [bodyOf] at h
    refine modinvH_planOk _ _ _ _ h fun hm h0 h1 => ?_
    simp only [pendOk, toNat_intAt s 4 _ 256 rfl]
    exact ⟨h0, h1, outputOk_of_format hm (b := ⟨2, 32, .write⟩) (by simp [formatF5]) rfl⟩
  case modinv384H =>
    simp only [bodyOf] at h
    refine modinvH_planOk _ _ _ _ h fun hm h0 h1 => ?_
    simp only [pendOk, toNat_intAt s 6 _ 384 rfl]
    exact ⟨h0, h1, outputOk_of_format hm (b := ⟨2, 48, .write⟩) (by simp [formatF5]) rfl⟩
  case bn254FpInv =>
    simp only [bodyOf, bodyBn254FpInv] at h
    obtain ⟨hm, h⟩ := memoryFault_none_of_ok h
    simp only [bind_ok_iff] at h
    obtain ⟨_, hr, h⟩ := h
    rw [require_ok_iff, decide_eq_true_eq] at hr
    split_ifs at h
    · injection h with h; subst h
      exact store_int_in_space (buffer_in_space hm (b := ⟨1, 32, .write⟩) (by simp [formatF6]))
    · injection h with h; subst h
      simp only [planOk, pendOk, toNat_intAt s 4 _ 256 rfl]
      exact ⟨by omega, hr, outputOk_of_format hm (b := ⟨1, 32, .write⟩) (by simp [formatF6]) rfl⟩
  case modexp =>
    simp only [bodyOf, bodyModexp, checkF7_eq] at h
    cases hm : modexpFault s with
    | some c => rw [hm] at h; cases h
    | none =>
      rw [hm] at h
      simp only [answer_none, ok_bind, bind_ok_iff] at h
      obtain ⟨_, _, r, _, h⟩ := h
      injection h with h; subst h
      simp only [modexpFault, Option.or_eq_none_iff] at hm
      have ho := hm.2.2.2.2
      split_ifs at ho with h1 h2
      have := rangeOk_space (by simpa using h2)
      intro st hst
      simp at hst; subst hst
      have hl : (arbAt s 2).length = (rdW s.mem (ptr s 2)).toNat := rdDigits_length _ _ _
      simp [Store.arb, digitsPadded_length, hl]
      omega
  case secp256k1Add | secp256k1Cadd | bn254CurveAdd | bn254Cadd => simp only [bodyOf] at h; exact pointOp2_planOk _ _ _ h
  case secp256k1Dbl | bn254CurveDbl => simp only [bodyOf] at h; exact pointOp1_planOk _ _ _ h
  case bn254ComplexAdd | bn254ComplexSub | bn254ComplexMul => simp only [bodyOf] at h; exact fp2Op2_planOk _ _ _ h
  case secp256k1Mul =>
    simp only [bodyOf, bodySecpMul] at h
    obtain ⟨hm, h⟩ := memoryFault_none_of_ok h
    simp only [bind_ok_iff] at h
    obtain ⟨_, hr, h⟩ := h
    rw [require_ok_iff] at hr
    split_ifs at h with hz
    · injection h with h; subst h
      exact store_point_in_space (buffer_in_space hm (b := ⟨2, 64, .write⟩) (by simp [formatF10]))
    · injection h with h; subst h
      rw [not_or] at hz
      simp only [planOk, pendOk, toNat_intAt s 4 _ 256 rfl, toNat_pointAt]
      exact ⟨by omega, hr, by simpa using hz.2, outputOk_of_format hm (b := ⟨2, 64, .write⟩) (by simp [formatF10]) rfl⟩
  case secp256k1DmulG =>
    simp only [bodyOf, bodySecpDmulG] at h
    obtain ⟨hm, h⟩ := memoryFault_none_of_ok h
    simp only [bind_ok_iff] at h
    obtain ⟨_, hr, h⟩ := h
    rw [require_ok_iff] at hr
    split_ifs at h with hz
    · injection h with h; subst h
      exact store_point_in_space (buffer_in_space hm (b := ⟨3, 64, .write⟩) (by simp [formatF11]))
    · injection h with h; subst h
      simp only [planOk, pendOk, toNat_intAt s 4 _ 256 rfl, toNat_pointAt]
      exact ⟨by omega, hr, outputOk_of_format hm (b := ⟨3, 64, .write⟩) (by simp [formatF11]) rfl⟩
  case bn254Ecadd =>
    simp only [bodyOf, bodyBn254Ecadd] at h
    obtain ⟨hm, h⟩ := memoryFault_none_of_ok h
    have hs := (buffer_in_space hm (b := ⟨2, 64, .write⟩) (by simp [formatF12]))
    split at h
    · injection h with h; subst h; exact store_point_in_space hs
    · simp only [bind_ok_iff] at h
      obtain ⟨_, _, h⟩ := h
      injection h with h; subst h; exact store_point_in_space hs
  case bn254Ecmul =>
    simp only [bodyOf, bodyBn254Ecmul] at h
    obtain ⟨hm, h⟩ := memoryFault_none_of_ok h
    have hs := (buffer_in_space hm (b := ⟨2, 64, .write⟩) (by simp [formatF10]))
    split at h
    · injection h with h; subst h; exact store_point_in_space hs
    · rename_i hc
      split_ifs at h with hz
      · injection h with h; subst h; exact store_point_in_space hs
      · injection h with h; subst h
        rw [not_or] at hz
        simp only [planOk, pendOk, toNat_intAt s 4 _ 256 rfl, toNat_pointAt]
        refine ⟨by omega, ?_, by simpa using hz.2, outputOk_of_format hm (b := ⟨2, 64, .write⟩) (by simp [formatF10]) rfl⟩
        simp only [checkG1] at hc
        split_ifs at hc with h1 h2 h3
        simp only [validPoint, coordsOk, Bool.and_eq_true, decide_eq_true_eq, Bool.or_eq_true]
        refine ⟨⟨by omega, by omega⟩, ?_⟩
        simp at h3
        cases hi : isId (pointAt s 1)
        · right; exact h3 hi
        · left; rfl
  case bn254Ecpairing =>
    simp only [bodyOf, bodyBn254Ecpairing, checkF13_eq] at h
    cases hm : pairingFault s with
    | some c => rw [hm] at h; cases h
    | none =>
      rw [hm] at h
      have hs : ptr s 3 + 8 ≤ 2 ^ 64 := by
        simp only [pairingFault, Option.or_eq_none_iff] at hm
        have ho := hm.2
        split_ifs at ho with h1 h2 h3 h4 h5 h6 h7
        exact rangeOk_space (by simpa using h7)
      have hb : ∀ b, storesInSpace [Store.bool (ptr s 3) b] := by
        intro b st hst; simp at hst; subst hst; simp [Store.bool]; omega
      simp only [answer_none, ok_bind, bind_ok_iff] at h
      obtain ⟨c, _, h⟩ := h
      split at h
      · injection h with h; subst h; exact hb _
      · simp only [bind_ok_iff] at h
        obtain ⟨b, _, h⟩ := h
        injection h with h; subst h; exact hb _
  case modadd256 | modsub256 | modadd384 | modsub384 | modmul256 | modmul384 =>
    simp only [bodyOf] at h
    exact fieldOp2_planOk _ _ _ _ h
  case modneg256 | modneg384 | modsqr256 | modsqr384 =>
    simp only [bodyOf] at h
    exact fieldOp1_planOk _ _ _ _ h

/-- Only six operations ask for hint words, each with its own record. -/
theorem bodyOf_hint {i : Instr} {s : State} {p : Pend} (h : bodyOf i s = .ok (.hint p)) : p.instr = i ∧
   i ∈ [Instr.modinv256H, .modinv384H, .bn254FpInv, .secp256k1Mul, .secp256k1DmulG, .bn254Ecmul] := by
  have nof2 : ∀ l f, fieldOp2 l f s ≠ .ok (.hint p) := by
    intro l f h; rw [fieldOp2_eq, bind_ok_iff] at h; obtain ⟨_, _, h⟩ := h; cases h
  have nof1 : ∀ l f, fieldOp1 l f s ≠ .ok (.hint p) := by
    intro l f h; rw [fieldOp1_eq, bind_ok_iff] at h; obtain ⟨_, _, h⟩ := h; cases h
  have nop2 : ∀ f, pointOp2 f s ≠ .ok (.hint p) := by
    intro f h; simp only [pointOp2, bind_ok_iff] at h; obtain ⟨_, _, _, _, h⟩ := h; cases h
  have nop1 : ∀ f, pointOp1 f s ≠ .ok (.hint p) := by
    intro f h; simp only [pointOp1, bind_ok_iff] at h; obtain ⟨_, _, _, _, h⟩ := h; cases h
  have nofp : ∀ f, fp2Op2 f s ≠ .ok (.hint p) := by
    intro f h; simp only [fp2Op2, bind_ok_iff] at h; obtain ⟨_, _, _, _, h⟩ := h; cases h
  cases i <;> simp only [bodyOf] at h
  case add256 => simp only [bodyAdd256, bind_ok_iff] at h; obtain ⟨_, _, _, _, h⟩ := h; cases h
  case modadd256 | modsub256 | modadd384 | modsub384 | modmul256 | modmul384 => exact absurd h (nof2 _ _)
  case modneg256 | modneg384 | modsqr256 | modsqr384 => exact absurd h (nof1 _ _)
  case arith256 => simp only [bodyArith256, bind_ok_iff] at h; obtain ⟨_, _, h⟩ := h; cases h
  case arith256Mod | arith384Mod => simp only [bodyArithMod, bind_ok_iff] at h; obtain ⟨_, _, _, _, h⟩ := h; cases h
  case modinv256F | modinv384F =>
    simp only [bodyModinvF, bind_ok_iff] at h; obtain ⟨_, _, _, _, h⟩ := h
    split_ifs at h
    · cases h
    · simp only [bind_ok_iff] at h; obtain ⟨_, _, h⟩ := h; cases h
  case modinv256H | modinv384H =>
    simp only [bodyModinvH, bind_ok_iff] at h; obtain ⟨_, _, _, _, h⟩ := h
    split_ifs at h
    · cases h
    · injection h with h; injection h with h; subst h; exact ⟨rfl, by decide⟩
  case bn254FpInv =>
    simp only [bodyBn254FpInv, bind_ok_iff] at h; obtain ⟨_, _, _, _, h⟩ := h
    split_ifs at h
    · cases h
    · injection h with h; injection h with h; subst h; exact ⟨rfl, by decide⟩
  case modexp => simp only [bodyModexp, bind_ok_iff] at h; obtain ⟨_, _, _, _, _, _, h⟩ := h; cases h
  case secp256k1Add | secp256k1Cadd | bn254CurveAdd | bn254Cadd => exact absurd h (nop2 _)
  case secp256k1Dbl | bn254CurveDbl => exact absurd h (nop1 _)
  case bn254ComplexAdd | bn254ComplexSub | bn254ComplexMul => exact absurd h (nofp _)
  case secp256k1Mul =>
    simp only [bodySecpMul, bind_ok_iff] at h; obtain ⟨_, _, _, _, h⟩ := h
    split_ifs at h
    · cases h
    · injection h with h; injection h with h; subst h; exact ⟨rfl, by decide⟩
  case secp256k1DmulG =>
    simp only [bodySecpDmulG, bind_ok_iff] at h; obtain ⟨_, _, _, _, h⟩ := h
    split_ifs at h
    · cases h
    · injection h with h; injection h with h; subst h; exact ⟨rfl, by decide⟩
  case bn254Ecadd =>
    simp only [bodyBn254Ecadd, bind_ok_iff] at h; obtain ⟨_, _, h⟩ := h
    split at h
    · cases h
    · simp only [bind_ok_iff] at h; obtain ⟨_, _, h⟩ := h; cases h
  case bn254Ecmul =>
    simp only [bodyBn254Ecmul, bind_ok_iff] at h; obtain ⟨_, _, h⟩ := h
    split at h
    · cases h
    · split_ifs at h
      · cases h
      · injection h with h; injection h with h; subst h; exact ⟨rfl, by decide⟩
  case bn254Ecpairing =>
    simp only [bodyBn254Ecpairing, bind_ok_iff] at h; obtain ⟨_, _, _, _, h⟩ := h
    split at h
    · cases h
    · simp only [bind_ok_iff] at h; obtain ⟨_, _, h⟩ := h; cases h

end Sys2Proof.Machine
end

