-- ==== Sys2Proof/Laws/Curve.lean ====
section
/-! SUPPORT. The point formulas of spec/44_secp256k1.md as equations in the field with `p` elements: what the
slopes, the third point of a line, the curve test and the loops of `smul` compute. -/

namespace Sys2Proof.Machine

open WeierstrassCurve

section
variable {p b : ℕ} [hp : Fact p.Prime]

theorem prime_pos : 0 < p := hp.out.pos

/-- A residue is 0 exactly when its representative is. -/
theorem cast_zero_iff {a : ℕ} (h : a < p) : (a : ZMod p) = 0 ↔ a = 0 := by
  constructor
  · intro h0; exact eq_of_cast_eq h prime_pos (by simpa using h0)
  · rintro rfl; simp

/-- `invm` is the inverse of the field (spec/00_scope.md R16). -/
theorem invm_cast {a : ℕ} (hlt : a < p) (h : a ≠ 0) : ((invm a p : ℕ) : ZMod p) = (a : ZMod p)⁻¹ := by
  have hg : Nat.gcd a p = 1 := by
    rw [Nat.gcd_comm]; exact (Nat.Prime.coprime_iff_not_dvd hp.out).2 (fun hd => by have := Nat.le_of_dvd (Nat.pos_of_ne_zero h) hd; omega)
  have := (invm_spec hp.out.one_lt hg).1
  have h2 : (a : ZMod p) * (invm a p : ℕ) = 1 := by rw [← mulm_cast, this, Nat.cast_one]
  exact (eq_inv_of_mul_eq_one_right h2)

/-- `invm` of a difference of two distinct residues. -/
theorem invm_sub_cast {a c : ℕ} (ha : a < p) (hc : c < p) (h : a ≠ c) :
    ((invm (subm c a p) p : ℕ) : ZMod p) = ((c : ZMod p) - a)⁻¹ := by
  have h0 : subm c a p ≠ 0 := by
    intro h0
    have := subm_cast c a (prime_pos (p := p))
    rw [h0, Nat.cast_zero] at this
    exact h (eq_of_cast_eq ha hc (sub_eq_zero.1 this.symm).symm)
  rw [invm_cast (subm_lt _ _ prime_pos) h0, subm_cast _ _ prime_pos]

/-- The third point of a line, as equations modulo `p` (spec/44_secp256k1.md R201, R202). -/
theorem chordPoint_spec (lam : ℕ) (q1 : Point) (x2 : ℕ) :
    (chordPoint lam q1 x2 p).x < p ∧ (chordPoint lam q1 x2 p).y < p ∧
    ((chordPoint lam q1 x2 p).x : ZMod p) = (lam : ZMod p) ^ 2 - q1.x - x2 ∧
    ((chordPoint lam q1 x2 p).y : ZMod p) = lam * (q1.x - (chordPoint lam q1 x2 p).x) - q1.y := by
  refine ⟨subm_lt _ _ prime_pos, subm_lt _ _ prime_pos, ?_, ?_⟩
  · simp only [chordPoint]; rw [subm_cast _ _ prime_pos, subm_cast _ _ prime_pos, mulm_cast]; ring
  · simp only [chordPoint]; rw [subm_cast _ _ prime_pos, mulm_cast, subm_cast (m := p) q1.x _ prime_pos]

/-- The chord slope in the field (spec/44_secp256k1.md R201). -/
theorem addSlope_cast {q1 q2 : Point} (h1 : q1.x < p) (h2 : q2.x < p) (h : q1.x ≠ q2.x) :
    ((addSlope q1 q2 p : ℕ) : ZMod p) = (q2.y - q1.y) * ((q2.x : ZMod p) - q1.x)⁻¹ := by
  rw [addSlope, mulm_cast, subm_cast _ _ prime_pos, invm_sub_cast h1 h2 h]

theorem two_ne_zero_of_lt (h3 : 3 < p) : (2 : ZMod p) ≠ 0 := by
  have := (cast_zero_iff (p := p) (a := 2) (by omega)).not.2 (by norm_num)
  exact_mod_cast this

theorem three_ne_zero_of_lt (h3 : 3 < p) : (3 : ZMod p) ≠ 0 := by
  have := (cast_zero_iff (p := p) (a := 3) (by omega)).not.2 (by norm_num)
  exact_mod_cast this

/-- The tangent slope in the field (spec/44_secp256k1.md R202). -/
theorem dblSlope_cast {q : Point} (h3 : 3 < p) (h1 : q.y < p) (h : q.y ≠ 0) :
    ((dblSlope q p : ℕ) : ZMod p) = 3 * (q.x : ZMod p) ^ 2 * (2 * (q.y : ZMod p))⁻¹ := by
  have h0 : mulm 2 q.y p ≠ 0 := by
    intro h0
    have := mulm_cast 2 q.y p
    rw [h0, Nat.cast_zero] at this
    rcases mul_eq_zero.1 this.symm with h' | h'
    · exact two_ne_zero_of_lt h3 (by exact_mod_cast h')
    · exact h ((cast_zero_iff h1).1 h')
  rw [dblSlope, mulm_cast, mulm_cast, mulm_cast, invm_cast (mulm_lt _ _ prime_pos) h0, mulm_cast]
  push_cast; ring

theorem curve_const_ne_zero (hb : b % p ≠ 0) : (b : ZMod p) ≠ 0 := fun h => hb (by
  have := (ZMod.natCast_eq_zero_iff b p).1 h
  exact Nat.mod_eq_zero_of_dvd this)

/-- Every solution of the curve equation is a nonsingular point of it. -/
theorem nonsingular_iff (h3 : 3 < p) (hb : b % p ≠ 0) (x y : ZMod p) :
    (shortCurve p b).Nonsingular x y ↔ y ^ 2 = x ^ 3 + b := by
  rw [← Affine.equation_iff_nonsingular_of_Δ_ne_zero, Affine.equation_iff]
  · simp [shortCurve]
  · have : (shortCurve p b).Δ = -(3^3 * 2^4) * (b : ZMod p)^2 := by
      simp [WeierstrassCurve.Δ, WeierstrassCurve.b₂, WeierstrassCurve.b₄, WeierstrassCurve.b₆, WeierstrassCurve.b₈, shortCurve]; ring
    rw [this]
    exact mul_ne_zero (neg_ne_zero.2 (mul_ne_zero (pow_ne_zero _ (three_ne_zero_of_lt h3)) (pow_ne_zero _ (two_ne_zero_of_lt h3)))) (pow_ne_zero _ (curve_const_ne_zero hb))

/-- `on_curve` is the curve equation in the field (spec/44_secp256k1.md R200). -/
theorem onCurve_iff (q : Point) : onCurve q p b = true ↔ (q.y : ZMod p) ^ 2 = (q.x : ZMod p) ^ 3 + b := by
  rw [onCurve, beq_iff_eq]
  constructor
  · intro h
    have := congrArg (fun n : ℕ => (n : ZMod p)) h
    simp only [mulm_cast, addm_cast, ZMod.natCast_mod] at this
    rw [pow_two, this]; ring
  · intro h
    refine eq_of_cast_eq (mulm_lt _ _ prime_pos) (addm_lt _ _ prime_pos) ?_
    rw [mulm_cast, addm_cast, mulm_cast, mulm_cast, ZMod.natCast_mod, ← pow_two, h]; ring

/-- `is_id` (spec/00_scope.md R17). -/
theorem isId_iff (q : Point) : isId q = true ↔ q = identity := by
  cases q; simp [isId, identity]

/-- What a pair that stands for a point of the group can be. -/
theorem represents_cases {q : Point} {g : (shortCurve p b).Point} (h : Represents q g) : 
    (q = identity ∧ g = 0) ∨ ∃ hn : (shortCurve p b).Nonsingular (q.x : ZMod p) (q.y : ZMod p), q.x < p ∧ q.y < p ∧ g = .some _ _ hn := by
  cases g with
  | zero => exact .inl ⟨h, rfl⟩
  | some x y hn => 
    obtain ⟨h1, h2, rfl, rfl⟩ := h
    exact .inr ⟨hn, h1, h2, rfl⟩

/-- No point that solves the equation is `(0, 0)`. -/
theorem not_isId_of_equation (hb : b % p ≠ 0) {q : Point}
    (h : (q.y : ZMod p) ^ 2 = (q.x : ZMod p) ^ 3 + b) : isId q = false := by
  by_contra hc
  simp [isId] at hc
  rw [hc.1, hc.2] at h
  simp at h
  exact curve_const_ne_zero hb h.symm

end

/-- One more bit of a shifted scalar. -/
theorem shift_succ (k i : ℕ) : k >>> i = 2 * (k >>> (i+1)) + bit k i := (bit_add_two_mul_shift k i).symm

/-- What the reconstruction accumulator of `smul` ends as (spec/44_secp256k1.md R207). -/
theorem smulLoop_rec (k : ℕ) (q : Point) (p : ℕ) (i : ℕ) (acc : Point) (rec : ℕ) (res)
    (h : smulLoop k q p i acc rec = .ok res) : res.2 = 2 ^ i * rec + k % 2 ^ i := by
  induction i generalizing acc rec with
  | zero => simp only [smulLoop] at h; injection h with h; subst h; simp [Nat.mod_one]
  | succ i ih =>
    simp only [smulLoop, bind_ok_iff] at h
    obtain ⟨d, _, h⟩ := h
    have h : ∃ s, smulLoop k q p i s (2 * rec + bit k i) = .ok res := by
      split at h
      · obtain ⟨s, _, h⟩ := bind_ok_iff.1 h; exact ⟨s, h⟩
      · exact ⟨_, h⟩
    obtain ⟨s, h⟩ := h
    rw [ih _ _ h]
    have : k % 2 ^ (i+1) = 2 ^ i * bit k i + k % 2 ^ i := by
      rw [pow_succ, Nat.mod_mul, bit, Nat.shiftRight_eq_div_pow]; ring
    rw [this, pow_succ]; ring

/-- A 1 bit with nothing above it is the most significant one. -/
theorem log2_of_bit {k h : ℕ} (hb : bit k h = 1) (hk : k < 2 ^ (h + 1)) : Nat.log2 k = h := by
  have h0 : 2 ^ h ≤ k := by
    by_contra hc
    have : k / 2 ^ h = 0 := Nat.div_eq_of_lt (by omega)
    rw [bit, Nat.shiftRight_eq_div_pow, this] at hb; simp at hb
  have hk0 : k ≠ 0 := by have : 0 < 2 ^ h := by positivity
                         omega
  exact (Nat.log2_eq_iff hk0).2 ⟨h0, hk⟩

end Sys2Proof.Machine
end

