-- ==== Sys2Proof/Laws/Pairing.lean ====
section
/-! SUPPORT. What the Fp2 operations of spec/46_bn254_pairing.md R260 and R264 mean in a ring in which `BN_P` is
0, and that their results are reduced: the lemmas by which the tower and the twist are read as rings. -/

namespace Sys2Proof.Machine

section
variable {A : Type} [CommRing A]

/-- Reduction modulo `p` does nothing where `p` is 0. -/
theorem cast_mod_of_zero {p : ℕ} (hp : (p : A) = 0) (n : ℕ) : ((n % p : ℕ) : A) = n := by
  have h : ((p * (n / p) + n % p : ℕ) : A) = n := by rw [Nat.div_add_mod]
  rw [← h, Nat.cast_add, Nat.cast_mul, hp, zero_mul, zero_add]

theorem addm_in {p : ℕ} (hp : (p : A) = 0) (a b : ℕ) : ((addm a b p : ℕ) : A) = a + b := by
  rw [addm, cast_mod_of_zero hp, Nat.cast_add]

theorem mulm_in {p : ℕ} (hp : (p : A) = 0) (a b : ℕ) : ((mulm a b p : ℕ) : A) = a * b := by
  rw [mulm, cast_mod_of_zero hp, Nat.cast_mul]

theorem subm_in {p : ℕ} (hp : (p : A) = 0) (h0 : 0 < p) (a b : ℕ) : ((subm a b p : ℕ) : A) = a - b := by
  rw [subm, cast_mod_of_zero hp, Nat.cast_add, Nat.cast_sub (Nat.mod_lt b h0).le, cast_mod_of_zero hp, hp]
  ring

theorem negm_in {p : ℕ} (hp : (p : A) = 0) (h0 : 0 < p) (a : ℕ) : ((negm a p : ℕ) : A) = -a := by
  rw [negm, cast_mod_of_zero hp, Nat.cast_sub (Nat.mod_lt a h0).le, cast_mod_of_zero hp, hp, zero_sub]

theorem bnP_pos : 0 < bnP := by decide +kernel

variable {i : A} (hp : (bnP : A) = 0)
include hp

theorem fp2In_add (a b : Fp2) : fp2In i (f2add a b) = fp2In i a + fp2In i b := by
  simp only [fp2In, f2add, addm_in hp]; ring

theorem fp2In_sub (a b : Fp2) : fp2In i (f2sub a b) = fp2In i a - fp2In i b := by
  simp only [fp2In, f2sub, subm_in hp bnP_pos]; ring

theorem fp2In_neg (a : Fp2) : fp2In i (f2neg a) = -fp2In i a := by
  simp only [fp2In, f2neg, negm_in hp bnP_pos]; ring

theorem fp2In_mul (hi : i ^ 2 = -1) (a b : Fp2) : fp2In i (f2mul a b) = fp2In i a * fp2In i b := by
  simp only [fp2In, f2mul, addm_in hp, subm_in hp bnP_pos, mulm_in hp]
  linear_combination -(a.im : A) * b.im * hi

theorem fp2In_xi (hi : i ^ 2 = -1) (a : Fp2) : fp2In i (f2xi a) = (9 + i) * fp2In i a := by
  simp only [fp2In, f2xi, addm_in hp, subm_in hp bnP_pos, mulm_in hp, Nat.cast_ofNat]
  linear_combination -(a.im : A) * hi

end

theorem f2add_reduced (a b : Fp2) : f2Reduced (f2add a b) = true := by
  simp [f2Reduced, f2add, addm, Nat.mod_lt _ bnP_pos]

theorem f2sub_reduced (a b : Fp2) : f2Reduced (f2sub a b) = true := by
  simp [f2Reduced, f2sub, subm, Nat.mod_lt _ bnP_pos]

theorem f2neg_reduced (a : Fp2) : f2Reduced (f2neg a) = true := by
  simp [f2Reduced, f2neg, negm, Nat.mod_lt _ bnP_pos]

theorem f2mul_reduced (a b : Fp2) : f2Reduced (f2mul a b) = true := by
  simp [f2Reduced, f2mul, addm, subm, Nat.mod_lt _ bnP_pos]

theorem f2xi_reduced (a : Fp2) : f2Reduced (f2xi a) = true := by
  simp [f2Reduced, f2xi, addm, subm, Nat.mod_lt _ bnP_pos]

end Sys2Proof.Machine
end

