-- ==== Sys2Proof/Laws/PerInstr.lean ====
section
/-! SUPPORT. One lemma per constructor of `Instr`: the operation is well formed, and the code the encoder
gives it is well formed and carries its `unit` and `fn` (spec/30_encoding.md R80, R81). -/

namespace Sys2Proof.Laws.EncodeWellFormed

/-- The statement about one operation. -/
def Statement (i : Instr) : Prop :=
  WellFormed i = true ∧ codeWellFormed (encode i) = true ∧ (unitField (encode i), fnField (encode i)) = i.unitFn

theorem add256 : Statement .add256 := by unfold Statement; decide

theorem modadd256 : Statement .modadd256 := by unfold Statement; decide

theorem modsub256 : Statement .modsub256 := by unfold Statement; decide

theorem modneg256 : Statement .modneg256 := by unfold Statement; decide

theorem modadd384 : Statement .modadd384 := by unfold Statement; decide

theorem modsub384 : Statement .modsub384 := by unfold Statement; decide

theorem modneg384 : Statement .modneg384 := by unfold Statement; decide

theorem arith256 : Statement .arith256 := by unfold Statement; decide

theorem arith256Mod : Statement .arith256Mod := by unfold Statement; decide

theorem arith384Mod : Statement .arith384Mod := by unfold Statement; decide

theorem modmul256 : Statement .modmul256 := by unfold Statement; decide

theorem modsqr256 : Statement .modsqr256 := by unfold Statement; decide

theorem modmul384 : Statement .modmul384 := by unfold Statement; decide

theorem modsqr384 : Statement .modsqr384 := by unfold Statement; decide

theorem modinv256F : Statement .modinv256F := by unfold Statement; decide

theorem modinv256H : Statement .modinv256H := by unfold Statement; decide

theorem modinv384F : Statement .modinv384F := by unfold Statement; decide

theorem modinv384H : Statement .modinv384H := by unfold Statement; decide

theorem bn254FpInv : Statement .bn254FpInv := by unfold Statement; decide

theorem modexp : Statement .modexp := by unfold Statement; decide

theorem secp256k1Add : Statement .secp256k1Add := by unfold Statement; decide

theorem secp256k1Dbl : Statement .secp256k1Dbl := by unfold Statement; decide

theorem secp256k1Cadd : Statement .secp256k1Cadd := by unfold Statement; decide

theorem secp256k1Mul : Statement .secp256k1Mul := by unfold Statement; decide

theorem secp256k1DmulG : Statement .secp256k1DmulG := by unfold Statement; decide

theorem bn254CurveAdd : Statement .bn254CurveAdd := by unfold Statement; decide

theorem bn254CurveDbl : Statement .bn254CurveDbl := by unfold Statement; decide

theorem bn254Cadd : Statement .bn254Cadd := by unfold Statement; decide

theorem bn254Ecadd : Statement .bn254Ecadd := by unfold Statement; decide

theorem bn254Ecmul : Statement .bn254Ecmul := by unfold Statement; decide

theorem bn254ComplexAdd : Statement .bn254ComplexAdd := by unfold Statement; decide

theorem bn254ComplexSub : Statement .bn254ComplexSub := by unfold Statement; decide

theorem bn254ComplexMul : Statement .bn254ComplexMul := by unfold Statement; decide

theorem bn254Ecpairing : Statement .bn254Ecpairing := by unfold Statement; decide

end Sys2Proof.Laws.EncodeWellFormed
end

