-- ==== Sys2Proof/Laws/Primes.lean ====
section
/-! SUPPORT. The field moduli `SECP_P` and `BN_P` are prime (spec/00_scope.md R7, R8), by certificates of
Lucas: a primitive root and the factors of `p - 1`, themselves certified. -/

namespace Sys2Proof.Machine

set_option Elab.async false

/-- Lucas' criterion, in a form the kernel evaluates: `fs` are the prime factors of `p - 1`. -/
theorem prime_of_lucas (p a : ℕ) (fs : List ℕ) (hf : ∀ q ∈ fs, q.Prime)
    (hc : (decide (1 < p) && (fs.prod == p - 1) && (powm a (p - 1) p == 1) &&
      fs.all fun q => powm a ((p - 1) / q) p != 1) = true) : p.Prime := by
  simp only [Bool.and_eq_true, decide_eq_true_eq, beq_iff_eq, List.all_eq_true, bne_iff_ne] at hc
  obtain ⟨⟨⟨hp, hprod⟩, h1⟩, h2⟩ := hc
  have hp0 : 0 < p := by omega
  have cast : ∀ e : ℕ, ((a : ZMod p) ^ e = 1 ↔ powm a e p = 1) := fun e => by
    have : ((a ^ e : ℕ) : ZMod p) = ((1 : ℕ) : ZMod p) ↔ a ^ e % p = 1 % p := ZMod.natCast_eq_natCast_iff _ _ _
    rwa [Nat.mod_eq_of_lt hp, Nat.cast_pow, Nat.cast_one, ← powm_eq hp0] at this
  refine lucas_primality p (a : ZMod p) ((cast _).2 h1) fun q hq hd => ?_
  rw [Ne, cast]
  rw [← hprod] at hd
  obtain ⟨r, hr, hqr⟩ := (hq.prime.dvd_prod_iff).1 hd
  rw [(Nat.prime_dvd_prime_iff_eq hq (hf r hr)).1 hqr]
  exact h2 r hr

theorem prime_405928799 : Nat.Prime 405928799 :=
  prime_of_lucas 405928799 22 [2, 11, 3691, 4999]
    (by simp only [List.forall_mem_cons, List.not_mem_nil, false_implies, implies_true, and_true]
        exact ⟨by norm_num, by norm_num, by norm_num, by norm_num⟩)
    (by decide +kernel)

theorem prime_11465965001 : Nat.Prime 11465965001 :=
  prime_of_lucas 11465965001 3 [2, 2, 2, 5, 5, 5, 5, 7, 327599]
    (by simp only [List.forall_mem_cons, List.not_mem_nil, false_implies, implies_true, and_true]
        exact ⟨by norm_num, by norm_num, by norm_num, by norm_num, by norm_num, by norm_num, by norm_num,
          by norm_num, by norm_num⟩)
    (by decide +kernel)

theorem prime_173171039 : Nat.Prime 173171039 :=
  prime_of_lucas 173171039 13 [2, 73, 89, 13327]
    (by simp only [List.forall_mem_cons, List.not_mem_nil, false_implies, implies_true, and_true]
        exact ⟨by norm_num, by norm_num, by norm_num, by norm_num⟩)
    (by decide +kernel)

theorem prime_1263766531 : Nat.Prime 1263766531 :=
  prime_of_lucas 1263766531 10 [2, 3, 5, 13, 911, 3557]
    (by simp only [List.forall_mem_cons, List.not_mem_nil, false_implies, implies_true, and_true]
        exact ⟨by norm_num, by norm_num, by norm_num, by norm_num, by norm_num, by norm_num⟩)
    (by decide +kernel)

theorem prime_35385462869 : Nat.Prime 35385462869 :=
  prime_of_lucas 35385462869 2 [2, 2, 7, 1263766531]
    (by simp only [List.forall_mem_cons, List.not_mem_nil, false_implies, implies_true, and_true]
        exact ⟨by norm_num, by norm_num, by norm_num, prime_1263766531⟩)
    (by decide +kernel)

theorem prime_2480874801745591 : Nat.Prime 2480874801745591 :=
  prime_of_lucas 2480874801745591 6 [2, 3, 3, 5, 19, 41, 35385462869]
    (by simp only [List.forall_mem_cons, List.not_mem_nil, false_implies, implies_true, and_true]
        exact ⟨by norm_num, by norm_num, by norm_num, by norm_num, by norm_num, by norm_num,
          prime_35385462869⟩)
    (by decide +kernel)

theorem prime_13427688667394608761327070753331941386769 : Nat.Prime 13427688667394608761327070753331941386769 :=
  prime_of_lucas 13427688667394608761327070753331941386769 17 [2, 2, 2, 2, 3, 7, 11, 1853641, 4562087,
    173171039, 2480874801745591]
    (by simp only [List.forall_mem_cons, List.not_mem_nil, false_implies, implies_true, and_true]
        exact ⟨by norm_num, by norm_num, by norm_num, by norm_num, by norm_num, by norm_num, by norm_num,
          by norm_num, by norm_num, prime_173171039, prime_2480874801745591⟩)
    (by decide +kernel)

theorem bnP_prime : Nat.Prime bnP :=
  prime_of_lucas bnP 3 [2, 3, 3, 13, 29, 67, 229, 311, 983, 11003, 405928799, 11465965001,
    13427688667394608761327070753331941386769]
    (by simp only [List.forall_mem_cons, List.not_mem_nil, false_implies, implies_true, and_true]
        exact ⟨by norm_num, by norm_num, by norm_num, by norm_num, by norm_num, by norm_num, by norm_num,
          by norm_num, by norm_num, by norm_num, prime_405928799, prime_11465965001,
            prime_13427688667394608761327070753331941386769⟩)
    (by decide +kernel)

theorem prime_173378833005251801 : Nat.Prime 173378833005251801 :=
  prime_of_lucas 173378833005251801 6 [2, 2, 2, 5, 5, 2621, 24809, 13331831]
    (by simp only [List.forall_mem_cons, List.not_mem_nil, false_implies, implies_true, and_true]
        exact ⟨by norm_num, by norm_num, by norm_num, by norm_num, by norm_num, by norm_num, by norm_num,
          by norm_num⟩)
    (by decide +kernel)

theorem prime_22149492674086928081353 : Nat.Prime 22149492674086928081353 :=
  prime_of_lucas 22149492674086928081353 5 [2, 2, 2, 3, 5323, 173378833005251801]
    (by simp only [List.forall_mem_cons, List.not_mem_nil, false_implies, implies_true, and_true]
        exact ⟨by norm_num, by norm_num, by norm_num, by norm_num, by norm_num, prime_173378833005251801⟩)
    (by decide +kernel)

theorem prime_132896956044521568488119 : Nat.Prime 132896956044521568488119 :=
  prime_of_lucas 132896956044521568488119 6 [2, 3, 22149492674086928081353]
    (by simp only [List.forall_mem_cons, List.not_mem_nil, false_implies, implies_true, and_true]
        exact ⟨by norm_num, by norm_num, prime_22149492674086928081353⟩)
    (by decide +kernel)

theorem prime_107590001 : Nat.Prime 107590001 :=
  prime_of_lucas 107590001 3 [2, 2, 2, 2, 5, 5, 5, 5, 7, 29, 53]
    (by simp only [List.forall_mem_cons, List.not_mem_nil, false_implies, implies_true, and_true]
        exact ⟨by norm_num, by norm_num, by norm_num, by norm_num, by norm_num, by norm_num, by norm_num,
          by norm_num, by norm_num, by norm_num, by norm_num⟩)
    (by decide +kernel)

theorem prime_255515944373312847190720520512484175977 : Nat.Prime 255515944373312847190720520512484175977 :=
  prime_of_lucas 255515944373312847190720520512484175977 3 [2, 2, 2, 7, 7, 11, 1627, 2657, 4423, 41201,
    96557, 7240687, 107590001]
    (by simp only [List.forall_mem_cons, List.not_mem_nil, false_implies, implies_true, and_true]
        exact ⟨by norm_num, by norm_num, by norm_num, by norm_num, by norm_num, by norm_num, by norm_num,
          by norm_num, by norm_num, by norm_num, by norm_num, by norm_num, prime_107590001⟩)
    (by decide +kernel)

theorem prime_205115282021455665897114700593932402728804164701536103180137503955397371 : Nat.Prime 205115282021455665897114700593932402728804164701536103180137503955397371 :=
  prime_of_lucas 205115282021455665897114700593932402728804164701536103180137503955397371 10 [2, 3, 5, 29,
    29, 31, 7723, 132896956044521568488119, 255515944373312847190720520512484175977]
    (by simp only [List.forall_mem_cons, List.not_mem_nil, false_implies, implies_true, and_true]
        exact ⟨by norm_num, by norm_num, by norm_num, by norm_num, by norm_num, by norm_num, by norm_num,
          prime_132896956044521568488119, prime_255515944373312847190720520512484175977⟩)
    (by decide +kernel)

theorem secpP_prime : Nat.Prime secpP :=
  prime_of_lucas secpP 3 [2, 3, 7, 13441,
    205115282021455665897114700593932402728804164701536103180137503955397371]
    (by simp only [List.forall_mem_cons, List.not_mem_nil, false_implies, implies_true, and_true]
        exact ⟨by norm_num, by norm_num, by norm_num, by norm_num,
          prime_205115282021455665897114700593932402728804164701536103180137503955397371⟩)
    (by decide +kernel)

end Sys2Proof.Machine
end

