-- ==== Sys2Proof/Tests/Slice0.lean ====
section
/-! SUPPORT. The model's own tests: refused codes, the decoding of every operation's code, one or two vectors of
spec/95_test_vectors.md per operation, and a witness for the hypotheses of each statement. -/

namespace Sys2Proof.Machine

set_option Elab.async false

/-! ### Helpers -/

/-- The cells of the `n` low bytes of `v` at `a`. -/
def byteCells : Nat → Nat → Nat → Memory
  | 0, _, _ => []
  | n + 1, a, v =>
    if v % 2 ^ 8 = 0 then byteCells n (a + 1) (v / 2 ^ 8)
    else (a, BitVec.ofNat 8 v) :: byteCells n (a + 1) (v / 2 ^ 8)

/-- Memory that holds some words at some addresses, given in rising order. -/
def memOf (bufs : List (Nat × List Word)) : Memory :=
  bufs.flatMap fun b => byteCells (8 * b.2.length) b.1 (fromLimbs b.2)

/-- An idle state with `ARG`, memory and hint words. -/
def idleAt (arg : Nat) (bufs : List (Nat × List Word)) (hints : List Word := []) : State :=
  { State.reset with arg := BitVec.ofNat 64 arg, mem := memOf bufs, hintq := hints }

/-- The words of a point. -/
def ptWords (x y : Nat) : List Word := toLimbs 4 x ++ toLimbs 4 y

/-- Whether `i` ends normally with `ret` in `RET` and the words `ws` at `a`. -/
def endsOk (i : Instr) (s : State) (ret : Nat) (a : Nat) (ws : List Word) : Bool :=
  match exec i s with
  | .next t => t.status == statusIdle && t.cause == causeNone && t.op == encode i && t.ret.toNat == ret &&
      rdWords t.mem a ws.length == ws
  | _ => false

/-- Whether `i` ends in `FAULT` with a cause number, with memory and `RET` unchanged. -/
def faultsOk (i : Instr) (s : State) (cause : Nat) : Bool :=
  match exec i s with
  | .next t => t.status == statusFault && t.cause.toNat == cause && t.mem == s.mem && t.ret == s.ret
  | _ => false

/-- Whether `i` comes to wait, latched as `p`. -/
def waitsOk (i : Instr) (s : State) (p : Pend) : Bool :=
  match exec i s with
  | .next t => t.status == statusWaitHint && t.pend == some p && t.mem == s.mem && t.queries == [p.query]
  | _ => false

/-- Format F4 on two operands and a modulus of `l` limbs. -/
def argsF4 (l a b m : Nat) : State :=
  idleAt 0x200 [(0x200, [0x1000, 0x1040, 0x1080, 0x4000]), (0x1000, toLimbs l a), (0x1040, toLimbs l b),
    (0x1080, toLimbs l m)]

/-- Format F5 on one operand and a modulus of `l` limbs. -/
def argsF5 (l a m : Nat) (hints : List Word := []) : State :=
  idleAt 0x200 [(0x200, [0x1000, 0x1040, 0x4000]), (0x1000, toLimbs l a), (0x1040, toLimbs l m)] hints

/-- Format F3. -/
def argsF3 (l a b c m : Nat) : State :=
  idleAt 0x200 [(0x200, [0x1000, 0x1040, 0x1080, 0x10C0, 0x4000]), (0x1000, toLimbs l a), (0x1040, toLimbs l b),
    (0x1080, toLimbs l c), (0x10C0, toLimbs l m)]

/-- Format F8 on two pairs of coordinates or components. -/
def argsF8 (x1 y1 x2 y2 : Nat) : State :=
  idleAt 0x200 [(0x200, [0x1000, 0x1040]), (0x1000, ptWords x1 y1), (0x1040, ptWords x2 y2)]

/-- Format F10. -/
def argsF10 (k x y : Nat) (hints : List Word) : State :=
  idleAt 0x200 [(0x200, [0x1000, 0x1040, 0x4000]), (0x1000, toLimbs 4 k), (0x1040, ptWords x y)] hints

/-- Format F11. -/
def argsF11 (k1 k2 x y : Nat) (hints : List Word) : State :=
  idleAt 0x200 [(0x200, [0x1000, 0x1020, 0x1040, 0x4000]), (0x1000, toLimbs 4 k1), (0x1020, toLimbs 4 k2),
    (0x1040, ptWords x y)] hints

/-- Format F12. -/
def argsF12 (x1 y1 x2 y2 : Nat) : State :=
  idleAt 0x200 [(0x200, [0x1000, 0x1040, 0x4000]), (0x1000, ptWords x1 y1), (0x1040, ptWords x2 y2)]

/-- Format F1. -/
def argsF1 (a b cin : Nat) : State :=
  idleAt 0x200 [(0x200, [0x1000, 0x1020, BitVec.ofNat 64 cin, 0x4000]), (0x1000, toLimbs 4 a),
    (0x1020, toLimbs 4 b)]

/-- Format F2. -/
def argsF2 (a b c : Nat) : State :=
  idleAt 0x200 [(0x200, [0x1000, 0x1020, 0x1040, 0x4000, 0x4020]), (0x1000, toLimbs 4 a), (0x1020, toLimbs 4 b),
    (0x1040, toLimbs 4 c)]

/-- The words of an ArbBig. -/
def arbWords (ds : List Nat) : List Word := BitVec.ofNat 64 ds.length :: ds.flatMap (toLimbs 4)

/-- Format F7. -/
def argsF7 (b e m : List Nat) : State :=
  idleAt 0x200 [(0x200, [0x1000, 0x1100, 0x1200, 0x4000]), (0x1000, arbWords b), (0x1100, arbWords e),
    (0x1200, arbWords m)]

/-- Format F13 on one pair of points. -/
def argsF13 (n : Nat) (x y x0 x1 y0 y1 : Nat) : State :=
  idleAt 0x200 [(0x200, [0x1000, 0x1040, BitVec.ofNat 64 n, 0x4000]), (0x1000, ptWords x y),
    (0x1040, ptWords x0 x1 ++ ptWords y0 y1)]

/-- `BLS_P` (spec/00_scope.md R9), a modulus of tests only. -/
def blsP : Nat :=
  0x1A0111EA397FE69A4B1BA7B6434BACD764774B84F38512BF6730D2A0F6B0F6241EABFFFEB153FFFFB9FEFFFFFFFFAAAB

/-- `a0`, `b0`, `c0`, `b1` of spec/95_test_vectors.md. -/
def vecA0 : Nat := 0x123456789ABCDEF0FEDCBA98765432100F1E2D3C4B5A69788796A5B4C3D2E1F0
def vecB0 : Nat := 0xDEADBEEFCAFEBABE0123456789ABCDEF55AA55AA55AA55AAAA55AA55AA55AA55
def vecC0 : Nat := 0xFFFFFFFFFFFFFFFF0000000000000000FFFFFFFFFFFFFFFF0000000000000001
def vecB1 : Nat := 0x1D1C852446383A171FE22E8D83A66C78F7A4AB64B3E32B75B9D379FA4861B539

/-- The inverse of 3 modulo `BN_P` as hint words (spec/95_test_vectors.md V34a). -/
def inv3 : List Word := [0xD2C05D6490535385, 0xBA56470B9AF68708, 0xD03583CF0100E593, 0x2042DEF740CBC01B]

/-- The inverse of 7 modulo `BLS_P` (spec/95_test_vectors.md V27). -/
def inv7 : Nat :=
  0x03B7028F2CC920F17871AA3E9BE63D43577EC1A5475C273FEA2B8BCDDA1947BC0461B6DB3DE76DB6D16D924924923CF4

/-! ### Well-formedness: a code each check refuses (spec/30_encoding.md R83) -/

/-- `unitOk` refuses the reserved units 7 and 15. -/
theorem test_reserved_units_refused : unitOk (unitField 0x70) = false ∧ unitOk (unitField 0xFF) = false ∧
    codeWellFormed 0x70 = false ∧ codeWellFormed 0xFF = false := by decide

/-- `fnOk` refuses, in every unit, the function just outside its rows. -/
theorem test_reserved_functions_refused : ∀ c ∈ [0x00, 0x08, 0x17, 0x25, 0x31, 0x45, 0x55, 0x64],
    unitOk (unitField c) = true ∧ fnOk (unitField c) (fnField c) = false ∧ codeWellFormed c = false := by decide

/-- The decoder refuses the same codes by name (spec/95_test_vectors.md V83), and an empty list of bytes. -/
theorem test_decode_refuses : (∀ c ∈ [0x00, 0x08, 0x17, 0x25, 0x31, 0x45, 0x55, 0x64, 0x70, 0xFF],
    decode c = .error (.illegalCode c)) ∧ decodeBytes [] = .error .noByte := by decide

/-! ### Decoding: unit and fn bits of spec/30_encoding.md R80, written out -/

theorem test_decode_adder : decode 0b0000_0001#8 = .ok .add256 ∧ decode 0b0000_0010#8 = .ok .modadd256 ∧
    decode 0b0000_0011#8 = .ok .modsub256 ∧ decode 0b0000_0100#8 = .ok .modneg256 ∧
    decode 0b0000_0101#8 = .ok .modadd384 ∧ decode 0b0000_0110#8 = .ok .modsub384 ∧
    decode 0b0000_0111#8 = .ok .modneg384 := by decide

theorem test_decode_multiplier : decode 0b0001_0000#8 = .ok .arith256 ∧ decode 0b0001_0001#8 = .ok .arith256Mod ∧
    decode 0b0001_0010#8 = .ok .arith384Mod ∧ decode 0b0001_0011#8 = .ok .modmul256 ∧
    decode 0b0001_0100#8 = .ok .modsqr256 ∧ decode 0b0001_0101#8 = .ok .modmul384 ∧
    decode 0b0001_0110#8 = .ok .modsqr384 := by decide

theorem test_decode_inverse : decode 0b0010_0000#8 = .ok .modinv256F ∧ decode 0b0010_0001#8 = .ok .modinv256H ∧
    decode 0b0010_0010#8 = .ok .modinv384F ∧ decode 0b0010_0011#8 = .ok .modinv384H ∧
    decode 0b0010_0100#8 = .ok .bn254FpInv ∧ decode 0b0011_0000#8 = .ok .modexp := by decide

theorem test_decode_secp256k1 : decode 0b0100_0000#8 = .ok .secp256k1Add ∧
    decode 0b0100_0001#8 = .ok .secp256k1Dbl ∧ decode 0b0100_0010#8 = .ok .secp256k1Cadd ∧
    decode 0b0100_0011#8 = .ok .secp256k1Mul ∧ decode 0b0100_0100#8 = .ok .secp256k1DmulG := by decide

theorem test_decode_bn254_curve : decode 0b0101_0000#8 = .ok .bn254CurveAdd ∧
    decode 0b0101_0001#8 = .ok .bn254CurveDbl ∧ decode 0b0101_0010#8 = .ok .bn254Cadd ∧
    decode 0b0101_0011#8 = .ok .bn254Ecadd ∧ decode 0b0101_0100#8 = .ok .bn254Ecmul := by decide

theorem test_decode_bn254_pairing : decode 0b0110_0000#8 = .ok .bn254ComplexAdd ∧
    decode 0b0110_0001#8 = .ok .bn254ComplexSub ∧ decode 0b0110_0010#8 = .ok .bn254ComplexMul ∧
    decode 0b0110_0011#8 = .ok .bn254Ecpairing := by decide

/-- The encoding of a command line (spec/30_encoding.md R85): MODINV256_H at 0x0200 is `21:0000000000000200`,
and both names of an operation stand for it. -/
theorem test_command_line : commandEncoding .modinv256H 0x200 = (0x21, 0x200) ∧
    lineActions (.command .modinv256H 0x200) = [.writeArg 0x200, .writeOp 0x21] ∧
    instrOfName "BN254_FP_INV" = some .bn254FpInv ∧ instrOfName "inv_fp_bn254" = some .bn254FpInv ∧
    instrOfName "MODEXP2" = none := by decide +kernel

/-! ### Constants (spec/00_scope.md R7, R8; spec/46_bn254_pairing.md R264 to R270) -/

/-- The relations the spec gives between its constants. -/
theorem test_constants :
    bnP = 36 * bnU ^ 4 + 36 * bnU ^ 3 + 24 * bnU ^ 2 + 6 * bnU + 1 ∧
    bnR = 36 * bnU ^ 4 + 36 * bnU ^ 3 + 18 * bnU ^ 2 + 6 * bnU + 1 ∧ bnLoop = 6 * bnU + 2 ∧
    secpP = 2 ^ 256 - 2 ^ 32 - 977 ∧ onCurve ⟨secpGx, secpGy⟩ secpP secpB = true ∧
    onCurve ⟨1, 2⟩ bnP bnB = true ∧ f2mul twistB ⟨9, 1⟩ = ⟨3, 0⟩ ∧ (bnP ^ 12 - 1) % bnR = 0 ∧
    gamma22Re ^ 3 % bnP = 1 ∧ gamma23Re + 1 = bnP := by decide +kernel

/-! ### Vectors: the adder (spec/95_test_vectors.md section 2) -/

/-- V1. -/
theorem test_add256_carry_chain :
    endsOk .add256 (argsF1 (2 ^ 192 - 1) 1 0) 0 0x4000 [0, 0, 0, 1] = true := by decide +kernel

/-- V3: the largest case; V4: a carry in of 2. -/
theorem test_add256_carry_out : endsOk .add256 (argsF1 (2 ^ 256 - 1) (2 ^ 256 - 1) 1) 1 0x4000
      (toLimbs 4 (2 ^ 256 - 1)) = true ∧ faultsOk .add256 (argsF1 1 1 2) 4 = true := by decide +kernel

/-- V6. -/
theorem test_modadd256_carry : endsOk .modadd256 (argsF4 4 (secpP - 1) (secpP - 1) secpP) 0 0x4000
    (toLimbs 4 0xFFFFFFFFFFFFFFFFFFFFFFFFFFFFFFFFFFFFFFFFFFFFFFFFFFFFFFFEFFFFFC2D) = true := by decide +kernel

/-- V16: an operand equal to the modulus; V17: the modulus is tested first. -/
theorem test_modadd256_faults : faultsOk .modadd256 (argsF4 4 secpP 0 secpP) 4 = true ∧
    faultsOk .modadd256 (argsF4 4 1 0 0) 5 = true := by decide +kernel

/-- V9. -/
theorem test_modsub256_borrow : endsOk .modsub256 (argsF4 4 0 1 secpP) 0 0x4000
    (toLimbs 4 0xFFFFFFFFFFFFFFFFFFFFFFFFFFFFFFFFFFFFFFFFFFFFFFFFFFFFFFFEFFFFFC2E) = true := by decide +kernel

/-- V10. -/
theorem test_modsub256_mixed : endsOk .modsub256 (argsF4 4 vecA0 vecB1 bnP) 0 0x4000
    (toLimbs 4 0x257C1FC735B64503974AD1C1742F1DF4AEFAEC68FFE9089009E3B7D153EE29FE) = true := by decide +kernel

/-- V11: both halves. -/
theorem test_modneg256 : endsOk .modneg256 (argsF5 4 2 bnP) 0 0x4000
      (toLimbs 4 0x30644E72E131A029B85045B68181585D97816A916871CA8D3C208C16D87CFD45) = true ∧
    endsOk .modneg256 (argsF5 4 0 bnP) 0 0x4000 [0, 0, 0, 0] = true := by decide +kernel

/-- V15: a carry out at 384 bits. -/
theorem test_modadd384_carry : endsOk .modadd384 (argsF4 6 (2 ^ 384 - 318) (2 ^ 384 - 318) (2 ^ 384 - 317)) 0
    0x4000 [0xFFFFFFFFFFFFFEC1, -1, -1, -1, -1, -1] = true := by decide +kernel

/-- V13. -/
theorem test_modsub384_borrow : endsOk .modsub384 (argsF4 6 1 2 blsP) 0 0x4000 (toLimbs 6 (blsP - 1)) = true := by
  decide +kernel

/-- V14. -/
theorem test_modneg384 : endsOk .modneg384 (argsF5 6 1 blsP) 0 0x4000 (toLimbs 6 (blsP - 1)) = true := by
  decide +kernel

/-! ### Vectors: the multiplier (section 3) -/

/-- V19. -/
theorem test_arith256 : endsOk .arith256 (argsF2 vecA0 vecB0 vecC0) 0 0x4000
    (toLimbs 4 0x0FD5BDEEEB2A01D8C92DB8CD43D35B8D8159BD196638871B7FB21A114F2D6345 ++
      toLimbs 4 0x408AEA98D03EA37A38A4AFF9E30AD1D922C913BA04AAF59A91DC82CD73BE64B1) = true := by decide +kernel

/-- V20: the largest case. -/
theorem test_arith256_largest : endsOk .arith256 (argsF2 (2 ^ 256 - 1) (2 ^ 256 - 1) (2 ^ 256 - 1)) 0 0x4000
    [-1, -1, -1, -1, 0, 0, 0, 0] = true := by decide +kernel

/-- V22: operands that are not reduced. -/
theorem test_arith256Mod : endsOk .arith256Mod (argsF3 4 vecA0 vecB0 vecC0 secpP) 0 0x4000
    (toLimbs 4 0x9A6EC94114BD689F43F652E73E04F5FD307C48C4A218AF9E479520890EB10121) = true := by decide +kernel

/-- V23: the modulus 0. -/
theorem test_arith256Mod_zero : faultsOk .arith256Mod (argsF3 4 vecA0 vecB0 vecC0 0) 5 = true := by decide +kernel

/-- V24. -/
theorem test_arith384Mod : endsOk .arith384Mod (argsF3 6 (2 ^ 384 - 1) (2 ^ 384 - 1) (2 ^ 384 - 1) blsP) 0 0x4000
    (toLimbs 6 0x15A3430BD1C9E5B1898DCBA4560E559754947BDB16D03F3A95CD81B5EF7F543E3D2EE698F71904EF38D51F341C30C1F4)
      = true := by decide +kernel

/-- V26: a product, and an unreduced operand. -/
theorem test_modmul256 : endsOk .modmul256 (argsF4 4 vecA0 vecB1 bnP) 0 0x4000
      (toLimbs 4 0x197EF4B477F81AAD074310074BA6C262B6B6FE109951723BEB9DDA53A7ABCE46) = true ∧
    faultsOk .modmul256 (argsF4 4 bnP vecB1 bnP) 4 = true := by decide +kernel

/-- V28. -/
theorem test_modsqr256 : endsOk .modsqr256 (argsF5 4 (secpP - 2) secpP) 0 0x4000 [4, 0, 0, 0] = true := by
  decide +kernel

/-- V29. -/
theorem test_modmul384 : endsOk .modmul384 (argsF4 6 7 inv7 blsP) 0 0x4000 [1, 0, 0, 0, 0, 0] = true := by
  decide +kernel

/-- V30a. -/
theorem test_modsqr384 : endsOk .modsqr384 (argsF5 6 (blsP - 1) blsP) 0 0x4000 [1, 0, 0, 0, 0, 0] = true := by
  decide +kernel

/-! ### Vectors: the inverse unit (section 4) -/

/-- V31. -/
theorem test_modinv256F : endsOk .modinv256F (argsF5 4 2 secpP) 0 0x4000
    [0xFFFFFFFF7FFFFE18, 0xFFFFFFFFFFFFFFFF, 0xFFFFFFFFFFFFFFFF, 0x7FFFFFFFFFFFFFFF] = true := by decide +kernel

/-- V33a: a composite modulus; V30b: the tag NoInverse, with nothing written. -/
theorem test_modinv256F_none : faultsOk .modinv256F (argsF5 4 2 15) 4 = true ∧
    endsOk .modinv256F (argsF5 4 0 1) 1 0x4000 [0, 0, 0, 0] = true := by decide +kernel

/-- V94: the surplus word stays queued. -/
theorem test_modinv256H : endsOk .modinv256H (argsF5 4 3 bnP (inv3 ++ [0x11])) 0 0x4000 inv3 = true ∧
    (match exec .modinv256H (argsF5 4 3 bnP (inv3 ++ [0x11])) with
      | .next t => t.hintq == [0x11] && t.queries == [.inv256 3 (BitVec.ofNat 256 bnP)]
      | _ => false) = true := by decide +kernel

/-- V36a: a congruent but unreduced candidate; V37a: `a = 0` pops nothing. -/
theorem test_modinv256H_checks :
    faultsOk .modinv256H (argsF5 4 3 bnP (toLimbs 4 (fromLimbs inv3 + bnP))) 6 = true ∧
    endsOk .modinv256H (argsF5 4 0 bnP [9, 9]) 1 0x4000 [0, 0, 0, 0] = true := by decide +kernel

/-- V27. -/
theorem test_modinv384F : endsOk .modinv384F (argsF5 6 7 blsP) 0 0x4000 (toLimbs 6 inv7) = true := by
  decide +kernel

/-- V38a: five words make it wait, six let it end. -/
theorem test_modinv384H :
    waitsOk .modinv384H (argsF5 6 7 blsP ((toLimbs 6 inv7).take 5))
      (.modinv384H 7 (BitVec.ofNat 384 blsP) 0x4000) = true ∧
    endsOk .modinv384H (argsF5 6 7 blsP (toLimbs 6 inv7)) 0 0x4000 (toLimbs 6 inv7) = true := by decide +kernel

/-- V39a, and V30: `a = 0` writes 0. -/
theorem test_bn254FpInv :
    endsOk .bn254FpInv (idleAt 0x200 [(0x200, [0x1000, 0x4000]), (0x1000, [3])] inv3) 0 0x4000 inv3 = true ∧
    endsOk .bn254FpInv (idleAt 0x200 [(0x200, [0x1000, 0x4000]), (0x4000, [0x55])]) 0 0x4000 [0, 0, 0, 0] = true := by
  decide +kernel

/-! ### Vectors: MODEXP (section 5) -/

/-- V34. -/
theorem test_modexp : endsOk .modexp (argsF7 [3, 1] [1, 1] [9, 5]) 0 0x4000
    (arbWords [0x4C2829553C7AF459ED554E1CA6168F2E77CAEA37043F98881972F12A3C8C050D, 1]) = true := by decide +kernel

/-- V36: `0^0`, padded; V41a: a non-canonical base; V42a: a length of 0; V43a: the modulus 0. -/
theorem test_modexp_corners : endsOk .modexp (argsF7 [0] [0] [9, 5]) 0 0x4000 (arbWords [1, 0]) = true ∧
    faultsOk .modexp (argsF7 [3, 0] [5] [9, 5]) 4 = true ∧ faultsOk .modexp (argsF7 [] [5] [9, 5]) 4 = true ∧
    faultsOk .modexp (argsF7 [2] [5] [0]) 5 = true := by decide +kernel

/-! ### Vectors: secp256k1 (section 6) -/

/-- `2G`, `3G`, `5G`, `8G` of spec/95_test_vectors.md. -/
def g2x : Nat := 0xC6047F9441ED7D6D3045406E95C07CD85C778E4B8CEF3CA7ABAC09B95C709EE5
def g2y : Nat := 0x1AE168FEA63DC339A3C58419466CEAEEF7F632653266D0E1236431A950CFE52A
def g3x : Nat := 0xF9308A019258C31049344F85F89D5229B531C845836F99B08601F113BCE036F9
def g3y : Nat := 0x388F7B0F632DE8140FE337E62A37F3566500A99934C2231B6CB9FD7584B8E672
def g5x : Nat := 0x2F8BDE4D1A07209355B4A7250A5C5128E88B84BDDC619AB7CBA8D569B240EFE4
def g5y : Nat := 0xD8AC222636E5E3D6D4DBA9DDA6C9C426F788271BAB0D6840DCA87D3AA6AC62D6
def g8x : Nat := 0x2F01E5E15CCA351DAFF3843FB70F3C2F0A1BDD05E5AF888A67784EF3E10A2A01
def g8y : Nat := 0x5C4DA8A741539949293D082A132D13B4C2E213D6BA5B7617B5DA2CB76CBDE904

/-- V41; V42: equal abscissas. -/
theorem test_secp256k1Add :
    endsOk .secp256k1Add (argsF8 g2x g2y secpGx secpGy) 0 0x1000 (ptWords g3x g3y) = true ∧
    faultsOk .secp256k1Add (argsF8 secpGx secpGy secpGx secpGy) 4 = true := by decide +kernel

/-- V46: no membership test. -/
theorem test_secp256k1Add_off_curve :
    endsOk .secp256k1Add (argsF8 1 1 2 3) 0 0x1000 (ptWords 1 (secpP - 1)) = true := by decide +kernel

/-- V40, and V43: the identity. -/
theorem test_secp256k1Dbl :
    endsOk .secp256k1Dbl (idleAt 0x1000 [(0x1000, ptWords secpGx secpGy)]) 0 0x1000 (ptWords g2x g2y) = true ∧
    faultsOk .secp256k1Dbl (idleAt 0x1000 []) 4 = true := by decide +kernel

/-- V45: a point and its negative; a point twice. -/
theorem test_secp256k1Cadd :
    endsOk .secp256k1Cadd (argsF8 secpGx secpGy secpGx (secpP - secpGy)) 0 0x1000 (ptWords 0 0) = true ∧
    endsOk .secp256k1Cadd (argsF8 secpGx secpGy secpGx secpGy) 0 0x1000 (ptWords g2x g2y) = true := by
  decide +kernel

/-- V47: the true position, and a larger one. -/
theorem test_secp256k1Mul :
    endsOk .secp256k1Mul (argsF10 5 secpGx secpGy [0, 2]) 0 0x4000 (ptWords g5x g5y) = true ∧
    faultsOk .secp256k1Mul (argsF10 5 secpGx secpGy [0, 3]) 6 = true := by decide +kernel

/-- V44; and a point with `G`'s abscissa off the curve: its PRECOND comes before the bad hint (R305). -/
theorem test_secp256k1DmulG :
    endsOk .secp256k1DmulG (argsF11 2 3 g2x g2y [0, 1]) 0 0x4000 (ptWords g8x g8y) = true ∧
    faultsOk .secp256k1DmulG (argsF11 2 3 g2x g2y [0, 2]) 6 = true ∧
    faultsOk .secp256k1DmulG (argsF11 2 3 secpGx 1 [4, 0]) 4 = true := by decide +kernel

/-! ### Vectors: BN254 (sections 7 and 8) -/

/-- `2P`, `3P`, `5P` of spec/95_test_vectors.md. -/
def p2x : Nat := 0x030644E72E131A029B85045B68181585D97816A916871CA8D3C208C16D87CFD3
def p2y : Nat := 0x15ED738C0E0A7C92E7845F96B2AE9C0A68A6A449E3538FC7FF3EBF7A5A18A2C4
def p3x : Nat := 0x0769BF9AC56BEA3FF40232BCB1B6BD159315D84715B8E679F2D355961915ABF0
def p3y : Nat := 0x2AB799BEE0489429554FDB7C8D086475319E63B40B9C5B57CDF1FF3DD9FE2261
def p5x : Nat := 0x17C139DF0EFEE0F766BC0204762B774362E4DED88953A39CE849A8A7FA163FA9
def p5y : Nat := 0x01E0559BACB160664764A357AF8A9FE70BAA9258E0B959273FFC5718C6D4CC7C

/-- V54b. -/
theorem test_bn254CurveAdd : endsOk .bn254CurveAdd (argsF8 p2x p2y 1 2) 0 0x1000 (ptWords p3x p3y) = true ∧
    faultsOk .bn254CurveAdd (argsF8 1 2 1 2) 4 = true := by decide +kernel

/-- V54a. -/
theorem test_bn254CurveDbl :
    endsOk .bn254CurveDbl (idleAt 0x1000 [(0x1000, ptWords 1 2)]) 0 0x1000 (ptWords p2x p2y) = true := by
  decide +kernel

/-- V54c. -/
theorem test_bn254Cadd : endsOk .bn254Cadd (argsF8 1 2 1 (bnP - 2)) 0 0x1000 (ptWords 0 0) = true := by
  decide +kernel

/-- V54. -/
theorem test_bn254Ecadd : endsOk .bn254Ecadd (argsF12 1 2 p2x p2y) 0 0x4000 (ptWords p3x p3y) = true ∧
    endsOk .bn254Ecadd (argsF12 1 2 1 2) 0 0x4000 (ptWords p2x p2y) = true := by decide +kernel

/-- V55 to V57, the coordinates of no concern being 0: all range checks come before all curve checks. -/
theorem test_bn254Ecadd_codes : endsOk .bn254Ecadd (argsF12 bnP 2 0 0) 1 0x4000 (ptWords 0 0) = true ∧
    endsOk .bn254Ecadd (argsF12 1 bnP 0 0) 2 0x4000 (ptWords 0 0) = true ∧
    endsOk .bn254Ecadd (argsF12 1 2 (2 ^ 256 - 1) 2) 3 0x4000 (ptWords 0 0) = true ∧
    endsOk .bn254Ecadd (argsF12 1 2 1 bnP) 4 0x4000 (ptWords 0 0) = true ∧
    endsOk .bn254Ecadd (argsF12 1 3 1 2) 5 0x4000 (ptWords 0 0) = true ∧
    endsOk .bn254Ecadd (argsF12 1 2 1 3) 6 0x4000 (ptWords 0 0) = true ∧
    endsOk .bn254Ecadd (argsF12 1 3 bnP 3) 3 0x4000 (ptWords 0 0) = true := by decide +kernel

/-- V58. -/
theorem test_bn254Ecmul : endsOk .bn254Ecmul (argsF10 5 1 2 [0, 2]) 0 0x4000 (ptWords p5x p5y) = true ∧
    faultsOk .bn254Ecmul (argsF10 5 1 2 [0, 3]) 6 = true := by decide +kernel

/-- V59b: the codes. -/
theorem test_bn254Ecmul_codes : endsOk .bn254Ecmul (argsF10 5 1 3 [0, 2]) 5 0x4000 (ptWords 0 0) = true ∧
    endsOk .bn254Ecmul (argsF10 5 bnP 3 [0, 2]) 1 0x4000 (ptWords 0 0) = true ∧
    endsOk .bn254Ecmul (argsF10 5 3 bnP [0, 2]) 2 0x4000 (ptWords 0 0) = true := by decide +kernel

/-- V78, V79, V76. -/
theorem test_bn254Complex :
    endsOk .bn254ComplexAdd (argsF8 (bnP - 1) (bnP - 1) 1 2) 0 0x1000 (ptWords 0 1) = true ∧
    endsOk .bn254ComplexSub (argsF8 1 2 3 4) 0 0x1000 (ptWords (bnP - 2) (bnP - 2)) = true ∧
    endsOk .bn254ComplexMul (argsF8 1 2 3 4) 0 0x1000 (ptWords (bnP - 5) 10) = true := by decide +kernel

/-- V62: no pair; V69: one identity. -/
theorem test_bn254Ecpairing : endsOk .bn254Ecpairing (argsF13 0 0 0 0 0 0 0) 0 0x4000 [1] = true ∧
    endsOk .bn254Ecpairing (argsF13 1 1 2 0 0 0 0) 0 0x4000 [1] = true := by decide +kernel

/-- V70 to V72, the components of no concern being 0: codes 1, 2, 5, 7 and 8. -/
theorem test_bn254Ecpairing_codes : endsOk .bn254Ecpairing (argsF13 1 bnP 2 0 0 0 0) 1 0x4000 [0] = true ∧
    endsOk .bn254Ecpairing (argsF13 1 1 bnP 0 0 0 0) 2 0x4000 [0] = true ∧
    endsOk .bn254Ecpairing (argsF13 1 1 3 bnP 0 0 0) 5 0x4000 [0] = true ∧
    endsOk .bn254Ecpairing (argsF13 1 1 2 bnP 0 0 0) 7 0x4000 [0] = true ∧
    endsOk .bn254Ecpairing (argsF13 1 1 2 0 1 0 0) 8 0x4000 [0] = true := by decide +kernel

/-! ### Inside the pairing unit (spec/46_bn254_pairing.md R260 to R268) -/

/-- `i² = -1`, `v³ = ξ`, `w² = v`, and the inverses of Fp6 and Fp12 on a sample. -/
theorem test_tower : f2sqr ⟨0, 1⟩ = ⟨bnP - 1, 0⟩ ∧
    f6mul ⟨f2zero, f2one, f2zero⟩ ⟨f2zero, f2zero, f2one⟩ = ⟨⟨9, 1⟩, f2zero, f2zero⟩ ∧
    f12sqr ⟨f6zero, f6one⟩ = ⟨⟨f2zero, f2one, f2zero⟩, f6zero⟩ ∧
    f6mul ⟨⟨2, 3⟩, ⟨5, 7⟩, ⟨11, 13⟩⟩ (f6inv ⟨⟨2, 3⟩, ⟨5, 7⟩, ⟨11, 13⟩⟩) = f6one ∧
    f12mul ⟨⟨⟨2, 3⟩, ⟨5, 7⟩, ⟨11, 13⟩⟩, f6one⟩ (f12inv ⟨⟨⟨2, 3⟩, ⟨5, 7⟩, ⟨11, 13⟩⟩, f6one⟩) = f12one := by
  decide +kernel

/-- The generator `Q` is on the twist, its images under `π` and `-π²` are, and `2Q` is as the vectors print it. -/
theorem test_g2 : onTwist bnG2 = true ∧ onTwist (g2Frob bnG2) = true ∧
    onTwist (g2NegFrob2 bnG2) = true ∧
    g2Mul 2 bnG2 = .ok
      ⟨⟨0x27DC7234FD11D3E8C36C59277C3E6F149D5CD3CFA9A62AEE49F8130962B4B3B9,
        0x203E205DB4F19B37B60121B83A7333706DB86431C6D835849957ED8C3928AD79⟩,
       ⟨0x04BB53B8977E5F92A0BC372742C4830944A59B4FE6B1C0466E2A6DAD122B5D2E,
        0x195E8AA5B7827463722B8C153931579D3505566B4EDF48D498E185F0509DE152⟩⟩ := by decide +kernel

/-! ### Vectors: faults, reset and the host (section 9) -/

/-- V84, V85, V87, V88, V86, V89: the order of the memory checks; the pointers of BN254_ECPAIRING are checked
with no pairs too. -/
theorem test_memory_faults : faultsOk .add256 (idleAt 0x1004 []) 2 = true ∧
    faultsOk .add256 (idleAt 0x200 [(0x200, [0x1000, 0x1044, 0, 0x4000])]) 2 = true ∧
    faultsOk .add256 (idleAt 0xFFFFFFFFFFFFFFF0 []) 3 = true ∧
    faultsOk .add256 (idleAt 0x200 [(0x200, [0x1001, 0x1040, 2, 0x4000])]) 2 = true ∧
    faultsOk .add256 { idleAt 0x200 [(0x200, [0x1000, 0x1040, 0, 0x4000])] with
      plat := { Platform.default with map := [⟨0x4000, 32, .ro⟩, ⟨0, 2 ^ 64, .rw⟩] } } 3 = true ∧
    faultsOk .bn254Ecpairing (idleAt 0x200 [(0x200, [0x3004, 0x2000, 0, 0x4000])]) 2 = true := by decide +kernel

/-- V83, V90: an illegal code faults; then writes of `OP`, `ARG` and a push are ignored, and reset clears. -/
theorem test_illegal_then_reset :
    (match Host.Core.run Sys2Proof.core 5 { State.reset with
        host := [.writeOp 0x08, .writeOp 0x01, .writeArg 8, .pushHint 1, .readReg .cause] } with
      | .next t => t.status == statusFault && t.cause == 1 && t.op == 0x08 && t.arg == 0 && t.hintq == []
      | _ => false) = true ∧
    (match Host.Core.run Sys2Proof.core 2 { State.reset with host := [.writeOp 0x08, .reset] } with
      | .next t => t.status == statusIdle && t.cause == causeNone && t.op == 0 && t.host == []
      | _ => false) = true := by decide +kernel

/-- R85: a word stored by the host, and `RET` stored by the host, least significant byte first. -/
theorem test_host_store :
    (match hostStep (.store 0x10 (.word 0x0102)) State.reset with
      | .next t => t.mem == [(0x10, 0x02), (0x11, 0x01)]
      | _ => false) = true ∧
    (match hostStep (.store 0x18 .ret) { State.reset with ret := 7 } with
      | .next t => t.mem == [(0x18, 0x07)]
      | _ => false) = true := by decide +kernel

/-! ### Witnesses: states and operands that meet the hypotheses of each statement -/

/-- From a test of a normal end to the step it shows. -/
theorem next_of_endsOk {i : Instr} {s : State} {ret a : Nat} {ws : List Word} (h : endsOk i s ret a ws = true) :
    ∃ t, exec i s = .next t ∧ t.status = statusIdle := by
  unfold endsOk at h
  split at h
  · next t ht => exact ⟨t, ht, by simp only [Bool.and_eq_true, beq_iff_eq] at h; exact h.1.1.1.1⟩
  · cases h

/-- From a test of a fault to the step it shows. -/
theorem next_of_faultsOk {i : Instr} {s : State} {c : Nat} (h : faultsOk i s c = true) :
    ∃ t, exec i s = .next t ∧ t.status = statusFault := by
  unfold faultsOk at h
  split at h
  · next t ht => exact ⟨t, ht, by simp only [Bool.and_eq_true, beq_iff_eq] at h; exact h.1.1.1⟩
  · cases h

/-- From a test of a wait to the step it shows. -/
theorem next_of_waitsOk {i : Instr} {s : State} {p : Pend} (h : waitsOk i s p = true) :
    ∃ t, exec i s = .next t ∧ t.status = statusWaitHint ∧ t.pend = some p := by
  unfold waitsOk at h
  split at h
  · next t ht => exact ⟨t, ht, by simp only [Bool.and_eq_true, beq_iff_eq] at h; exact ⟨h.1.1.1, h.1.1.2⟩⟩
  · cases h

/-- An idle state whose memory checks pass. -/
def ready (s : State) (f : Format) : Bool := s.status == statusIdle && memoryFault s f == none

/-- An idle state with a host action to come. -/
def hostAt (acts : List HostAction) : State := { State.reset with host := acts }

/-- A state in `FAULT`. -/
def faultAt (acts : List HostAction) : State := { hostAt acts with status := statusFault, cause := 4 }

/-- A latched inverse of 3 modulo `BN_P`. -/
def pend3 : Pend := .modinv256H 3 (BitVec.ofNat 256 bnP) 0x4000

/-- A state that waits for the inverse of 3, with some words queued and some host actions to come. -/
def waitAt (hints : List Word) (acts : List HostAction) : State :=
  { State.reset with status := statusWaitHint, pend := some pend3, hintq := hints, host := acts }

theorem witness_StepRunsDecodedOperation : readyPend (hostAt [.writeOp 0x01]) = none ∧
    (hostAt [.writeOp 0x01]).host = .writeOp 0x01 :: [] ∧ decode 0x01 = .ok .add256 ∧
    WellFormed .add256 = true := by decide +kernel

/-- The state right after reset, and a waiting state, satisfy `Inv` and have a next step. -/
theorem witness_StepKeepsInv : (Inv (waitAt inv3 []) ∧ ∃ t, step (waitAt inv3 []) = .next t) ∧
    ∃ t, step (hostAt [.writeOp 0x01]) = .next t := by
  refine ⟨⟨⟨by decide, by decide, by decide, by decide, by decide, ?_⟩, ⟨_, rfl⟩⟩, ⟨_, rfl⟩⟩
  intro p hp
  injection hp with hp
  subst hp
  simp only [pend3, pendOk]
  decide +kernel

theorem witness_IgnoredWrites : (waitAt [] []).status ≠ statusIdle ∧ (faultAt []).status ≠ statusIdle := by decide

/-- Idle; a bounded queue with room for one word; `FAULT`. -/
theorem witness_HostWrites : State.reset.status = statusIdle ∧
    (∀ d, ({ Platform.default with hintDepth := some 1 } : Platform).hintDepth = some d → ([] : List Word).length < d) ∧
    (faultAt []).status = statusFault := by
  refine ⟨by decide, ?_, by decide⟩
  intro d hd
  injection hd with hd
  subst hd
  decide

/-- The last word of the space can be stored to; one byte further cannot. -/
theorem witness_HostStoreWord : rangeOk Platform.default.map .write (2 ^ 64 - 8) 8 = true ∧
    rangeOk Platform.default.map .write (2 ^ 64 - 7) 8 = false ∧ State.reset.mem.wf := by decide +kernel

theorem witness_IllegalCodesFault : State.reset.status = statusIdle ∧ codeWellFormed 0x00 = false ∧
    codeWellFormed 0x08 = false := by decide

/-- An operation that faults at issue, and a waiting one that faults at its completion. -/
theorem witness_FaultLeavesMemory :
    (∃ t, exec .add256 (idleAt 0x1004 []) = .next t ∧ t.status = statusFault) ∧
    (idleAt 0x1004 []).status = statusIdle ∧ (complete pend3 (waitAt [1, 0, 0, 0] [])).status = statusFault :=
  ⟨next_of_faultsOk test_memory_faults.1, by decide, by decide +kernel⟩

/-- Two steps in `FAULT` with actions that are neither a reset nor a store; a reset to come. -/
theorem witness_FaultIsSticky : (faultAt [.pushHint 1, .writeArg 8]).status = statusFault ∧
    (∀ act ∈ (faultAt [.pushHint 1, .writeArg 8]).host.take 2, act ≠ .reset) ∧
    (∃ t, Host.Core.run Sys2Proof.core 2 (faultAt [.pushHint 1, .writeArg 8]) = .next t) ∧
    (∀ act ∈ (faultAt [.pushHint 1, .writeArg 8]).host.take 2, ∀ a v, act ≠ .store a v) ∧
    (faultAt [.reset]).host = .reset :: [] := ⟨by decide, by decide, ⟨_, rfl⟩, by simp [faultAt, hostAt], rfl⟩

/-- Each of the three outcomes of an issue, and an ignored one. -/
theorem witness_OperationsNeverStop : (waitAt [] []).status ≠ statusIdle ∧
    (∃ t, exec .add256 (argsF1 (2 ^ 192 - 1) 1 0) = .next t ∧ t.status = statusIdle) ∧
    (∃ t, exec .add256 (idleAt 0x1004 []) = .next t ∧ t.status = statusFault) ∧
    ∃ t, exec .modinv384H (argsF5 6 7 blsP ((toLimbs 6 inv7).take 5)) = .next t ∧ t.status = statusWaitHint ∧
      t.pend = some (.modinv384H 7 (BitVec.ofNat 384 blsP) 0x4000) :=
  ⟨by decide, next_of_endsOk test_add256_carry_chain, next_of_faultsOk test_memory_faults.1,
    next_of_waitsOk test_modinv384H.1⟩

/-- A step of each kind that stops. -/
theorem witness_StepStopsOnlyForHost :
    step (hostAt [.store (BitVec.ofNat 64 (2 ^ 64 - 7)) (.word 1)]) =
      .fault (.hostStore (BitVec.ofNat 64 (2 ^ 64 - 7))) ∧
    step (hostAt [.readReg .op]) = .refused (.readOfWriteOnly .op) ∧
    step (hostAt [.writeReadOnly .ret 1]) = .refused (.writeOfReadOnly .ret) ∧
    step { hostAt [.pushHint 1] with plat := { Platform.default with hintDepth := some 0 } } =
      .refused .hintQueueFull := by
  refine ⟨?_, rfl, rfl, rfl⟩
  have h : rangeOk Platform.default.map .write (BitVec.ofNat 64 (2 ^ 64 - 7)).toNat 8 ≠ true := by decide +kernel
  exact (show step _ = hostStore (BitVec.ofNat 64 (2 ^ 64 - 7)) (.word 1) (hostAt []) from rfl).trans (if_neg h)

/-- A misaligned `ARG`; an aligned one whose structure passes the top of the space, for a read and for a
written structure. -/
theorem witness_StructureFaultsFirst : (idleAt 0x1004 []).arg.toNat % 8 ≠ 0 ∧
    (idleAt (2 ^ 64 - 8) []).arg.toNat % 8 = 0 ∧
    (∀ i ∈ [Instr.add256, .secp256k1Add, .secp256k1Dbl], rangeOk (idleAt (2 ^ 64 - 8) []).plat.map (structureOf i).2
      (idleAt (2 ^ 64 - 8) []).arg.toNat (8 * (structureOf i).1) = false) := by decide +kernel

/-- Both answers of the memory checks, for every format: the hypotheses of `MemoryFaultsFirst` in every
statement of an operation's outcome. -/
theorem witness_MemoryFaultMeaning :
    ready (argsF1 1 2 0) formatF1 = true ∧
    (∀ f ∈ [formatF1, formatF2, formatF3 4, formatF3 6, formatF4 4, formatF4 6, formatF5 4, formatF5 6, formatF6,
        formatF8, formatF9, formatF10, formatF11, formatF12],
      memoryFault (idleAt 0x1004 []) f = some .misaligned ∧
        memoryFault (idleAt (2 ^ 64 - 8) []) f = some .access) ∧
    modexpFault (idleAt 0x1004 []) = some .misaligned ∧ pairingFault (idleAt 0x1004 []) = some .misaligned := by
  decide +kernel

/-- Three buffers, the last over part of the middle one; the last buffer of all. -/
theorem witness_OutputBuffersHold : (Memory.wf []) ∧
    (∀ st ∈ [Store.int 4 0 1] ++ Store.int 4 8 2 :: [Store.int 1 (2 ^ 64 - 8) 3],
      st.addr + 8 * st.words.length ≤ 2 ^ 64) ∧
    ¬ storesTouch ([Store.int 4 0 1] ++ Store.int 4 8 2 :: [Store.int 1 (2 ^ 64 - 8) 3]) 40 ∧
    (∀ x, 8 ≤ x → x < 8 + 8 * 4 → ¬ storesTouch [Store.int 1 (2 ^ 64 - 8) 3] x) := by
  refine ⟨by decide, by decide, ?_, ?_⟩
  · rintro ⟨st, hst, h1, h2⟩
    simp at hst
    rcases hst with rfl | rfl | rfl <;> simp [Store.int, toLimbs] at h1 h2
  · rintro x h1 h2 ⟨st, hst, h3, h4⟩
    simp at hst
    subst hst
    simp [Store.int, toLimbs] at h3 h4
    omega

theorem witness_AddWithCarryExact : 2 ^ 256 - 1 < 2 ^ (64 * 4) ∧ (1 : Nat) ≤ 1 := by decide

theorem witness_SubWithBorrowExact : 0 < 2 ^ 256 ∧ 2 ^ 256 - 1 < 2 ^ 256 ∧ (1 : Nat) ≤ 1 := by decide

/-- Shifts just below the width and at it; the largest and the smallest non-zero value. -/
theorem witness_FixedBigHelpers : (255 < 256 ∧ 256 ≤ 256) ∧ (2 ^ 256 - 1 < 2 ^ 256 ∧ 0 < 2 ^ 256 - 1) ∧
    (1 < 2 ^ 256 ∧ (0 : Nat) < 1) := by decide

/-- A carry in of 2, and of 1. -/
theorem witness_Add256Outcome :
    (ready (argsF1 1 1 2) formatF1 = true ∧ 1 < (structWord (argsF1 1 1 2) 2).toNat) ∧
    (ready (argsF1 1 1 1) formatF1 = true ∧ (structWord (argsF1 1 1 1) 2).toNat ≤ 1) := by decide +kernel

/-- The modulus 0; the first and the second operand equal to the modulus; both one below it; at 256 and 384
bits. -/
abbrev Field2Met : Prop :=
  ∀ l ∈ [4, 6],
    (ready (argsF4 l 1 0 0) (formatF4 l) = true ∧ intAt (argsF4 l 1 0 0) l 2 = 0) ∧
    (ready (argsF4 l 7 0 7) (formatF4 l) = true ∧ intAt (argsF4 l 7 0 7) l 2 ≠ 0 ∧
      intAt (argsF4 l 7 0 7) l 2 ≤ intAt (argsF4 l 7 0 7) l 0) ∧
    (ready (argsF4 l 0 7 7) (formatF4 l) = true ∧ intAt (argsF4 l 0 7 7) l 2 ≤ intAt (argsF4 l 0 7 7) l 1) ∧
    (ready (argsF4 l 6 6 7) (formatF4 l) = true ∧ intAt (argsF4 l 6 6 7) l 0 < intAt (argsF4 l 6 6 7) l 2 ∧
      intAt (argsF4 l 6 6 7) l 1 < intAt (argsF4 l 6 6 7) l 2)

/-- The modulus 0; an operand equal to it; one below it; the operand 0; at 256 and 384 bits. -/
abbrev Field1Met : Prop :=
  ∀ l ∈ [4, 6],
    (ready (argsF5 l 1 0) (formatF5 l) = true ∧ intAt (argsF5 l 1 0) l 1 = 0) ∧
    (ready (argsF5 l 7 7) (formatF5 l) = true ∧ intAt (argsF5 l 7 7) l 1 ≠ 0 ∧
      intAt (argsF5 l 7 7) l 1 ≤ intAt (argsF5 l 7 7) l 0) ∧
    (ready (argsF5 l 6 7) (formatF5 l) = true ∧ 0 < intAt (argsF5 l 6 7) l 0 ∧
      intAt (argsF5 l 6 7) l 0 < intAt (argsF5 l 6 7) l 1) ∧
    (ready (argsF5 l 0 7) (formatF5 l) = true ∧ intAt (argsF5 l 0 7) l 1 ≠ 0 ∧ intAt (argsF5 l 0 7) l 0 = 0)

theorem witness_ModaddOutcome : Field2Met := by decide +kernel

theorem witness_ModsubOutcome : Field2Met := witness_ModaddOutcome

theorem witness_ModmulOutcome : Field2Met := witness_ModaddOutcome

theorem witness_ModnegOutcome : Field1Met := by decide +kernel

theorem witness_ModsqrOutcome : Field1Met := witness_ModnegOutcome

theorem witness_FieldClosure : 2 ^ 256 - 1 < 2 ^ 256 ∧ 2 ^ 256 - 2 < 2 ^ 256 - 1 ∧ 0 < 2 ^ 256 - 1 := by decide

theorem witness_Arith256Outcome : ready (argsF2 1 2 3) formatF2 = true := by decide +kernel

/-- The modulus 0, and 1. -/
theorem witness_ArithModOutcome : ∀ il ∈ [(Instr.arith256Mod, 4), (.arith384Mod, 6)],
    (ready (argsF3 il.2 1 2 3 0) (formatF3 il.2) = true ∧ intAt (argsF3 il.2 1 2 3 0) il.2 3 = 0) ∧
    (ready (argsF3 il.2 1 2 3 1) (formatF3 il.2) = true ∧ intAt (argsF3 il.2 1 2 3 1) il.2 3 ≠ 0) := by
  decide +kernel

/-- The cases of a one-operand field operation; a candidate that passes (3 modulo the prime 7), and one that
does not (2 modulo 15). -/
theorem witness_ModinvFOutcome : Field1Met ∧ (Nat.Prime 7 ∧ 3 * (3 ^ (7 - 2) % 7) % 7 = 1) ∧
    2 * (2 ^ (15 - 2) % 15) % 15 ≠ 1 := ⟨witness_ModnegOutcome, by norm_num, by decide⟩

/-- The cases of a one-operand field operation; too few words; the true inverse; its successor; a candidate
not below the modulus. -/
theorem witness_HintInverseOutcome : Field1Met ∧ inv3.tail.length < 4 ∧ 4 ≤ inv3.length ∧
    (fromLimbs (inv3.take 4) < bnP ∧ 3 * fromLimbs (inv3.take 4) % bnP = 1) ∧
    ¬ (fromLimbs (inv3.take 4) + 1 < bnP ∧ 3 * (fromLimbs (inv3.take 4) + 1) % bnP = 1) ∧
    ¬ (fromLimbs (inv3.take 4) + bnP < bnP ∧ 3 * (fromLimbs (inv3.take 4) + bnP) % bnP = 1) :=
  ⟨witness_ModnegOutcome, by decide +kernel⟩

/-- `a = BN_P`, `a = 0`, and `a = 3` with the true inverse queued. -/
theorem witness_Bn254FpInvOutcome :
    (let s := idleAt 0x200 [(0x200, [0x1000, 0x4000]), (0x1000, toLimbs 4 bnP)]
     ready s formatF6 = true ∧ bnP ≤ intAt s 4 0) ∧
    (let s := idleAt 0x200 [(0x200, [0x1000, 0x4000])]
     ready s formatF6 = true ∧ intAt s 4 0 = 0) ∧
    (let s := idleAt 0x200 [(0x200, [0x1000, 0x4000]), (0x1000, [3])] inv3
     ready s formatF6 = true ∧ 0 < intAt s 4 0 ∧ intAt s 4 0 < bnP ∧ 4 ≤ s.hintq.length) := by decide +kernel

theorem witness_InverseIsUnique : (0 < 3 ∧ 3 < 7 ∧ Nat.Coprime 3 7 ∧ 7 < 2 ^ (64 * 1) ∧ 5 < 7 ∧ 3 * 5 % 7 = 1) ∧
    (0 < 3 ∧ 3 < 15 ∧ ¬ Nat.Coprime 3 15) ∧ 3 * (3 ^ (7 - 2) % 7) % 7 = 1 := by decide

/-- A non-canonical base; the moduli 1, 2 and 0, the last with each of its three cases. -/
theorem witness_ModexpOutcome :
    (∀ s ∈ [argsF7 [3, 0] [5] [9], argsF7 [2] [5] [1], argsF7 [3] [5] [2], argsF7 [0] [1] [0], argsF7 [1] [0] [0],
      argsF7 [2] [0] [0], argsF7 [0] [0] [0]], s.status = statusIdle ∧ modexpFault s = none) ∧
    (arbCanonical (arbAt (argsF7 [3, 0] [5] [9]) 0) = false ∧ arbCanonical (arbAt (argsF7 [3] [5] [2]) 0) = true) ∧
    arbValue (arbAt (argsF7 [2] [5] [1]) 2) = 1 ∧ 2 ≤ arbValue (arbAt (argsF7 [3] [5] [2]) 2) ∧
    (arbValue (arbAt (argsF7 [0] [1] [0]) 2) = 0 ∧ 0 < arbValue (arbAt (argsF7 [0] [1] [0]) 1)) ∧
    arbValue (arbAt (argsF7 [1] [0] [0]) 0) = 1 ∧ arbValue (arbAt (argsF7 [2] [0] [0]) 0) = 2 ∧
    arbValue (arbAt (argsF7 [0] [0] [0]) 1) = 0 := by decide +kernel

theorem witness_ModexpOutputFits : ([9, 5] : List Nat) ≠ [] ∧ (∀ d ∈ [9, 5], d < 2 ^ 256) ∧
    8 + 2 ^ 256 * 5 < arbValue [9, 5] ∧ ((1 : Nat) < arbValue [0] ∨ 1 ≤ 1) := by decide +kernel

theorem witness_ArbBigFunctions : (∀ d ∈ [2 ^ 256 - 1, 0], d < 2 ^ 256) ∧ ([2 ^ 256 - 1, 0] : List Nat) ≠ [] ∧
    ([7] : List Nat).length ≤ [2 ^ 256 - 1, 0].length ∧
    (arbValue [2 ^ 256 - 1] + arbValue [0] < 2 ^ (256 * 1) ∧ 2 ^ (256 * 1) ≤ arbValue [2 ^ 256 - 1] + arbValue [1]) ∧
    arbValue [7] ≤ arbValue [2 ^ 256 - 1, 0] ∧
    arbValue [6, 0] < arbValue [7] ∧ arbValue [0, 0] = 0 ∧ 0 < arbValue [7] := by decide +kernel

/-- Inside the domain: two off-curve points; outside: an abscissa equal to `p`, the identity, equal abscissas. -/
theorem witness_RawAddOutcome : ∀ p ∈ [secpP, bnP],
    (ready (argsF8 1 1 2 3) formatF8 = true ∧ pointAt (argsF8 1 1 2 3) 0 = ⟨1, 1⟩ ∧
      pointAt (argsF8 1 1 2 3) 1 = ⟨2, 3⟩ ∧ 3 < p) ∧
    (ready (argsF8 p 1 2 3) formatF8 = true ∧ (pointAt (argsF8 p 1 2 3) 0).x = p) ∧
    (ready (argsF8 0 0 2 3) formatF8 = true ∧ pointAt (argsF8 0 0 2 3) 0 = identity) ∧
    (ready (argsF8 1 1 1 3) formatF8 = true ∧
      (pointAt (argsF8 1 1 1 3) 0).x = (pointAt (argsF8 1 1 1 3) 1).x) := by decide +kernel

/-- Inside the domain, and outside it with the ordinate 0. -/
theorem witness_RawDblOutcome :
    (ready (idleAt 0x1000 [(0x1000, ptWords 1 2)]) formatF9 = true ∧
      rdPt (idleAt 0x1000 [(0x1000, ptWords 1 2)]).mem 0x1000 = ⟨1, 2⟩ ∧ 2 < bnP ∧ 2 < secpP) ∧
    (ready (idleAt 0x1000 [(0x1000, ptWords 1 0)]) formatF9 = true ∧
      (rdPt (idleAt 0x1000 [(0x1000, ptWords 1 0)]).mem 0x1000).y = 0) := by decide +kernel

/-- One pair of operands for each of the seven cases. -/
theorem witness_CompleteAddOutcome : ∀ p ∈ [secpP, bnP],
    (∀ s ∈ [argsF8 p 0 1 2, argsF8 0 0 1 2, argsF8 1 2 0 0, argsF8 1 2 1 (p - 2), argsF8 1 2 1 2, argsF8 1 2 1 3,
      argsF8 1 2 2 3], ready s formatF8 = true) ∧
    pointAt (argsF8 1 2 1 (p - 2)) 1 = ⟨1, p - 2⟩ ∧ (2 + (p - 2)) % p = 0 ∧ p - 2 < p ∧
    pointAt (argsF8 1 2 1 3) 1 = ⟨1, 3⟩ ∧ (2 + 3) % p ≠ 0 ∧ (2 + 2) % p ≠ 0 := by decide +kernel

/-- The generator of secp256k1 stands for a point of Mathlib's group. -/
theorem witness_represents_G : Fact secpP.Prime ∧ ∃ g : (shortCurve secpP secpB).Point,
    Represents ⟨secpGx, secpGy⟩ g := by
  have : Fact secpP.Prime := ⟨secpP_prime⟩
  exact ⟨this, .some _ _ ((nonsingular_iff (by decide +kernel) (by decide +kernel) _ _).2
    ((onCurve_iff ⟨secpGx, secpGy⟩).1 (by decide +kernel))), by decide +kernel, by decide +kernel, rfl, rfl⟩

/-- The generator of BN254 stands for a point of Mathlib's group. -/
theorem witness_represents_P : Fact bnP.Prime ∧ ∃ g : (shortCurve bnP bnB).Point, Represents ⟨1, 2⟩ g := by
  have : Fact bnP.Prime := ⟨bnP_prime⟩
  exact ⟨this, .some _ _ ((nonsingular_iff (by decide +kernel) (by decide +kernel) _ _).2
    ((onCurve_iff ⟨1, 2⟩).1 (by decide +kernel))), by decide +kernel, by decide +kernel, rfl, rfl⟩

/-- The hypotheses that the statements about the group share, for both curves. -/
abbrev GroupMet : Prop :=
  (3 < secpP ∧ secpB % secpP ≠ 0 ∧ Fact secpP.Prime ∧
    ∃ g : (shortCurve secpP secpB).Point, Represents ⟨secpGx, secpGy⟩ g) ∧
  (3 < bnP ∧ bnB % bnP ≠ 0 ∧ Fact bnP.Prime ∧ ∃ g : (shortCurve bnP bnB).Point, Represents ⟨1, 2⟩ g)

theorem witness_CompleteAddIsGroupSum : GroupMet :=
  ⟨⟨by decide +kernel, by decide +kernel, witness_represents_G⟩,
    ⟨by decide +kernel, by decide +kernel, witness_represents_P⟩⟩

/-- The scalar 5 with its true position, and with the positions above and below it. -/
theorem witness_SmulIsGroupMultiple : GroupMet ∧ (0 < 5 ∧ 5 < 2 ^ 256 ∧ (⟨secpGx, secpGy⟩ : Point) ≠ identity) ∧
    hintExact 5 0 2 ∧ ¬ hintExact 5 0 3 ∧ ¬ hintExact 5 4 0 ∧ hintExact (2 ^ 256 - 1) 3 63 := by
  refine ⟨witness_CompleteAddIsGroupSum, by decide +kernel, ?_⟩
  unfold hintExact
  decide +kernel

theorem witness_DsmulIsGroupSum : GroupMet ∧ (0 < max 2 3 ∧ max 2 3 < 2 ^ 256) ∧
    hintExact (max 2 3) 0 1 ∧ ¬ hintExact (max 2 3) 0 2 := by
  refine ⟨witness_CompleteAddIsGroupSum, by decide +kernel, ?_⟩
  unfold hintExact
  decide +kernel

/-- V47 and V44: scalar multiplications that complete. -/
theorem witness_ScalarHintMustBeExact : smul 5 ⟨secpGx, secpGy⟩ secpP 0 2 = .ok ⟨g5x, g5y⟩ ∧
    dsmul 2 3 ⟨g2x, g2y⟩ ⟨secpGx, secpGy⟩ secpP 0 1 = .ok ⟨g8x, g8y⟩ := by decide +kernel

/-- Unreduced coordinates; `k = 0`; the identity; `k = 5` and `G` with no word, with the true position, and
with a wrong one; an off-curve point on which the loop faults. -/
theorem witness_SecpMulOutcome :
    (∀ s ∈ [argsF10 5 secpP 1 [], argsF10 0 1 1 [], argsF10 5 0 0 [], argsF10 5 secpGx secpGy [],
      argsF10 5 secpGx secpGy [0, 2], argsF10 5 secpGx secpGy [0, 3]], ready s formatF10 = true) ∧
    (pointAt (argsF10 5 secpP 1 []) 1).x = secpP ∧ intAt (argsF10 0 1 1 []) 4 0 = 0 ∧
    pointAt (argsF10 5 0 0 []) 1 = identity ∧ pointAt (argsF10 5 secpGx secpGy []) 1 = ⟨secpGx, secpGy⟩ ∧
    intAt (argsF10 5 secpGx secpGy []) 4 0 = 5 ∧ smul 5 ⟨secpGx, secpGy⟩ secpP 0 3 = .error .hintVerify := by
  decide +kernel

/-- Unreduced coordinates; two zero scalars; the scalars 2 and 3 with no word, and with the true position; a
point with `G`'s abscissa that is neither `G` nor `-G`. -/
theorem witness_SecpDmulGOutcome :
    (∀ s ∈ [argsF11 2 3 secpP 1 [], argsF11 0 0 1 1 [], argsF11 2 3 g2x g2y [], argsF11 2 3 g2x g2y [0, 1],
      argsF11 2 3 secpGx 1 [4, 0]], ready s formatF11 = true) ∧
    (pointAt (argsF11 2 3 secpP 1 []) 2).x = secpP ∧ intAt (argsF11 0 0 1 1 []) 4 1 = 0 ∧
    intAt (argsF11 2 3 g2x g2y []) 4 0 = 2 ∧ pointAt (argsF11 2 3 g2x g2y []) 2 = ⟨g2x, g2y⟩ ∧
    pointAt (argsF11 2 3 secpGx 1 [4, 0]) 2 = ⟨secpGx, 1⟩ ∧ 1 ≠ secpGy ∧ (secpGy + 1) % secpP ≠ 0 ∧
    dsmul 2 3 ⟨g2x, g2y⟩ ⟨secpGx, secpGy⟩ secpP 0 2 = .error .hintVerify := by decide +kernel

/-- `x = BN_P`; `y = BN_P`; off the curve; the identity; the generator with and without words. -/
theorem witness_EcmulOutcome :
    (∀ s ∈ [argsF10 5 bnP 3 [], argsF10 5 3 bnP [], argsF10 5 1 3 [], argsF10 5 0 0 [], argsF10 5 1 2 [],
      argsF10 5 1 2 [0, 2]], ready s formatF10 = true) ∧
    (pointAt (argsF10 5 bnP 3 []) 1).x = bnP ∧ (pointAt (argsF10 5 3 bnP []) 1).y = bnP ∧
    (pointAt (argsF10 5 1 3 []) 1 = ⟨1, 3⟩ ∧ 3 ^ 2 % bnP ≠ (1 ^ 3 + 3) % bnP) ∧
    pointAt (argsF10 5 0 0 []) 1 = identity ∧ pointAt (argsF10 5 1 2 []) 1 = ⟨1, 2⟩ ∧
    2 ^ 2 % bnP = (1 ^ 3 + 3) % bnP := by decide +kernel

/-- One pair of operands for each error code and for a sum. -/
theorem witness_EcaddOutcome :
    (∀ s ∈ [argsF12 bnP 2 0 0, argsF12 1 bnP 0 0, argsF12 1 2 bnP 0, argsF12 1 2 1 bnP, argsF12 1 3 1 2,
      argsF12 1 2 1 3, argsF12 1 2 1 2, argsF12 0 0 1 2], ready s formatF12 = true) ∧
    pointAt (argsF12 bnP 2 0 0) 0 = ⟨bnP, 2⟩ ∧ pointAt (argsF12 1 bnP 0 0) 0 = ⟨1, bnP⟩ ∧
    pointAt (argsF12 1 2 bnP 0) 1 = ⟨bnP, 0⟩ ∧ pointAt (argsF12 1 2 1 bnP) 1 = ⟨1, bnP⟩ ∧
    3 ^ 2 % bnP ≠ (1 ^ 3 + 3) % bnP ∧ 2 ^ 2 % bnP = (1 ^ 3 + 3) % bnP ∧ Fact bnP.Prime := by
  refine ⟨by decide +kernel, by decide +kernel, by decide +kernel, by decide +kernel, by decide +kernel,
    by decide +kernel, by decide +kernel, witness_represents_P.1⟩

/-- Reduced components up to `BN_P - 1`, and one equal to `BN_P`. -/
theorem witness_ComplexOutcome :
    (ready (argsF8 (bnP - 1) (bnP - 1) 1 2) formatF8 = true ∧
      rdFp2 (argsF8 (bnP - 1) (bnP - 1) 1 2).mem 0x1000 = ⟨bnP - 1, bnP - 1⟩) ∧
    (ready (argsF8 bnP 0 0 1) formatF8 = true ∧ rdFp2 (argsF8 bnP 0 0 1).mem 0x1000 = ⟨bnP, 0⟩) := by
  decide +kernel

theorem witness_Fp2InverseIsDefined : f2Reduced ⟨bnP - 1, 1⟩ = true ∧ f2Reduced f2zero = true ∧
    (⟨bnP - 1, 1⟩ : Fp2) ≠ f2zero := by decide +kernel

/-- From a test that a computation answers to its answer. -/
theorem answer_of_ok {α : Type} {x : Except FaultCause α}
    (h : (match x with | .ok _ => true | .error _ => false) = true) : ∃ a, x = .ok a := by
  cases x with
  | ok a => exact ⟨a, rfl⟩
  | error c => cases h

/-- The Miller loop of the generators answers. -/
theorem witness_miller : ∃ f, miller ⟨1, 2⟩ bnG2 = .ok f := answer_of_ok (by decide +kernel)

/-- Format F13 on the pairs of `(1, -2)` and `(1, 2)` with the generator of G2. -/
def argsF13pairs : State :=
  idleAt 0x200 [(0x200, [0x1000, 0x1080, 2, 0x4000]), (0x1000, ptWords 1 (bnP - 2) ++ ptWords 1 2),
    (0x1080, (ptWords bnG2.x.re bnG2.x.im ++ ptWords bnG2.y.re bnG2.y.im) ++
      (ptWords bnG2.x.re bnG2.x.im ++ ptWords bnG2.y.re bnG2.y.im))]

/-- A code found; no pair; a valid pair with one identity, for which the product check answers; two valid pairs,
one the other with a negated side, whose Miller loop answers; the single pair of the generators. -/
theorem witness_EcpairingOutcome :
    (∀ s ∈ [argsF13 1 bnP 2 0 0 0 0, argsF13 0 0 0 0 0 0 0, argsF13 1 1 2 0 0 0 0, argsF13pairs,
        argsF13 1 1 2 bnG2.x.re bnG2.x.im bnG2.y.re bnG2.y.im], s.status = statusIdle ∧ pairingFault s = none) ∧
    validatePairs (rdPairs (argsF13 1 bnP 2 0 0 0 0).mem 0x1000 0x1040 1) = .ok (some .p1xRange) ∧
    (structWord (argsF13 0 0 0 0 0 0 0) 2).toNat = 0 ∧
    rdPairs (argsF13 1 1 2 0 0 0 0).mem 0x1000 0x1040 1 = [⟨⟨1, 2⟩, g2Identity⟩] ∧
    (validatePair ⟨⟨1, 2⟩, g2Identity⟩ = .ok none ∧ isId2 g2Identity = true ∧
      pairingCheck [⟨⟨1, 2⟩, g2Identity⟩] = .ok true) ∧
    (rdPairs argsF13pairs.mem 0x1000 0x1080 2 = [⟨⟨1, negm 2 bnP⟩, bnG2⟩, ⟨⟨1, 2⟩, bnG2⟩] ∧
      validatePairs [⟨⟨1, negm 2 bnP⟩, bnG2⟩, ⟨⟨1, 2⟩, bnG2⟩] = .ok none) ∧
    rdPairs (argsF13 1 1 2 bnG2.x.re bnG2.x.im bnG2.y.re bnG2.y.im).mem 0x1000 0x1040 1 = [⟨⟨1, 2⟩, bnG2⟩] ∧
    (validPoint ⟨1, 2⟩ bnP bnB = true ∧ (⟨1, 2⟩ : Point) ≠ identity ∧ g2Reduced bnG2 = true) ∧
    ∃ f, miller ⟨1, 2⟩ bnG2 = .ok f := by
  have order : g2Mul bnR bnG2 = .ok g2Identity := by decide +kernel
  refine ⟨by decide +kernel, by decide +kernel, by decide +kernel, by decide +kernel, by decide +kernel,
    ⟨by decide +kernel, ?_⟩, by decide +kernel, by decide +kernel, witness_miller⟩
  have h1 : checkG1 ⟨1, 2⟩ .p1xRange .p1yRange .p1OffCurve = none := by decide +kernel
  have h2 : checkG1 ⟨1, negm 2 bnP⟩ .p1xRange .p1yRange .p1OffCurve = none := by decide +kernel
  have h3 : g2Reduced bnG2 = true ∧ isId2 bnG2 = false ∧ onTwist bnG2 = true ∧ isId2 g2Identity = true := by
    decide +kernel
  have hv : ∀ pt, checkG1 pt .p1xRange .p1yRange .p1OffCurve = none → validatePair ⟨pt, bnG2⟩ = .ok none := by
    intro pt h
    simp only [validatePair, h, h3, order, Bool.not_true, Bool.false_eq_true, if_false]
    rfl
  simp only [validatePairs, hv _ h1, hv _ h2]
  rfl

/-- A field that has the roots of the tower. -/
theorem witness_tower : ∃ (K : Type) (_ : Field K) (i v w : K), TowerRoots i v w := by
  have : Fact bnP.Prime := ⟨bnP_prime⟩
  obtain ⟨i, hi⟩ := IsAlgClosed.exists_pow_nat_eq (-1 : AlgebraicClosure (ZMod bnP)) (n := 2) (by norm_num)
  obtain ⟨v, hv⟩ := IsAlgClosed.exists_pow_nat_eq (9 + i) (n := 3) (by norm_num)
  obtain ⟨w, hw⟩ := IsAlgClosed.exists_pow_nat_eq v (n := 2) (by norm_num)
  exact ⟨_, inferInstance, i, v, w, CharP.cast_eq_zero _ _, hi, hv, hw⟩

/-- The generator of G2 stands for a point of Mathlib's group, over a field that has `i`. -/
theorem witness_represents_Q : ∃ (K : Type) (_ : Field K) (_ : DecidableEq K) (i : K), (bnP : K) = 0 ∧ i ^ 2 = -1 ∧
    ∃ g : (twistCurve i).Point, RepresentsG2 bnG2 g := by
  obtain ⟨K, hK, i, v, w, hp, hi, -, -⟩ := witness_tower
  have eq : fp2In i bnG2.y ^ 2 = fp2In i bnG2.x ^ 3 + fp2In i twistB := by
    have h : f2mul bnG2.y bnG2.y = f2add (f2mul bnG2.x (f2mul bnG2.x bnG2.x)) twistB := by decide +kernel
    have h := congrArg (fp2In i) h
    simp only [fp2In_mul hp hi, fp2In_add hp] at h
    linear_combination h
  have hy : fp2In i bnG2.y * (2 * fp2In i (f2inv (f2mul ⟨2, 0⟩ bnG2.y))) = 1 := by
    have h : f2mul bnG2.y (f2mul ⟨2, 0⟩ (f2inv (f2mul ⟨2, 0⟩ bnG2.y))) = f2one := by decide +kernel
    have h := congrArg (fp2In i) h
    have one : fp2In i f2one = 1 := by simp [fp2In, f2one]
    have two : fp2In i ⟨2, 0⟩ = 2 := by simp [fp2In]
    rwa [fp2In_mul hp hi, fp2In_mul hp hi, one, two] at h
  refine ⟨K, hK, Classical.decEq K, i, hp, hi,
    .some (fp2In i bnG2.x) (fp2In i bnG2.y) ?_, by decide +kernel, rfl, rfl⟩
  rw [WeierstrassCurve.Affine.nonsingular_iff, WeierstrassCurve.Affine.equation_iff]
  refine ⟨by simpa [twistCurve] using eq, .inr ?_⟩
  simp only [twistCurve, zero_mul, sub_zero]
  intro h
  have h2 : 2 * fp2In i bnG2.y = 0 := by linear_combination h
  have : (1 : K) = 0 := by
    linear_combination (-1 : K) * hy + (fp2In i (f2inv (f2mul ⟨2, 0⟩ bnG2.y))) * h2
  exact one_ne_zero this

/-- One pair for each clause; a list with the error in its second pair; a field and a point of the twist. -/
theorem witness_PairValidation : (bnP ≤ (⟨bnP, 2⟩ : Point).x ∧
    (¬ solvesCurve ⟨1, 3⟩ bnP 3 ∧ (⟨1, 3⟩ : Point) ≠ identity) ∧ solvesCurve ⟨1, 2⟩ bnP 3 ∧
    onTwist ⟨⟨0, 1⟩, ⟨0, 0⟩⟩ = false ∧ onTwist bnG2 = true ∧
    g2Reduced ⟨⟨bnP - 1, 0⟩, f2zero⟩ = true ∧ g2Reduced ⟨⟨bnP, 0⟩, f2zero⟩ = false ∧
    validatePair ⟨⟨1, 2⟩, g2Identity⟩ = .ok none ∧ validatePair ⟨⟨1, 3⟩, g2Identity⟩ = .ok (some .p1OffCurve) ∧
    validPoint ⟨1, 2⟩ bnP bnB = true ∧ validPoint identity bnP bnB = true) ∧
    ∃ (K : Type) (_ : Field K) (_ : DecidableEq K) (i : K), (bnP : K) = 0 ∧ i ^ 2 = -1 ∧
      ∃ g : (twistCurve i).Point, RepresentsG2 bnG2 g := by
  refine ⟨?_, witness_represents_Q⟩
  unfold solvesCurve
  decide +kernel

/-- A permuted list for which the product check answers; a pair with an identity; a pair without one whose Miller
loop answers; a tangent and a chord; a ring with the roots of the tower. -/
theorem witness_PairOrderIrrelevant :
    ([⟨⟨1, 2⟩, g2Identity⟩, (⟨identity, bnG2⟩ : Pair)].Perm [⟨identity, bnG2⟩, ⟨⟨1, 2⟩, g2Identity⟩] ∧
      pairingCheck [⟨⟨1, 2⟩, g2Identity⟩, ⟨identity, bnG2⟩] = .ok true ∧
      isId identity = true ∧ isId2 g2Identity = true) ∧
    ((∀ k ∈ [(⟨⟨1, 2⟩, bnG2⟩ : Pair)], isId k.g1 = false ∧ isId2 k.g2 = false) ∧
      ∃ f, List.Forall₂ (fun k f => miller k.g1 k.g2 = .ok f) [(⟨⟨1, 2⟩, bnG2⟩ : Pair)] [f]) ∧
    (g2Reduced bnG2 = true ∧ bnG2.y ≠ f2zero ∧ g2Reduced (g2Frob bnG2) = true ∧ bnG2 ≠ g2Frob bnG2 ∧
      bnG2.x ≠ (g2Frob bnG2).x ∧ bnG2 ≠ g2Identity ∧ g2Frob bnG2 ≠ g2Identity) ∧
    ∃ (K : Type) (_ : Field K) (i v w : K), TowerRoots i v w := by
  refine ⟨⟨List.Perm.swap _ _ _, by decide +kernel⟩, ⟨by decide +kernel, ?_⟩, by decide +kernel, witness_tower⟩
  obtain ⟨f, hf⟩ := witness_miller
  exact ⟨f, .cons hf .nil⟩

/-- One operation that ends with two different hint queues, and a completion that does. -/
theorem witness_HintIndependence :
    (∃ t, exec .modinv256H (argsF5 4 3 bnP (inv3 ++ [0x11])) = .next t ∧ t.status = statusIdle) ∧
    endsOk .modinv256H { argsF5 4 3 bnP (inv3 ++ [0x11]) with hintq := inv3 } 0 0x4000 inv3 = true ∧
    (complete pend3 { waitAt [] [] with hintq := inv3 }).status = statusIdle ∧
    (complete pend3 { waitAt [] [] with hintq := inv3 ++ [0x11] }).status = statusIdle :=
  ⟨next_of_endsOk test_modinv256H.1, by decide +kernel, by decide +kernel, by decide +kernel⟩

/-- Two idle states that differ in `OP`, `RET`, `CAUSE` and the host's script. -/
theorem witness_NothingElseSurvives :
    let s := argsF1 1 2 0
    let s' : State := { s with op := 3, ret := 7, cause := 1, host := [.reset] }
    s.status = statusIdle ∧ s'.status = statusIdle ∧ s.mem = s'.mem ∧ s.arg = s'.arg ∧ s.plat = s'.plat ∧
      s.hintq = s'.hintq ∧ endsOk .add256 s 0 0x4000 [3, 0, 0, 0] = true ∧
      ∃ t', exec .add256 s' = .next t' :=
  ⟨by decide, by decide, rfl, rfl, rfl, rfl, by decide +kernel, ⟨_, rfl⟩⟩

/-- A waiting state with the words it needs, right and wrong ones. -/
theorem witness_WaitingCompletes : (waitAt inv3 []).status = statusWaitHint ∧ (waitAt inv3 []).pend = some pend3 ∧
    pend3.need ≤ (waitAt inv3 []).hintq.length ∧ pend3.result inv3 = .ok ([Store.int 4 0x4000 (fromLimbs inv3)], 0) ∧
    pend3.result [1, 0, 0, 0] = .error .hintVerify := by decide +kernel

/-- A waiting state with one word too few, whose host pushes, and one whose host writes `ARG`. -/
theorem witness_WaitingPersists :
    let s := waitAt (inv3.take 3) [.pushHint 0x2042DEF740CBC01B]
    s.status = statusWaitHint ∧ s.pend = some pend3 ∧ s.hintq.length < pend3.need ∧
      (∀ act ∈ s.host.take 1, act ≠ .reset) ∧ (∃ t, step s = .next t) ∧
      (∀ a v, s.host.head? ≠ some (.store a v)) ∧ s.host.head? = some (.pushHint 0x2042DEF740CBC01B) ∧
      (∀ w, (waitAt [] [.writeArg 8]).host.head? ≠ some (.pushHint w)) ∧ ∃ t, step (waitAt [] [.writeArg 8]) = .next t :=
  ⟨by decide, by decide, by decide, by decide, ⟨_, rfl⟩, (by intro a v h; cases h), rfl,
    (by intro w h; cases h), ⟨_, rfl⟩⟩

/-- A waiting state whose host pushes the one word that lacks. -/
theorem witness_WaitEndsAfterPushes :
    let s := waitAt (inv3.take 3) [.pushHint 0x2042DEF740CBC01B, .reset]
    s.status = statusWaitHint ∧ s.pend = some pend3 ∧ s.plat.hintDepth = none ∧
      s.hintq.length + [(0x2042DEF740CBC01B : Word)].length = pend3.need ∧
      s.host = [(0x2042DEF740CBC01B : Word)].map .pushHint ++ [.reset] := by decide

/-- An operation that comes to wait for one more word. -/
theorem witness_PushBeforeOrAfter :
    let s := argsF5 6 7 blsP ((toLimbs 6 inv7).take 5)
    s.status = statusIdle ∧ s.plat.hintDepth = none ∧
      (∃ u, exec .modinv384H s = .next u ∧ u.status = statusWaitHint ∧
        u.pend = some (.modinv384H 7 (BitVec.ofNat 384 blsP) 0x4000)) ∧
      s.hintq.length + ((toLimbs 6 inv7).drop 5).length =
        (Pend.modinv384H 7 (BitVec.ofNat 384 blsP) 0x4000).need :=
  ⟨by decide, by decide, next_of_waitsOk test_modinv384H.1, by decide +kernel⟩

/-- A ring with the roots of the tower; reduced elements, not 0, of Fp6 and Fp12. -/
theorem witness_TowerArithmetic : (∃ (K : Type) (_ : Field K) (i v w : K), TowerRoots i v w) ∧
    (f6Reduced ⟨⟨bnP - 1, 0⟩, ⟨0, 1⟩, f2zero⟩ = true ∧ (⟨⟨bnP - 1, 0⟩, ⟨0, 1⟩, f2zero⟩ : Fp6) ≠ f6zero) ∧
    f12Reduced ⟨f6zero, ⟨f2zero, f2zero, ⟨0, bnP - 1⟩⟩⟩ = true ∧
    (⟨f6zero, ⟨f2zero, f2zero, ⟨0, bnP - 1⟩⟩⟩ : Fp12) ≠ ⟨f6zero, f6zero⟩ :=
  ⟨witness_tower, by decide +kernel⟩

end Sys2Proof.Machine
end

section
/-! PROOF. The statements about PCORE's state (spec/10_state.md): reset, host writes, the step that runs a decoded
operation, the machine invariant, what an operation's effect depends on, and how a waiting operation ends. -/

namespace Sys2Proof.Machine

/-! ### The decoder, on the codes of the table (spec/30_encoding.md R80) -/

/-- Every row of the table compares all eight bits of the code with the code of its operation. -/
theorem opTable_rows : ∀ r ∈ opTable, r.mask = BitVec.allOnes 8 ∧ r.code = encode r.instr := by decide

theorem encode_of_decode {c : Byte} {i : Instr} (h : decode c = .ok i) : encode i = c := by
  unfold decode at h
  split at h
  next r hr =>
    obtain ⟨hmask, hcode⟩ := opTable_rows r (List.mem_of_find?_eq_some hr)
    have hc : c &&& r.mask = r.code := by simpa using List.find?_some hr
    rw [hmask, BitVec.and_allOnes] at hc
    rw [← Except.ok.inj h, ← hcode, hc]
  next => cases h

theorem decode_encode (i : Instr) : decode (encode i) = .ok i := by cases i <;> rfl

/-! ### One step, case by case (spec/10_state.md R20, R37) -/

theorem step_of_ready {s : State} {p : Pend} (h : readyPend s = some p) : step s = .next (complete p s) := by
  simp only [step, h]

theorem step_of_host {s : State} {act : HostAction} {rest : List HostAction} (h : readyPend s = none)
    (hh : s.host = act :: rest) : step s = hostStep act { s with host := rest } := by
  simp only [step, h, hh]

/-- A waiting operation that lacks words has no completion enabled. -/
theorem readyPend_of_lacking {s : State} {p : Pend} (hp : s.pend = some p) (hl : s.hintq.length < p.need) :
    readyPend s = none := by
  cases hr : readyPend s with
  | none => rfl
  | some q =>
    obtain ⟨hq, -, hle⟩ := readyPend_some.1 hr
    cases hp.symm.trans hq
    omega

/-! ### Single host actions (spec/10_state.md R22, R23, R28) -/

theorem hostStep_writeOp_ok {c : Byte} {i : Instr} (s : State) (h : decode c = .ok i) :
    hostStep (.writeOp c) s = exec i s := by
  simp only [hostStep, hostWriteOp, h]

theorem hostStep_writeOp_error {c : Byte} {e : DecodeError} (s : State) (h : decode c = .error e) :
    hostStep (.writeOp c) s = issueIllegal c s := by
  simp only [hostStep, hostWriteOp, h]

theorem issueIllegal_idle {c : Byte} {s : State} (h : s.status = statusIdle) :
    issueIllegal c s = .next (takeFault .illegalOp { s with op := c }) := by
  rw [issueIllegal, if_pos h]

theorem issueIllegal_busy {c : Byte} {s : State} (h : s.status ≠ statusIdle) : issueIllegal c s = .next s := by
  rw [issueIllegal, if_neg h]

theorem hostWriteArg_idle (v : Word) {s : State} (h : s.status = statusIdle) :
    hostWriteArg v s = { s with arg := v } := by
  rw [hostWriteArg, if_pos h]

theorem hostWriteArg_busy (v : Word) {s : State} (h : s.status ≠ statusIdle) : hostWriteArg v s = s := by
  rw [hostWriteArg, if_neg h]

theorem hostStep_pushHint_fault {s : State} (w : Word) (h : s.status = statusFault) :
    hostStep (.pushHint w) s = .next s := by
  simp only [hostStep, hostPush, if_pos h]

theorem hostStep_pushHint_room {s : State} (w : Word) (h : s.status ≠ statusFault)
    (hroom : ∀ d, s.plat.hintDepth = some d → s.hintq.length < d) :
    hostStep (.pushHint w) s = .next { s with hintq := s.hintq ++ [w] } := by
  simp only [hostStep, hostPush, if_neg h]
  split
  next => rfl
  next d hd => rw [if_pos (hroom d hd)]

/-- A push that goes on outside `FAULT` has appended its word. -/
theorem hostStep_pushHint_next {s t : State} {w : Word} (h : s.status ≠ statusFault)
    (ht : hostStep (.pushHint w) s = .next t) : t = { s with hintq := s.hintq ++ [w] } := by
  simp only [hostStep, hostPush, if_neg h] at ht
  split at ht
  next => exact (Host.Outcome.next.inj ht).symm
  next =>
    split at ht
    next => exact (Host.Outcome.next.inj ht).symm
    next => cases ht

/-- In `IDLE` a write to `OP`, of any code, leaves the code in `OP` and `ARG` as it was. -/
theorem hostStep_writeOp_idle {s : State} (h : s.status = statusIdle) (c : Byte) :
    ∃ t, hostStep (.writeOp c) s = .next t ∧ t.op = c ∧ t.arg = s.arg := by
  cases hd : decode c with
  | ok i =>
    obtain ⟨hop, harg, -, -⟩ := applyPlan_fields (issued i s) (bodyOf i (issued i s))
    exact ⟨_, (hostStep_writeOp_ok s hd).trans (exec_idle h), hop.trans (encode_of_decode hd), harg⟩
  | error e => exact ⟨_, (hostStep_writeOp_error s hd).trans (issueIllegal_idle h), rfl, rfl⟩

/-! ### The statements of tier 1 -/

/-- Settles O3: `step` takes the host's next action, and a write of the code of `i` decodes to `i`. -/
theorem stepRunsDecodedOperation : Obligations.StepRunsDecodedOperation := by
  unfold Obligations.StepRunsDecodedOperation
  refine ⟨fun s c rest i hr hh hd _ => ?_, fun s i => ?_⟩
  · rw [step_of_host hr hh, hostStep_writeOp_ok _ hd]
  · have hcode : BitVec.ofNat 8 ((encode i).toNat % 2 ^ 8) = encode i := by
      rw [Nat.mod_eq_of_lt (encode i).isLt, BitVec.ofNat_toNat, BitVec.setWidth_eq]
    have hr : readyPend (s.withFetchWord 8 (encode i).toNat) = none := readyPend_not_waiting (by simp)
    rw [step_of_host hr (withFetchWord_host ..), hcode, hostStep_writeOp_ok _ (decode_encode i)]
    rfl

/-- Settles O4: both states are given by their fields. -/
theorem resetValues : Obligations.ResetValues := by
  unfold Obligations.ResetValues
  exact ⟨⟨rfl, rfl, rfl, rfl, rfl, rfl, rfl⟩, fun s => ⟨applyReset s, rfl, rfl, rfl, rfl, rfl, rfl, rfl, rfl, rfl⟩⟩

/-- Settles O8, from the rule of each host action. -/
theorem hostWrites : Obligations.HostWrites := by
  unfold Obligations.HostWrites
  refine ⟨fun s h => ⟨fun v => ?_, hostStep_writeOp_idle h⟩, fun s w => ⟨?_, hostStep_pushHint_fault w⟩⟩
  · rw [hostStep, hostWriteArg_idle v h]
  · exact hostStep_pushHint_room w

/-! ### The machine invariant (spec/10_state.md R25, R26, R32) -/

/-- The states in which nothing is latched, that is in `IDLE` and `FAULT`, need no more than this. -/
theorem Inv.of_not_waiting {s : State} (hm : s.mem.wf) (hp : s.pend = none)
    (hs : s.status = statusIdle ∧ s.cause = causeNone ∨
      s.status = statusFault ∧ ∃ c : FaultCause, s.cause = c.code) : Inv s := by
  rcases hs with ⟨hst, hc⟩ | ⟨hst, c, hc⟩
  · exact ⟨hm, .inl hst, by simp [hst, hc], by rw [hc]; decide, by simp [hp, hst], by simp [hp]⟩
  · exact ⟨hm, .inr (.inr hst), by simp [hst, hc, causeCode_ne_none], hc ▸ causeCode_le c,
      by simp [hp, hst], by simp [hp]⟩

theorem Inv.takeFault {s : State} (c : FaultCause) (hm : s.mem.wf) : Inv (takeFault c s) :=
  .of_not_waiting hm rfl (.inr ⟨rfl, c, rfl⟩)

theorem Inv.finish {s : State} {ss : List Store} (ret : Word) (hm : s.mem.wf) (hc : s.cause = causeNone)
    (hs : storesInSpace ss) : Inv (finish ss ret s) :=
  .of_not_waiting (applyStores_wf hm ss hs) rfl (.inl ⟨rfl, hc⟩)

theorem Inv.applyReset {s : State} (hm : s.mem.wf) : Inv (applyReset s) :=
  .of_not_waiting hm rfl (.inl ⟨rfl, rfl⟩)

/-- A latched record that has passed its checks completes into a state of the invariant. -/
theorem Inv.complete {s : State} {p : Pend} (hm : s.mem.wf) (hc : s.cause = causeNone) (hp : pendOk s.plat p) :
    Inv (complete p s) := by
  rcases complete_cases p s with ⟨ss, ret, hr, h⟩ | ⟨c, -, h⟩ <;> rw [h]
  · exact .finish ret hm hc (result_in_space hp hr)
  · exact .takeFault c hm

theorem Inv.startHinted {s : State} {p : Pend} (hm : s.mem.wf) (hc : s.cause = causeNone)
    (hp : pendOk s.plat p) : Inv (startHinted p s) := by
  by_cases h : p.need ≤ s.hintq.length
  · rw [startHinted_completes h]
    exact .complete hm hc hp
  · rw [startHinted_waits (Nat.lt_of_not_le h)]
    exact
      { memory := hm
        status := .inr (.inl rfl)
        cause := by simp [hc]
        codes := by simp [hc, causeNone]
        pend := by simp
        latch := fun q hq => Option.some.inj hq ▸ hp }

/-- A body's answer that has passed its checks, applied to a state without a fault. -/
theorem Inv.applyPlan {s : State} {r : Except FaultCause Plan} (hm : s.mem.wf) (hc : s.cause = causeNone)
    (hr : ∀ pl, r = .ok pl → planOk s.plat pl) : Inv (applyPlan s r) := by
  cases r with
  | error c => exact .takeFault c hm
  | ok pl =>
    have hok : planOk s.plat pl := hr pl rfl
    cases pl with
    | done ss ret => exact .finish ret hm hc hok
    | hint p => exact .startHinted hm hc hok

theorem Inv.exec {s t : State} {i : Instr} (hi : Inv s) (h : exec i s = .next t) : Inv t := by
  by_cases hs : s.status = statusIdle
  · have hc : s.cause = causeNone := hi.cause.2 (by simp [hs])
    rw [exec_idle hs] at h
    rw [← Host.Outcome.next.inj h]
    exact .applyPlan hi.memory hc (bodyOf_planOk i (issued i s))
  · rw [exec_busy hs] at h
    rwa [← Host.Outcome.next.inj h]

/-- The invariant speaks of `STATUS`, `CAUSE`, `PEND` and the platform, and of the form of memory only. -/
theorem Inv.congr {s t : State} (hi : Inv s) (hm : t.mem.wf) (hs : t.status = s.status) (hc : t.cause = s.cause)
    (hp : t.pend = s.pend) (hpl : t.plat = s.plat) : Inv t :=
  ⟨hm, hs ▸ hi.status, hc ▸ hs ▸ hi.cause, hc ▸ hi.codes, hp ▸ hs ▸ hi.pend, hp ▸ hpl ▸ hi.latch⟩

theorem Inv.hostStep {s t : State} {act : HostAction} (hi : Inv s) (h : hostStep act s = .next t) : Inv t := by
  rcases hostStep_cases h with ⟨c, i, -, -, h⟩ | ⟨c, e, -, -, h⟩ | ⟨v, -, rfl⟩ | ⟨w, -, rfl | ⟨-, rfl⟩⟩ |
    ⟨r, -, rfl⟩ | ⟨a, v, -, hr, rfl⟩ | ⟨-, rfl⟩
  · exact hi.exec h
  · by_cases hs : s.status = statusIdle
    · rw [issueIllegal_idle hs] at h
      rw [← Host.Outcome.next.inj h]
      exact .takeFault _ hi.memory
    · rw [issueIllegal_busy hs] at h
      rwa [← Host.Outcome.next.inj h]
  · by_cases hs : s.status = statusIdle
    · rw [hostWriteArg_idle v hs]
      exact hi.congr hi.memory rfl rfl rfl rfl
    · rwa [hostWriteArg_busy v hs]
  · exact hi
  · exact hi.congr hi.memory rfl rfl rfl rfl
  · exact hi
  · exact hi.congr (wrW_wf hi.memory _ _ (rangeOk_space hr)) rfl rfl rfl rfl
  · exact .applyReset hi.memory

/-- Settles O6: a step is a completion of a latched record, nothing, or one action of the host. -/
theorem stepKeepsInv : Obligations.StepKeepsInv := by
  unfold Obligations.StepKeepsInv
  intro s t hi h
  rcases step_cases h with ⟨p, hr, rfl⟩ | ⟨-, -, rfl⟩ | ⟨act, rest, -, -, h⟩
  · obtain ⟨hp, hs, -⟩ := readyPend_some.1 hr
    have hc : s.cause = causeNone := hi.cause.2 (by simp [hs])
    exact .complete hi.memory hc (hi.latch p hp)
  · exact hi
  · have hi' : Inv { s with host := rest } := hi.congr hi.memory rfl rfl rfl rfl
    exact hi'.hostStep h

/-! ### What an operation's body reads (spec/10_state.md R21, spec/20_memory.md R64) -/

/-- Two states that show an operation the same operands: the same memory, `ARG` and platform. -/
structure SameOperands (s s' : State) : Prop where
  mem  : s.mem = s'.mem
  arg  : s.arg = s'.arg
  plat : s.plat = s'.plat

section
variable {s s' : State} (h : SameOperands s s')
include h

theorem SameOperands.structWord_congr (k : Nat) : structWord s k = structWord s' k := by
  rw [structWord, structWord, h.mem, h.arg]

theorem SameOperands.ptr_congr (k : Nat) : ptr s k = ptr s' k := by
  rw [ptr, ptr, h.structWord_congr]

theorem SameOperands.intAt_congr (l k : Nat) : intAt s l k = intAt s' l k := by
  rw [intAt, intAt, h.mem, h.ptr_congr]

theorem SameOperands.pointAt_congr (k : Nat) : pointAt s k = pointAt s' k := by
  rw [pointAt, pointAt, h.mem, h.ptr_congr]

theorem SameOperands.arbAt_congr (k : Nat) : arbAt s k = arbAt s' k := by
  rw [arbAt, arbAt, h.mem, h.ptr_congr]

theorem SameOperands.structFault_congr (n : Nat) (acc : Access) : structFault s n acc = structFault s' n acc := by
  rw [structFault, structFault, h.arg, h.plat]

theorem SameOperands.bufsFault_congr (bs : List Buf) : bufsFault s bs = bufsFault s' bs := by
  induction bs with
  | nil => rfl
  | cons b rest ih => simp only [bufsFault, ih, h.ptr_congr, h.plat]

theorem SameOperands.arbFault_congr (k : Nat) : arbFault s k = arbFault s' k := by
  simp only [arbFault, h.ptr_congr, h.mem, h.plat]

theorem SameOperands.checkFormat_congr (f : Format) : checkFormat s f = checkFormat s' f := by
  simp only [checkFormat_eq, memoryFault, h.structFault_congr, h.bufsFault_congr]

theorem SameOperands.checkF7_congr : checkF7 s = checkF7 s' := by
  simp only [checkF7_eq, modexpFault, h.structFault_congr, h.arbFault_congr, h.ptr_congr, h.mem, h.plat]

theorem SameOperands.checkF13_congr : checkF13 s = checkF13 s' := by
  simp only [checkF13_eq, pairingFault, h.structFault_congr, h.structWord_congr, h.ptr_congr, h.plat]

/-- The answer of every operation's body depends on memory, `ARG` and the platform only. -/
theorem SameOperands.bodyOf_congr (i : Instr) : bodyOf i s = bodyOf i s' := by
  cases i <;> simp only [bodyOf]
  case add256 => simp only [bodyAdd256, h.checkFormat_congr, h.intAt_congr, h.ptr_congr, h.structWord_congr]
  case modadd256 | modsub256 | modadd384 | modsub384 | modmul256 | modmul384 =>
    simp only [fieldOp2, h.checkFormat_congr, h.intAt_congr, h.ptr_congr]
  case modneg256 | modneg384 | modsqr256 | modsqr384 =>
    simp only [fieldOp1, h.checkFormat_congr, h.intAt_congr, h.ptr_congr]
  case arith256 => simp only [bodyArith256, h.checkFormat_congr, h.intAt_congr, h.ptr_congr]
  case arith256Mod | arith384Mod => simp only [bodyArithMod, h.checkFormat_congr, h.intAt_congr, h.ptr_congr]
  case modinv256F | modinv384F => simp only [bodyModinvF, h.checkFormat_congr, h.intAt_congr, h.ptr_congr]
  case modinv256H | modinv384H => simp only [bodyModinvH, h.checkFormat_congr, h.intAt_congr, h.structWord_congr]
  case bn254FpInv => simp only [bodyBn254FpInv, h.checkFormat_congr, h.intAt_congr, h.ptr_congr, h.structWord_congr]
  case modexp => simp only [bodyModexp, h.checkF7_congr, h.arbAt_congr, h.ptr_congr]
  case secp256k1Add | secp256k1Cadd | bn254CurveAdd | bn254Cadd =>
    simp only [pointOp2, h.checkFormat_congr, h.pointAt_congr, h.ptr_congr]
  case secp256k1Dbl | bn254CurveDbl => simp only [pointOp1, h.checkFormat_congr, h.mem, h.arg]
  case secp256k1Mul =>
    simp only [bodySecpMul, h.checkFormat_congr, h.intAt_congr, h.pointAt_congr, h.ptr_congr, h.structWord_congr]
  case secp256k1DmulG =>
    simp only [bodySecpDmulG, h.checkFormat_congr, h.intAt_congr, h.pointAt_congr, h.ptr_congr, h.structWord_congr]
  case bn254Ecadd => simp only [bodyBn254Ecadd, h.checkFormat_congr, h.pointAt_congr, h.ptr_congr]
  case bn254Ecmul =>
    simp only [bodyBn254Ecmul, h.checkFormat_congr, h.intAt_congr, h.pointAt_congr, h.ptr_congr, h.structWord_congr]
  case bn254ComplexAdd | bn254ComplexSub | bn254ComplexMul =>
    simp only [fp2Op2, h.checkFormat_congr, h.mem, h.ptr_congr]
  case bn254Ecpairing => simp only [bodyBn254Ecpairing, h.checkF13_congr, h.mem, h.ptr_congr, h.structWord_congr]

end

/-! ### Two runs of one operation (spec/10_state.md R31) -/

/-- What two runs of one operation on the same operands and hint words have in common. -/
structure SameOutcome (t t' : State) : Prop where
  op     : t.op = t'.op
  mem    : t.mem = t'.mem
  status : t.status = t'.status
  hintq  : t.hintq = t'.hintq
  pend   : t.pend = t'.pend
  ret    : t.status = statusIdle → t.ret = t'.ret
  cause  : t.status = statusFault → t.cause = t'.cause

section
variable {s s' : State} (hop : s.op = s'.op) (hm : s.mem = s'.mem) (hq : s.hintq = s'.hintq)
include hop hm hq

theorem SameOutcome.takeFault (c : FaultCause) : SameOutcome (takeFault c s) (takeFault c s') :=
  ⟨hop, hm, rfl, hq, rfl, fun h => absurd h fault_ne_idle, fun _ => rfl⟩

theorem SameOutcome.finish (ss : List Store) (ret : Word) : SameOutcome (finish ss ret s) (finish ss ret s') :=
  ⟨hop, by rw [finish_mem, finish_mem, hm], rfl, hq, rfl, fun _ => rfl, fun h => absurd h idle_ne_fault⟩

theorem SameOutcome.complete (p : Pend) : SameOutcome (complete p s) (complete p s') := by
  have hdrop : s.hintq.drop p.need = s'.hintq.drop p.need := by rw [hq]
  cases hr : p.result (s.hintq.take p.need) with
  | ok out =>
    rw [complete_ok hr, complete_ok (hq ▸ hr)]
    exact .finish (s := { s with hintq := s.hintq.drop p.need })
      (s' := { s' with hintq := s'.hintq.drop p.need }) hop hm hdrop out.1 out.2
  | error c =>
    rw [complete_error hr, complete_error (hq ▸ hr)]
    exact .takeFault (s := { s with hintq := s.hintq.drop p.need })
      (s' := { s' with hintq := s'.hintq.drop p.need }) hop hm hdrop c

theorem SameOutcome.startHinted (p : Pend) : SameOutcome (startHinted p s) (startHinted p s') := by
  by_cases h : p.need ≤ s.hintq.length
  · rw [startHinted_completes h, startHinted_completes (hq ▸ h)]
    exact .complete (s := recordQuery p.query s) (s' := recordQuery p.query s') hop hm hq p
  · have hlt : s.hintq.length < p.need := Nat.lt_of_not_le h
    rw [startHinted_waits hlt, startHinted_waits (hq ▸ hlt)]
    exact ⟨hop, hm, rfl, hq, rfl, fun h => absurd h waitHint_ne_idle, fun h => absurd h waitHint_ne_fault⟩

theorem SameOutcome.applyPlan (r : Except FaultCause Plan) : SameOutcome (applyPlan s r) (applyPlan s' r) := by
  cases r with
  | error c => exact .takeFault hop hm hq c
  | ok pl =>
    cases pl with
    | done ss ret => exact .finish hop hm hq ss ret
    | hint p => exact .startHinted hop hm hq p

end

/-- Settles O55: the body's answer is the same in both states, and so is its effect. -/
theorem nothingElseSurvives : Obligations.NothingElseSurvives := by
  unfold Obligations.NothingElseSurvives
  intro i s s' t t' hs hs' hm ha hp hq ht ht'
  have hb : bodyOf i (issued i s) = bodyOf i (issued i s') :=
    SameOperands.bodyOf_congr (s := issued i s) (s' := issued i s') ⟨hm, ha, hp⟩ i
  rw [exec_idle hs] at ht
  rw [exec_idle hs', ← hb] at ht'
  obtain rfl := Host.Outcome.next.inj ht
  obtain rfl := Host.Outcome.next.inj ht'
  obtain ⟨hop, hmem, hst, hhq, hpend, hret, hcause⟩ : SameOutcome _ _ :=
    .applyPlan (s := issued i s) (s' := issued i s') rfl hm hq (bodyOf i (issued i s))
  exact ⟨hop, hmem, hst, hhq, hpend, hret, hcause⟩

/-! ### The end of a wait (spec/10_state.md R37) -/

/-- A completion sets `STATUS` and `PEND` itself, whatever they were. -/
theorem complete_withStatusPend (p : Pend) (s : State) (st : BitVec 2) (pd : Option Pend) :
    complete p { s with status := st, pend := pd } = complete p s := by
  cases hr : p.result (s.hintq.take p.need) with
  | ok out => rw [complete_ok hr, complete_ok (s := { s with status := st, pend := pd }) hr]; rfl
  | error c => rw [complete_error hr, complete_error (s := { s with status := st, pend := pd }) hr]; rfl

/-- Settles O56: the step is the completion, which ends or faults as the rule of the latched record says. -/
theorem waitingCompletes : Obligations.WaitingCompletes := by
  unfold Obligations.WaitingCompletes
  intro s p hs hp hle
  refine ⟨_, step_of_ready (readyPend_some.2 ⟨hp, hs, hle⟩), ?_⟩
  cases hr : p.result (s.hintq.take p.need) with
  | ok out =>
    rw [complete_ok hr]
    refine ⟨rfl, rfl, rfl, rfl, rfl, rfl, ?_, fun c hc => nomatch hc⟩
    intro ss ret ho
    obtain rfl := Except.ok.inj ho
    exact ⟨rfl, rfl, rfl, rfl, fun x hx => applyStores_read_other s.mem ss hx⟩
  | error c =>
    rw [complete_error hr]
    refine ⟨rfl, rfl, rfl, rfl, rfl, rfl, fun ss ret ho => (nomatch ho), ?_⟩
    intro d hd
    obtain rfl := Except.error.inj hd
    exact ⟨rfl, rfl, rfl, rfl⟩

/-! ### A wait that goes on (spec/10_state.md R22, R23, R63) -/

/-- While an operation waits, a host action other than a reset changes at most `HINTQ` and memory: a push `HINTQ`,
a store memory. -/
theorem hostStep_waiting {s t : State} {act : HostAction} (hs : s.status = statusWaitHint) (hact : act ≠ .reset)
    (h : hostStep act s = .next t) :
    t = { s with hintq := t.hintq, mem := t.mem } ∧ (∀ w, act = .pushHint w → t.hintq = s.hintq ++ [w]) ∧
      ((∀ w, act ≠ .pushHint w) → t.hintq = s.hintq) ∧ ((∀ a v, act ≠ .store a v) → t.mem = s.mem) := by
  have hidle : s.status ≠ statusIdle := by simp [hs]
  have hfault : s.status ≠ statusFault := by simp [hs]
  rcases hostStep_cases h with ⟨c, i, rfl, -, hx⟩ | ⟨c, e, rfl, -, hx⟩ | ⟨v, rfl, rfl⟩ | ⟨w, rfl, -⟩ |
    ⟨r, rfl, rfl⟩ | ⟨a, v, rfl, -, rfl⟩ | ⟨rfl, -⟩
  · rw [exec_busy hidle] at hx
    cases hx
    simp
  · rw [issueIllegal_busy hidle] at hx
    cases hx
    simp
  · simp [hostWriteArg_busy v hidle]
  · rw [hostStep_pushHint_next hfault h]
    simp
  · simp
  · simp
  · exact absurd rfl hact

/-- Settles O57: with too few words no completion is enabled, so the step is at most one host action. -/
theorem waitingPersists : Obligations.WaitingPersists := by
  unfold Obligations.WaitingPersists
  intro s t p hs hp hl hact h
  rcases step_cases h with ⟨q, hr, -⟩ | ⟨-, hh, rfl⟩ | ⟨act, rest, -, hh, h⟩
  · simp [readyPend_of_lacking hp hl] at hr
  · simp [hs, hp, hh]
  · obtain ⟨ht, hpush, hother, hmem⟩ :=
      hostStep_waiting (s := { s with host := rest }) hs (hact act (by simp [hh])) h
    simp only [hh, List.head?_cons, ne_eq, Option.some.injEq]
    rw [ht]
    exact ⟨hs, hp, rfl, rfl, rfl, rfl, rfl, hpush, hother, hmem⟩

/-! ### A wait that the host ends (spec/10_state.md R37, R40) -/

/-- With an unbounded hint queue, the host's pushes of exactly the words a waiting operation lacks, and one more step,
complete it on the queue with those words. -/
theorem run_pushes_completes {s : State} {p : Pend} {ws : List Word} {rest : List HostAction}
    (hs : s.status = statusWaitHint) (hp : s.pend = some p) (hd : s.plat.hintDepth = none)
    (hl : s.hintq.length + ws.length = p.need) (hh : s.host = ws.map .pushHint ++ rest) :
    Host.Core.run Sys2Proof.core (ws.length + 1) s =
      .next (complete p { s with hintq := s.hintq ++ ws, host := rest }) := by
  induction ws generalizing s with
  | nil =>
    have hready : readyPend s = some p := readyPend_some.2 ⟨hp, hs, by simpa using hl.ge⟩
    have hsame : { s with hintq := s.hintq ++ [], host := rest } = s := by
      rw [List.append_nil, ← (by simpa using hh : s.host = rest)]
    rw [hsame]
    exact run_succ (step_of_ready hready)
  | cons w ws ih =>
    rw [List.length_cons] at hl
    have hlack : readyPend s = none := readyPend_of_lacking hp (by omega)
    have hstep : step s = .next { s with hintq := s.hintq ++ [w], host := ws.map .pushHint ++ rest } := by
      rw [step_of_host hlack hh]
      exact hostStep_pushHint_room w (by simp [hs]) (by simp [hd])
    have hrun := ih (s := { s with hintq := s.hintq ++ [w], host := ws.map .pushHint ++ rest }) hs hp hd
      (by simp; omega) rfl
    rw [List.append_assoc] at hrun
    exact (run_succ hstep).trans hrun

/-- Settles O58: the run is the completion, and every completion is in `IDLE` or `FAULT` with nothing pending. -/
theorem waitEndsAfterPushes : Obligations.WaitEndsAfterPushes := by
  unfold Obligations.WaitEndsAfterPushes
  intro s p ws rest hs hp hd hl hh
  obtain ⟨hpend, hend, -, -⟩ := complete_idle_or_fault p { s with hintq := s.hintq ++ ws, host := rest }
  exact ⟨_, run_pushes_completes hs hp hd hl hh, rfl, hend.imp And.left And.left, hpend⟩

/-- An answer that leaves a record pending asked for its hint words, and all it did is to record the query and to wait. -/
theorem applyPlan_waiting {s : State} {r : Except FaultCause Plan} {p : Pend} (hp : (applyPlan s r).pend = some p) :
    r = .ok (.hint p) ∧
      applyPlan s r = { recordQuery p.query s with status := statusWaitHint, pend := some p } := by
  cases r with
  | error c => cases hp
  | ok pl =>
    cases pl with
    | done ss ret => cases hp
    | hint q =>
      simp only [applyPlan] at hp ⊢
      by_cases h : q.need ≤ s.hintq.length
      · rw [startHinted_completes h, (complete_idle_or_fault q _).1] at hp
        cases hp
      · have hwaits := startHinted_waits (Nat.lt_of_not_le h)
        rw [hwaits] at hp
        obtain rfl := Option.some.inj hp
        exact ⟨rfl, hwaits⟩

/-- Settles O59: both sides are the completion of the record which the body answers whatever the queue holds. -/
theorem pushBeforeOrAfter : Obligations.PushBeforeOrAfter := by
  unfold Obligations.PushBeforeOrAfter
  intro i s u p ws rest hs hd hu _ hp hl
  rw [exec_idle hs] at hu
  obtain rfl := Host.Outcome.next.inj hu
  obtain ⟨hbody, hlatched⟩ := applyPlan_waiting hp
  have hbefore : exec i { s with hintq := s.hintq ++ ws, host := rest } = .next (complete p
      (recordQuery p.query (issued i { s with hintq := s.hintq ++ ws, host := rest }))) := by
    have hsame : SameOperands (issued i { s with hintq := s.hintq ++ ws, host := rest }) (issued i s) :=
      ⟨rfl, rfl, rfl⟩
    have hfull : p.need ≤ (s.hintq ++ ws).length := by simp [hl]
    rw [exec_idle (s := { s with hintq := s.hintq ++ ws, host := rest }) hs, hsame.bodyOf_congr, hbody, applyPlan,
      startHinted_completes (s := issued i { s with hintq := s.hintq ++ ws, host := rest }) hfull]
  have hafter := run_pushes_completes (p := p) (ws := ws) (rest := rest)
    (s := { recordQuery p.query (issued i s) with
      status := statusWaitHint, pend := some p, host := ws.map .pushHint ++ rest }) rfl rfl hd hl rfl
  have hend := complete_withStatusPend p
    (recordQuery p.query (issued i { s with hintq := s.hintq ++ ws, host := rest })) statusWaitHint (some p)
  refine ⟨_, hbefore, ?_⟩
  rw [hlatched, ← hend]
  exact hafter

end Sys2Proof.Machine
end

section
/-! PROOF. The statements about memory (spec/20_memory.md): what the memory checks of an operation say of every byte,
and what its output buffers leave behind. -/

namespace Sys2Proof.Machine

/-! ### The memory checks (spec/20_memory.md R58, R59; spec/60_exceptions.md R305) -/

theorem structFault_none_iff {s : State} {n : Nat} {acc : Access} :
    structFault s n acc = none ↔
      s.arg.toNat % 8 = 0 ∧ rangeOk s.plat.map acc s.arg.toNat (8 * n) = true := by
  simp only [structFault]
  split_ifs with halign haccess
  · simp [halign]
  · simp [haccess]
  · simpa using And.intro halign haccess

theorem bufsFault_none_iff {s : State} {bs : List Buf} :
    bufsFault s bs = none ↔
      ∀ b ∈ bs, ptr s b.word % 8 = 0 ∧ rangeOk s.plat.map b.acc (ptr s b.word) b.size = true := by
  refine ⟨fun h b hb => bufsFault_none h hb, fun h => ?_⟩
  induction bs with
  | nil => rfl
  | cons b rest ih =>
    obtain ⟨⟨halign, haccess⟩, hrest⟩ := List.forall_mem_cons.1 h
    simp [bufsFault, halign, haccess, ih hrest]

/-- A format is free of memory faults exactly when its structure and all its buffers are. -/
theorem memoryFault_none_iff {s : State} {f : Format} :
    memoryFault s f = none ↔
      (s.arg.toNat % 8 = 0 ∧ rangeOk s.plat.map f.acc s.arg.toNat (8 * f.words) = true) ∧
        ∀ b ∈ f.bufs, ptr s b.word % 8 = 0 ∧ rangeOk s.plat.map b.acc (ptr s b.word) b.size = true := by
  rw [memoryFault, Option.or_eq_none_iff, structFault_none_iff, bufsFault_none_iff]

theorem structFault_cause {s : State} {n : Nat} {acc : Access} {c : FaultCause} (h : structFault s n acc = some c) :
    c = .misaligned ∨ c = .access := by
  simp only [structFault] at h
  split_ifs at h
  · exact .inl (Option.some.inj h).symm
  · exact .inr (Option.some.inj h).symm

theorem bufsFault_cause {s : State} {bs : List Buf} {c : FaultCause} (h : bufsFault s bs = some c) :
    c = .misaligned ∨ c = .access := by
  induction bs with
  | nil => cases h
  | cons b rest ih =>
    simp only [bufsFault] at h
    split_ifs at h
    · exact .inl (Option.some.inj h).symm
    · exact .inr (Option.some.inj h).symm
    · exact ih h

/-- The first memory fault is that of the structure or that of a buffer, and each is one of two causes. -/
theorem memoryFault_cause {s : State} {f : Format} {c : FaultCause} (h : memoryFault s f = some c) :
    c = .misaligned ∨ c = .access := by
  rw [memoryFault, Option.or_eq_some_iff] at h
  rcases h with hstruct | ⟨-, hbufs⟩
  · exact structFault_cause hstruct
  · exact bufsFault_cause hbufs

/-- Settles O17: the checks are range checks, and a range check speaks of every byte. -/
theorem memoryFaultMeaning : Obligations.MemoryFaultMeaning := by
  unfold Obligations.MemoryFaultMeaning
  intro s f
  refine ⟨?_, fun c => memoryFault_cause⟩
  simp only [memoryFault_none_iff, rangeOk_iff]

/-! ### Output buffers of integers (spec/20_memory.md R55, R61, R62) -/

@[simp] theorem Store.int_addr (l a v : Nat) : (Store.int l a v).addr = a := rfl

@[simp] theorem Store.int_words_length (l a v : Nat) : (Store.int l a v).words.length = l := toLimbs_length l v

/-- An integer's output buffer reads back as the integer, modulo its width, unless a later buffer overlaps it. -/
theorem rdInt_applyStores {m : Memory} (h : m.wf) (before after : List Store) (l a v : Nat)
    (hs : storesInSpace (before ++ Store.int l a v :: after))
    (hlate : ∀ x, a ≤ x → x < a + 8 * l → ¬ storesTouch after x) :
    rdInt (applyStores m (before ++ Store.int l a v :: after)) l a = v % 2 ^ (64 * l) := by
  have hwords := applyStores_holds h before after (.int l a v) hs (by simpa using hlate)
  rw [Store.int_addr, Store.int_words_length] at hwords
  rw [rdInt, hwords, Store.int, fromLimbs_toLimbs]

/-- Settles O18: canonical form and frame are those of any list of output buffers; the last buffer has no later one
to overlap it. -/
theorem outputBuffersHold : Obligations.OutputBuffersHold := by
  unfold Obligations.OutputBuffersHold
  intro m before after l a v hwf hs
  have hlast : storesInSpace (before ++ [Store.int l a v]) := fun st hst =>
    hs st (by rw [List.append_cons]; exact List.mem_append_left after hst)
  exact ⟨applyStores_wf hwf _ hs, fun x hx => applyStores_read_other m _ hx,
    rdInt_applyStores hwf before after l a v hs,
    rdInt_applyStores hwf before [] l a v hlast fun x _ _ => storesTouch_nil x⟩

end Sys2Proof.Machine
end

section
/-! PROOF. The statements about the encoding (spec/30_encoding.md): the decoder and the encoder agree with the table, a
code outside it faults, and what a host store does; with the host actions at which a step of the model stops. -/

namespace Sys2Proof.Machine

/-! ### The well-formed codes (spec/30_encoding.md R80, R81, R83) -/

section
open Sys2Proof.Laws.EncodeWellFormed

/-- The facts of every constructor, as one fact of every operation. -/
theorem encodeWellFormed_statement (i : Instr) : Statement i := by
  cases i
  exacts [add256, modadd256, modsub256, modneg256, modadd384, modsub384, modneg384, arith256, arith256Mod, arith384Mod,
    modmul256, modsqr256, modmul384, modsqr384, modinv256F, modinv256H, modinv384F, modinv384H, bn254FpInv, modexp,
    secp256k1Add, secp256k1Dbl, secp256k1Cadd, secp256k1Mul, secp256k1DmulG, bn254CurveAdd, bn254CurveDbl, bn254Cadd,
    bn254Ecadd, bn254Ecmul, bn254ComplexAdd, bn254ComplexSub, bn254ComplexMul, bn254Ecpairing]

end

theorem codeWellFormed_encode (i : Instr) : codeWellFormed (encode i) = true :=
  (encodeWellFormed_statement i).2.1

/-- The `unit` and `fn` ranges of R81 pick out, in rising order, exactly the codes of the table of R80. -/
theorem wellFormedCodes_eq_opTable :
    ((List.range 256).filter fun n => codeWellFormed (BitVec.ofNat 8 n)) = opTable.map fun r => r.code.toNat := by
  decide

theorem codeWellFormed_iff {c : Byte} : codeWellFormed c = true ↔ ∃ i, encode i = c := by
  constructor
  · intro h
    have hmem : c.toNat ∈ (List.range 256).filter fun n => codeWellFormed (BitVec.ofNat 8 n) := by
      simp [h, c.isLt]
    rw [wellFormedCodes_eq_opTable] at hmem
    obtain ⟨r, hr, hcode⟩ := List.mem_map.1 hmem
    exact ⟨r.instr, (opTable_rows r hr).2.symm.trans (BitVec.eq_of_toNat_eq hcode)⟩
  · rintro ⟨i, rfl⟩
    exact codeWellFormed_encode i

/-- The codes outside the table are what its 34 rows leave of the 256 codes (R83). -/
theorem illegalCodes_length :
    ((List.range 256).filter fun n => !codeWellFormed (BitVec.ofNat 8 n)).length = 222 := by
  have hrows : ((List.range 256).filter fun n => codeWellFormed (BitVec.ofNat 8 n)).length = 34 := by
    rw [wellFormedCodes_eq_opTable, List.length_map]
    rfl
  have hsplit := List.length_eq_length_filter_add (l := List.range 256) fun n => codeWellFormed (BitVec.ofNat 8 n)
  rw [List.length_range] at hsplit
  omega

/-! ### The decoder, on every code -/

theorem decode_ok_iff {c : Byte} {i : Instr} : decode c = .ok i ↔ encode i = c :=
  ⟨encode_of_decode, fun h => h ▸ decode_encode i⟩

/-- The decoder has one reason to refuse a code. -/
theorem error_of_decode {c : Byte} {e : DecodeError} (h : decode c = .error e) : e = .illegalCode c := by
  unfold decode at h
  split at h
  next => cases h
  next => exact (Except.error.inj h).symm

theorem decode_illegal_iff {c : Byte} : decode c = .error (.illegalCode c) ↔ codeWellFormed c = false := by
  constructor
  · intro h
    refine Bool.eq_false_of_not_eq_true fun hwf => ?_
    obtain ⟨i, rfl⟩ := codeWellFormed_iff.1 hwf
    cases h.symm.trans (decode_encode i)
  · intro h
    cases hd : decode c with
    | ok i => cases h.symm.trans (codeWellFormed_iff.2 ⟨i, encode_of_decode hd⟩)
    | error e => rw [error_of_decode hd]

theorem decodeBytes_encode_cons (i : Instr) (rest : List Byte) : decodeBytes (encode i :: rest) = .ok (i, rest) := by
  simp only [decodeBytes, decode_encode]

/-- Settles O1: each direction of the round trip, and the refusals and their number from the table's own codes. -/
theorem decodeEncodeAgree : Obligations.DecodeEncodeAgree := by
  unfold Obligations.DecodeEncodeAgree
  refine ⟨fun i rest => ?_, fun c i => decode_ok_iff, fun c => decode_illegal_iff, illegalCodes_length⟩
  obtain ⟨hinstr, hcode, -⟩ := encodeWellFormed_statement i
  exact ⟨hinstr, hcode, decode_encode i, decodeBytes_encode_cons i rest⟩

/-- Settles O2: each code is what the encoder gives the operation of its row, and `0x00` is not well formed. -/
theorem decodedWords : Obligations.DecodedWords := by
  unfold Obligations.DecodedWords
  exact ⟨decode_ok_iff.2 rfl, decode_ok_iff.2 rfl, decode_ok_iff.2 rfl, decode_ok_iff.2 rfl, decode_ok_iff.2 rfl,
    decode_ok_iff.2 rfl, decode_ok_iff.2 rfl, decode_illegal_iff.2 rfl⟩

/-- Settles O11: a code in no row is refused by the decoder, so its write is the illegal issue. -/
theorem illegalCodesFault : Obligations.IllegalCodesFault := by
  unfold Obligations.IllegalCodesFault
  intro s c hs hc
  rw [hostStep_writeOp_error s (decode_illegal_iff.2 hc), issueIllegal_idle hs]
  rfl

/-! ### A host store (spec/30_encoding.md R85; spec/20_memory.md R52) -/

/-- The byte `k` above a stored word's address holds bits `8k + 7` to `8k` of the word. -/
theorem wrW_read_byte {m : Memory} (h : m.wf) {a k : Nat} (v : Word) (hk : k < 8) (ha : a + 8 ≤ 2 ^ 64) :
    (wrW m a v).read (a + k) = v.extractLsb' (8 * k) 8 := by
  rw [wrW, Memory.writeLE_read_byte m 8 a v.toNat k h hk ha, ← Nat.shiftRight_eq_div_pow]
  rfl

theorem hostStep_store_writable {s : State} {a : Word} (v : StoreValue)
    (h : rangeOk s.plat.map .write a.toNat 8 = true) :
    hostStep (.store a v) s = .next { s with mem := wrW s.mem a.toNat (storedWord s v) } := by
  rw [hostStep, hostStore, if_pos h]

theorem hostStep_store_unwritable {s : State} {a : Word} (v : StoreValue)
    (h : rangeOk s.plat.map .write a.toNat 8 = false) : hostStep (.store a v) s = .fault (.hostStore a) := by
  rw [hostStep, hostStore, if_neg (Bool.eq_false_iff.1 h)]

/-- Settles O10, from the rules of a stored word: read back, byte by byte, and its frame. -/
theorem hostStoreWord : Obligations.HostStoreWord := by
  unfold Obligations.HostStoreWord
  refine fun s a v => ⟨fun hok => ?_, hostStep_store_unwritable v⟩
  have hspace : a.toNat + 8 ≤ 2 ^ 64 := rangeOk_space hok
  exact ⟨_, hostStep_store_writable v hok, rfl, fun x => wrW_read_other s.mem a.toNat x (storedWord s v), fun hwf =>
    ⟨rdW_wrW hwf a.toNat (storedWord s v) hspace, fun k hk => wrW_read_byte hwf (storedWord s v) hk hspace⟩⟩

/-! ### Where the model stops (spec/93_implementation_defined.md U19, U22) -/

theorem issueIllegal_next (c : Byte) (s : State) : ∃ t, issueIllegal c s = .next t := by
  by_cases h : s.status = statusIdle
  · exact ⟨_, issueIllegal_idle h⟩
  · exact ⟨_, issueIllegal_busy h⟩

/-- No write to `OP` stops the model, of whatever code. -/
theorem hostStep_writeOp_next (c : Byte) (s : State) : ∃ t, hostStep (.writeOp c) s = .next t := by
  cases hd : decode c with
  | ok i => exact hostStep_writeOp_ok s hd ▸ exec_next i s
  | error e => exact hostStep_writeOp_error s hd ▸ issueIllegal_next c s

theorem hostStep_pushHint_full {s : State} {d : Nat} (w : Word) (h : s.status ≠ statusFault)
    (hd : s.plat.hintDepth = some d) (hfull : d ≤ s.hintq.length) :
    hostStep (.pushHint w) s = .refused .hintQueueFull := by
  simp only [hostStep, hostPush, if_neg h, hd, if_neg (Nat.not_lt.2 hfull)]

/-- A push goes on, or it meets a full bounded queue. -/
theorem hostStep_pushHint_next_or_full (w : Word) (s : State) :
    (∃ t, hostStep (.pushHint w) s = .next t) ∨
      ∃ d, s.plat.hintDepth = some d ∧ d ≤ s.hintq.length ∧
        hostStep (.pushHint w) s = .refused .hintQueueFull := by
  by_cases hf : s.status = statusFault
  · exact .inl ⟨s, hostStep_pushHint_fault w hf⟩
  by_cases hroom : ∀ d, s.plat.hintDepth = some d → s.hintq.length < d
  · exact .inl ⟨_, hostStep_pushHint_room w hf hroom⟩
  · push Not at hroom
    obtain ⟨d, hd, hfull⟩ := hroom
    exact .inr ⟨d, hd, hfull, hostStep_pushHint_full w hf hd hfull⟩

/-- Everything one action of the host can do that is not a next state: the counterpart of `hostStep_cases`. -/
theorem hostStep_next_or_stops (act : HostAction) (s : State) :
    (∃ t, hostStep act s = .next t) ∨
    (∃ a v, act = .store a v ∧ rangeOk s.plat.map .write a.toNat 8 = false ∧
      hostStep act s = .fault (.hostStore a)) ∨
    (∃ reg ∈ [Reg.op, .hintPush], act = .readReg reg ∧ hostStep act s = .refused (.readOfWriteOnly reg)) ∨
    (∃ reg v, act = .writeReadOnly reg v ∧ hostStep act s = .refused (.writeOfReadOnly reg)) ∨
    (∃ w d, act = .pushHint w ∧ s.plat.hintDepth = some d ∧ d ≤ s.hintq.length ∧
      hostStep act s = .refused .hintQueueFull) := by
  cases act with
  | writeOp c => exact .inl (hostStep_writeOp_next c s)
  | writeArg v => exact .inl ⟨_, rfl⟩
  | reset => exact .inl ⟨_, rfl⟩
  | store a v =>
    cases hr : rangeOk s.plat.map .write a.toNat 8 with
    | true => exact .inl ⟨_, hostStep_store_writable v hr⟩
    | false => exact .inr (.inl ⟨a, v, rfl, hr, hostStep_store_unwritable v hr⟩)
  | readReg reg =>
    cases reg with
    | arg | ret | status | cause => exact .inl ⟨s, rfl⟩
    | op | hintPush => exact .inr (.inr (.inl ⟨_, by simp, rfl, rfl⟩))
  | writeReadOnly reg v => exact .inr (.inr (.inr (.inl ⟨reg, v, rfl, rfl⟩)))
  | pushHint w =>
    refine (hostStep_pushHint_next_or_full w s).imp_right fun ⟨d, hd, hfull, hx⟩ => ?_
    exact .inr (.inr (.inr ⟨w, d, rfl, hd, hfull, hx⟩))

/-- A step goes on, or it is the host's next action. -/
theorem step_next_or_host (s : State) :
    (∃ t, step s = .next t) ∨ ∃ act rest, s.host = act :: rest ∧ step s = hostStep act { s with host := rest } := by
  cases hr : readyPend s with
  | some p => exact .inl ⟨_, step_of_ready hr⟩
  | none =>
    cases hh : s.host with
    | nil => exact .inl ⟨s, by simp only [step, hr, hh]⟩
    | cons act rest => exact .inr ⟨act, rest, rfl, step_of_host hr hh⟩

/-- Settles O15: a step that stops is an action of the host that stops, and there are four of these. -/
theorem stepStopsOnlyForHost : Obligations.StepStopsOnlyForHost := by
  unfold Obligations.StepStopsOnlyForHost
  intro s
  rcases step_next_or_host s with ⟨t, ht⟩ | ⟨act, rest, hh, hstep⟩
  · simp [ht]
  rw [hstep]
  rcases hostStep_next_or_stops act { s with host := rest } with ⟨t, ht⟩ | ⟨a, v, rfl, hr, hx⟩ |
    ⟨reg, hreg, rfl, hx⟩ | ⟨reg, v, rfl, hx⟩ | ⟨w, d, rfl, hd, hfull, hx⟩
  · simp [ht]
  · rw [hx]
    exact ⟨fun f hf => ⟨a, v, rest, hh, (Host.Outcome.fault.inj hf).symm, hr⟩, nofun⟩
  · rw [hx]
    exact ⟨nofun, fun r hr => .inl ⟨reg, rest, hh, (Host.Outcome.refused.inj hr).symm, hreg⟩⟩
  · rw [hx]
    exact ⟨nofun, fun r hr => .inr (.inl ⟨reg, v, rest, hh, (Host.Outcome.refused.inj hr).symm⟩)⟩
  · rw [hx]
    exact ⟨nofun, fun r hr => .inr (.inr ⟨w, rest, d, hh, (Host.Outcome.refused.inj hr).symm, hd, hfull⟩)⟩

end Sys2Proof.Machine
end

section
/-! PROOF. The statements about the adder unit (spec/40_modadd.md): the FixedBig helpers with their carries and
borrows, the datapath of the modular adder as plain residues, and the outcome of ADD256 and of the field additions,
subtractions and negations. -/

namespace Sys2Proof.Machine

/-! ### Addition with its carries (spec/40_modadd.md R100) -/

theorem limb_toNat (v j : Nat) : (limb v j).toNat = v / 2 ^ (64 * j) % 2 ^ 64 := by
  rw [limb, BitVec.toNat_ofNat, Nat.shiftRight_eq_div_pow]

theorem limb_mod_pow (v : Nat) {j L : Nat} (h : j < L) : limb (v % 2 ^ (64 * L)) j = limb v j := by
  apply BitVec.eq_of_toNat_eq
  have hw : 2 ^ (64 * L) = 2 ^ (64 * j) * (2 ^ 64 * 2 ^ (64 * (L - j - 1))) := by
    rw [← pow_limbs_succ, ← pow_add]; congr 1; omega
  rw [limb_toNat, limb_toNat, hw, Nat.mod_mul_right_div_self, Nat.mod_mul_right_mod]

/-- The low `j + 1` limbs are the low `j` limbs and the limb above them. -/
theorem mod_pow_limbs_succ (v j : Nat) :
    v % 2 ^ (64 * (j + 1)) = v % 2 ^ (64 * j) + 2 ^ (64 * j) * (limb v j).toNat := by
  rw [limb_toNat, pow_limbs_succ, mul_comm (2 ^ 64), Nat.mod_mul]

/-- The carry `c_j` into limb `j` of `a + b + cin`: what the limbs below `j` spill. -/
def carryInto (a b cin j : Nat) : Nat := (a % 2 ^ (64 * j) + b % 2 ^ (64 * j) + cin) / 2 ^ (64 * j)

theorem carryInto_zero (a b cin : Nat) : carryInto a b cin 0 = cin := by
  simp [carryInto, Nat.mod_one]

theorem carryInto_succ (a b cin j : Nat) :
    carryInto a b cin (j + 1) = ((limb a j).toNat + (limb b j).toNat + carryInto a b cin j) / 2 ^ 64 := by
  have hsplit : a % 2 ^ (64 * (j + 1)) + b % 2 ^ (64 * (j + 1)) + cin =
      (a % 2 ^ (64 * j) + b % 2 ^ (64 * j) + cin) + 2 ^ (64 * j) * ((limb a j).toNat + (limb b j).toNat) := by
    rw [mod_pow_limbs_succ, mod_pow_limbs_succ]; ring
  rw [carryInto, hsplit, pow_limbs_succ, mul_comm (2 ^ 64), ← Nat.div_div_eq_div_mul,
    Nat.add_mul_div_left _ _ (by positivity), add_comm, carryInto]

/-- Above the limbs below `j` stand the two operands' parts and the carry. -/
theorem add_div_pow_limbs (a b cin j : Nat) :
    (a + b + cin) / 2 ^ (64 * j) = a / 2 ^ (64 * j) + b / 2 ^ (64 * j) + carryInto a b cin j := by
  have hsplit : a + b + cin = (a % 2 ^ (64 * j) + b % 2 ^ (64 * j) + cin) +
      2 ^ (64 * j) * (a / 2 ^ (64 * j) + b / 2 ^ (64 * j)) := by
    have ha := Nat.mod_add_div a (2 ^ (64 * j))
    have hb := Nat.mod_add_div b (2 ^ (64 * j))
    rw [mul_add]; omega
  rw [hsplit, Nat.add_mul_div_left _ _ (by positivity), add_comm, carryInto]

/-- The carry out of the top limb is the carry out of the addition. -/
theorem carryInto_width {L a b : Nat} (cin : Nat) (ha : a < 2 ^ (64 * L)) (hb : b < 2 ^ (64 * L)) :
    carryInto a b cin L = (addWithCarry (64 * L) a b cin).2 := by
  rw [carryInto, Nat.mod_eq_of_lt ha, Nat.mod_eq_of_lt hb, addWithCarry]

theorem limb_addWithCarry (a b cin : Nat) {j L : Nat} (h : j < L) :
    (limb (addWithCarry (64 * L) a b cin).1 j).toNat =
      ((limb a j).toNat + (limb b j).toNat + carryInto a b cin j) % 2 ^ 64 := by
  rw [addWithCarry, limb_mod_pow _ h, limb_toNat, add_div_pow_limbs, limb_toNat, limb_toNat]
  simp [Nat.add_mod]

theorem addWithCarry_carry_le_one {w a b cin : Nat} (ha : a < 2 ^ w) (hb : b < 2 ^ w) (hc : cin ≤ 1) :
    (addWithCarry w a b cin).2 ≤ 1 := by
  have : (a + b + cin) / 2 ^ w < 2 := Nat.div_lt_of_lt_mul (by omega)
  exact Nat.le_of_lt_succ this

/-- Settles O19: the chain is the carry into each limb. -/
theorem addWithCarryExact : Obligations.AddWithCarryExact := by
  unfold Obligations.AddWithCarryExact
  intro L a b cin ha hb hc
  exact ⟨rfl, addWithCarry_carry_le_one ha hb hc, carryInto a b cin, carryInto_zero a b cin,
    carryInto_width cin ha hb, fun j hj => ⟨limb_addWithCarry a b cin hj, carryInto_succ a b cin j⟩⟩

/-- No carry: the sum itself. -/
theorem addWithCarry_of_lt {w a b cin : Nat} (h : a + b + cin < 2 ^ w) :
    addWithCarry w a b cin = (a + b + cin, 0) := by
  rw [addWithCarry, Nat.mod_eq_of_lt h, Nat.div_eq_of_lt h]

/-- A carry: the sum less `2^w`. -/
theorem addWithCarry_of_le {w a b cin : Nat} (h : 2 ^ w ≤ a + b + cin) (hlt : a + b + cin < 2 * 2 ^ w) :
    addWithCarry w a b cin = (a + b + cin - 2 ^ w, 1) := by
  have hpos : 0 < 2 ^ w := Nat.two_pow_pos w
  have hdiv : (a + b + cin) / 2 ^ w = 1 := Nat.div_eq_of_lt_le (by omega) (by omega)
  rw [addWithCarry, Nat.mod_eq_sub_mod h, Nat.mod_eq_of_lt (by omega), hdiv]

/-! ### Subtraction with its borrow (spec/40_modadd.md R101) -/

/-- No borrow: the difference itself. -/
theorem subWithBorrow_of_le {w a b bin : Nat} (ha : a < 2 ^ w) (h : b + bin ≤ a) :
    subWithBorrow w a b bin = (a - b - bin, 0) := by
  have ht : (a : Int) - b - bin = (a - b - bin : Nat) := by omega
  have hlt : a - b - bin < 2 ^ w := by omega
  rw [subWithBorrow, ht, if_neg (by omega)]
  congr 1
  exact_mod_cast Nat.mod_eq_of_lt hlt

/-- A borrow: the difference and `2^w`. -/
theorem subWithBorrow_of_lt {w a b bin : Nat} (hle : b + bin ≤ 2 ^ w + a) (h : a < b + bin) :
    subWithBorrow w a b bin = (2 ^ w + a - b - bin, 1) := by
  have ht : (a : Int) - b - bin = (2 ^ w + a - b - bin : Nat) - (2 : Int) ^ w := by
    push_cast [Nat.sub_sub, Nat.cast_sub hle]; ring
  have hlt : 2 ^ w + a - b - bin < 2 ^ w := by omega
  rw [subWithBorrow, if_pos (by omega), ht, Int.sub_emod_right]
  congr 1
  exact_mod_cast Nat.mod_eq_of_lt hlt

/-- Settles O20, by whether the subtraction borrows. -/
theorem subWithBorrowExact : Obligations.SubWithBorrowExact := by
  unfold Obligations.SubWithBorrowExact
  intro w a b bin ha hb hbin
  have hmod : 0 ≤ ((a : Int) - b - bin) % 2 ^ w := Int.emod_nonneg _ (by positivity)
  refine ⟨Int.toNat_of_nonneg hmod, rfl, ?_⟩
  rcases Nat.lt_or_ge a (b + bin) with h | h
  · rw [subWithBorrow_of_lt (w := w) (by omega) h]
    refine ⟨?_, by dsimp only; omega⟩
    push_cast [Nat.sub_sub, Nat.cast_sub (by omega : b + bin ≤ 2 ^ w + a)]; ring
  · rw [subWithBorrow_of_le ha h]
    exact ⟨by push_cast; omega, by dsimp only; omega⟩

/-! ### The other FixedBig helpers (spec/40_modadd.md R102 to R104) -/

theorem cmp_lt_iff {a b : Nat} : Machine.cmp a b = .lt ↔ a < b := by
  unfold Machine.cmp; split_ifs <;> simp <;> omega

theorem cmp_eq_iff {a b : Nat} : Machine.cmp a b = .eq ↔ a = b := by
  unfold Machine.cmp; split_ifs <;> simp <;> omega

theorem cmp_gt_iff {a b : Nat} : Machine.cmp a b = .gt ↔ b < a := by
  unfold Machine.cmp; split_ifs <;> simp <;> omega

theorem bit_eq_div (a i : Nat) : bit a i = a / 2 ^ i % 2 := by
  rw [bit, Nat.shiftRight_eq_div_pow]

theorem bit_eq_one_iff {a i : Nat} : bit a i = 1 ↔ a.testBit i = true := by
  rw [bit_eq_div, Nat.testBit_eq_decide_div_mod_eq, decide_eq_true_iff]

theorem two_pow_msb_le {a : Nat} (h : 0 < a) : 2 ^ msb a ≤ a := Nat.log2_self_le h.ne'

theorem lt_two_pow_msb_succ (a : Nat) : a < 2 ^ (msb a + 1) := Nat.lt_log2_self

theorem leadingZeros_of_pos {a : Nat} (w : Nat) (h : 0 < a) : leadingZeros w a = w - 1 - msb a := by
  rw [leadingZeros, if_neg h.ne']

/-- Below the leading zeros stand the bits up to the highest 1 bit. -/
theorem width_sub_leadingZeros {w a : Nat} (hw : a < 2 ^ w) (h : 0 < a) : w - leadingZeros w a = msb a + 1 := by
  have hmsb : msb a < w := (Nat.log2_lt h.ne').2 hw
  rw [leadingZeros_of_pos w h]; omega

/-- Settles O21, helper by helper. -/
theorem fixedBigHelpers : Obligations.FixedBigHelpers := by
  unfold Obligations.FixedBigHelpers
  refine ⟨fun a b => ⟨cmp_lt_iff, cmp_eq_iff, cmp_gt_iff⟩, fun w a s => ⟨fun h => ?_, fun h => ?_⟩,
    fun a i => ⟨bit_eq_div a i, bit_eq_one_iff⟩, fun a => by simp [isZero], fun w a hw h => ?_,
    fun w => by simp [leadingZeros]⟩
  · simp [shl, shr, h]
  · simp [shl, shr, h]
  · refine ⟨two_pow_msb_le h, lt_two_pow_msb_succ a, leadingZeros_of_pos w h, ?_⟩
    rw [width_sub_leadingZeros hw h]
    have := two_pow_msb_le h
    exact ⟨lt_two_pow_msb_succ a, by rw [pow_succ]; omega⟩

/-! ### The datapath of the modular adder (spec/40_modadd.md R106 to R108) -/

/-- MODADD's one conditional subtraction is enough: `a + b ≤ 2m - 2` (R106). -/
theorem modAddSteps_eq {w a b m : Nat} (hm : m < 2 ^ w) (ha : a < m) (hb : b < m) :
    modAddSteps w a b m = (a + b) % m := by
  rcases Nat.lt_or_ge (a + b) (2 ^ w) with hc | hc
  · rw [modAddSteps, addWithCarry_of_lt (by omega)]
    rcases Nat.lt_or_ge (a + b) m with h | h
    · simp [Nat.mod_eq_of_lt h, h]
    · rw [Nat.mod_eq_sub_mod h, Nat.mod_eq_of_lt (by omega)]
      simp [h, subWithBorrow_of_le (bin := 0) hc h]
  · rw [modAddSteps, addWithCarry_of_le hc (by omega), Nat.mod_eq_sub_mod (by omega), Nat.mod_eq_of_lt (by omega)]
    simp only [true_or, if_true, add_zero]
    rw [subWithBorrow_of_lt (by omega) (by omega)]
    dsimp only
    omega

/-- MODSUB adds the modulus back exactly when the subtraction borrows (R107). -/
theorem modSubSteps_eq {w a b m : Nat} (hm : m < 2 ^ w) (ha : a < m) (hb : b < m) :
    modSubSteps w a b m = (((a : Int) - b) % m).toNat := by
  rcases Nat.lt_or_ge a b with h | h
  · have hres : ((a : Int) - b) % m = (a + m - b : Nat) := by
      rw [← Int.add_emod_right, Int.emod_eq_of_lt (by omega) (by omega)]; omega
    rw [modSubSteps, subWithBorrow_of_lt (by omega) (by omega), hres, if_pos rfl,
      addWithCarry_of_le (by dsimp only; omega) (by dsimp only; omega)]
    dsimp only
    omega
  · have hres : ((a : Int) - b) % m = (a - b : Nat) := by
      rw [Int.emod_eq_of_lt (by omega) (by omega)]; omega
    rw [modSubSteps, subWithBorrow_of_le (by omega) (by omega), hres]
    simp

/-- MODNEG gives 0 for 0, not the modulus (R108). -/
theorem modNegSteps_eq {a m : Nat} (ha : a < m) : modNegSteps a m = ((-(a : Int)) % m).toNat := by
  rcases Nat.eq_zero_or_pos a with rfl | h
  · simp [modNegSteps]
  · have hres : (-(a : Int)) % m = (m - a : Nat) := by
      rw [← Int.add_emod_right, Int.emod_eq_of_lt (by omega) (by omega)]; omega
    rw [modNegSteps, if_neg h.ne', hres, Int.toNat_natCast]

/-- The least non-negative residue of an integer is reduced and congruent to it. -/
theorem toNat_emod_reduced {m : Nat} (h : 0 < m) (t : Int) :
    (t % m).toNat < m ∧ ((t % m).toNat : Int) ≡ t [ZMOD m] := by
  have hpos : (0 : Int) < m := by exact_mod_cast h
  have hcast : ((t % m).toNat : Int) = t % m := Int.toNat_of_nonneg (Int.emod_nonneg t hpos.ne')
  refine ⟨?_, by rw [hcast]; exact Int.mod_modEq t m⟩
  have := Int.emod_lt_of_pos t hpos
  omega

/-- Settles O26: the datapath gives the residues, and a residue is reduced and congruent. -/
theorem fieldClosure : Obligations.FieldClosure := by
  unfold Obligations.FieldClosure
  intro w m a b hm ha hb
  have hpos : 0 < m := by omega
  rw [modAddSteps_eq hm ha hb, modSubSteps_eq hm ha hb, modNegSteps_eq ha]
  refine ⟨⟨Nat.mod_lt _ hpos, ?_⟩, toNat_emod_reduced hpos _, toNat_emod_reduced hpos _⟩
  push_cast
  exact Int.mod_modEq _ _

/-! ### Operations that end at issue (spec/60_exceptions.md R305) -/

/-- A body of memory checks, then operand checks, then one end: the first fault is raised in this order, and without
a fault the operation ends. -/
theorem outcome_of_checked_body {i : Instr} {s : State} {f : Format} {operandFault : Option FaultCause}
    {ss : List Store} {ret : Word} (hs : s.status = statusIdle)
    (hb : bodyOf i (issued i s) = (answer ((memoryFault s f).or operandFault) >>= fun _ => .ok (.done ss ret)))
    (hspace : memoryFault s f = none → storesInSpace ss) :
    MemoryFaultsFirst i s (memoryFault s f) ∧
    (memoryFault s f = none →
      (∀ c, operandFault = some c → FaultsWith i s 0 [] c) ∧
      (operandFault = none → EndsWith i s 0 [] ss ret)) := by
  refine ⟨fun c hc => faultsWith_of_body hs ?_, fun hm => ⟨fun c hc => faultsWith_of_body hs ?_, fun hn =>
    endsWith_of_body hs ?_ (hspace hm)⟩⟩
  · rw [hb, hc]; rfl
  · rw [hb, hm, hc]; rfl
  · rw [hb, hm, hn]; rfl

/-! ### ADD256 (spec/40_modadd.md R105) -/

/-- The fault of a carry in above 1. -/
def carryFault (cin : Nat) : Option FaultCause := if cin ≤ 1 then none else some .precond

theorem require_carry_eq (cin : Nat) : require (decide (cin ≤ 1)) .precond = answer (carryFault cin) := by
  by_cases h : cin ≤ 1 <;> simp [carryFault, h]

theorem bodyAdd256_eq (s : State) :
    bodyAdd256 s =
      (answer ((memoryFault s formatF1).or (carryFault (structWord s 2).toNat)) >>= fun _ =>
        let sum := addWithCarry 256 (intAt s 4 0) (intAt s 4 1) (structWord s 2).toNat
        .ok (.done [Store.int 4 (ptr s 3) sum.1] (BitVec.ofNat 64 sum.2))) := by
  simp only [bodyAdd256, checkFormat_eq, require_carry_eq, ← answer_seq, bind_assoc]
  rfl

/-- Settles O22: the memory checks, then the carry in, then the sum. -/
theorem add256Outcome : Obligations.Add256Outcome := by
  unfold Obligations.Add256Outcome
  intro s hs
  have hbody : bodyOf .add256 (issued .add256 s) = _ := bodyAdd256_eq _
  simp only [memoryFault_withOp, structWord_withOp, intAt_withOp, ptr_withOp] at hbody
  obtain ⟨hmem, hrest⟩ := outcome_of_checked_body hs hbody fun hm =>
    store_int_in_space (buffer_in_space hm (b := ⟨3, 32, .write⟩) (by simp [formatF1]))
  refine ⟨hmem, fun hm => ?_⟩
  obtain ⟨hfault, hend⟩ := hrest hm
  exact ⟨fun h => hfault _ (if_neg (Nat.not_le.2 h)), fun h => hend (if_pos h)⟩

/-! ### The field operations of the adder (spec/40_modadd.md R106 to R112) -/

/-- A two-operand field operation whose datapath computes `f` on reduced operands has the outcome of `f`. -/
theorem fieldOp2Outcome_of_body {i : Instr} {l : Nat} {g f : Nat → Nat → Nat → Nat} {s : State}
    (hs : s.status = statusIdle) (hb : bodyOf i = fieldOp2 l g)
    (hg : ∀ {a b m}, m < 2 ^ (64 * l) → a < m → b < m → g a b m = f a b m) : FieldOp2Outcome i l f s := by
  have hbody : bodyOf i (issued i s) = _ := (congrFun hb _).trans (fieldOp2_eq l g _)
  simp only [memoryFault_withOp, intAt_withOp, ptr_withOp] at hbody
  obtain ⟨hmem, hrest⟩ := outcome_of_checked_body hs hbody fun hm =>
    store_int_in_space (buffer_in_space hm (b := ⟨3, 8 * l, .write⟩) (by simp [formatF4]))
  refine ⟨hmem, fun hm => ?_⟩
  obtain ⟨hfault, hend⟩ := hrest hm
  refine ⟨fun h0 => hfault _ (if_pos h0), fun h0 hab => hfault _ ?_, fun ha hb' => ?_⟩
  · rw [fieldFault2, if_neg h0, if_neg (by omega)]
  · rw [← hg (intAt_lt s l 2) ha hb']
    exact hend (by rw [fieldFault2, if_neg (by omega), if_pos ⟨ha, hb'⟩])

/-- A one-operand field operation whose datapath computes `f` on a reduced operand has the outcome of `f`. -/
theorem fieldOp1Outcome_of_body {i : Instr} {l : Nat} {g f : Nat → Nat → Nat} {s : State}
    (hs : s.status = statusIdle) (hb : bodyOf i = fieldOp1 l g)
    (hg : ∀ {a m}, a < m → g a m = f a m) : FieldOp1Outcome i l f s := by
  have hbody : bodyOf i (issued i s) = _ := (congrFun hb _).trans (fieldOp1_eq l g _)
  simp only [memoryFault_withOp, intAt_withOp, ptr_withOp] at hbody
  obtain ⟨hmem, hrest⟩ := outcome_of_checked_body hs hbody fun hm =>
    store_int_in_space (buffer_in_space hm (b := ⟨2, 8 * l, .write⟩) (by simp [formatF5]))
  refine ⟨hmem, fun hm => ?_⟩
  obtain ⟨hfault, hend⟩ := hrest hm
  refine ⟨fun h0 => hfault _ (if_pos h0), fun h0 ha => hfault _ ?_, fun ha => ?_⟩
  · rw [fieldFault1, if_neg h0, if_neg (by omega)]
  · rw [← hg ha]
    exact hend (by rw [fieldFault1, if_neg (by omega), if_pos ha])

/-- Settles O23, by `modAddSteps_eq` at both widths. -/
theorem modaddOutcome : Obligations.ModaddOutcome := by
  unfold Obligations.ModaddOutcome
  exact fun s hs => ⟨fieldOp2Outcome_of_body hs rfl modAddSteps_eq, fieldOp2Outcome_of_body hs rfl modAddSteps_eq⟩

/-- Settles O24, by `modSubSteps_eq` at both widths. -/
theorem modsubOutcome : Obligations.ModsubOutcome := by
  unfold Obligations.ModsubOutcome
  exact fun s hs => ⟨fieldOp2Outcome_of_body hs rfl modSubSteps_eq, fieldOp2Outcome_of_body hs rfl modSubSteps_eq⟩

/-- Settles O25, by `modNegSteps_eq` at both widths. -/
theorem modnegOutcome : Obligations.ModnegOutcome := by
  unfold Obligations.ModnegOutcome
  exact fun s hs => ⟨fieldOp1Outcome_of_body hs rfl modNegSteps_eq, fieldOp1Outcome_of_body hs rfl modNegSteps_eq⟩

end Sys2Proof.Machine
end

section
/-! PROOF. The statements about the multiplier unit (spec/41_modmul.md): the double-width multiply-add, the
multiply-add with its reduction, and the field products and squares, which share the checks of the adder unit. -/

namespace Sys2Proof.Machine

/-! ### ARITH256 (spec/41_modmul.md R130) -/

/-- A product of two digits and a third digit fit in two digits, in every base: the result of ARITH256 does not
overflow. -/
theorem mul_add_lt_mul_self {n a b c : Nat} (ha : a < n) (hb : b < n) (hc : c < n) : a * b + c < n * n :=
  calc a * b + c < a * n + n := Nat.add_lt_add_of_le_of_lt (Nat.mul_le_mul_left a hb.le) hc
    _ = (a + 1) * n := (Nat.succ_mul a n).symm
    _ ≤ n * n := Nat.mul_le_mul_right n ha

theorem arith256_high_lt (s : State) :
    (intAt s 4 0 * intAt s 4 1 + intAt s 4 2) / 2 ^ 256 < 2 ^ 256 :=
  Nat.div_lt_of_lt_mul (mul_add_lt_mul_self (intAt_lt s 4 0) (intAt_lt s 4 1) (intAt_lt s 4 2))

theorem storesInSpace_append {ss ts : List Store} (hs : storesInSpace ss) (ht : storesInSpace ts) :
    storesInSpace (ss ++ ts) :=
  List.forall_mem_append.2 ⟨hs, ht⟩

/-- ARITH256 has no operand check. -/
theorem bodyArith256_eq (s : State) :
    bodyArith256 s =
      (answer ((memoryFault s formatF2).or none) >>= fun _ =>
        let t := intAt s 4 0 * intAt s 4 1 + intAt s 4 2
        .ok (.done [Store.int 4 (ptr s 3) (t / 2 ^ 256), Store.int 4 (ptr s 4) (t % 2 ^ 256)] retZero)) := by
  rw [bodyArith256, checkFormat_eq, Option.or_none]
  rfl

/-- Settles O27: no check but those of memory; the two halves are in the address space, and the high one fits. -/
theorem arith256Outcome : Obligations.Arith256Outcome := by
  unfold Obligations.Arith256Outcome
  intro s hs
  have hbody : bodyOf .arith256 (issued .arith256 s) = _ := bodyArith256_eq _
  simp only [memoryFault_withOp, intAt_withOp, ptr_withOp] at hbody
  obtain ⟨hmem, hrest⟩ := outcome_of_checked_body hs hbody fun hm =>
    storesInSpace_append
      (store_int_in_space (buffer_in_space hm (b := ⟨3, 32, .write⟩) (by simp [formatF2])))
      (store_int_in_space (buffer_in_space hm (b := ⟨4, 32, .write⟩) (by simp [formatF2])))
  refine ⟨hmem, fun hm => ?_⟩
  obtain ⟨-, hend⟩ := hrest hm
  exact ⟨arith256_high_lt s, hend rfl⟩

/-! ### ARITH256_MOD and ARITH384_MOD (spec/41_modmul.md R131, R132) -/

/-- The fault of a zero modulus, the only operand fault of the multiply-add with reduction. -/
def modulusFault (m : Nat) : Option FaultCause := if m = 0 then some .divZero else none

theorem require_modulus_eq (m : Nat) : require (m != 0) .divZero = answer (modulusFault m) := by
  by_cases h : m = 0 <;> simp [modulusFault, require, h]

theorem bodyArithMod_eq (l : Nat) (s : State) :
    bodyArithMod l s =
      (answer ((memoryFault s (formatF3 l)).or (modulusFault (intAt s l 3))) >>= fun _ =>
        .ok (.done [Store.int l (ptr s 4) ((intAt s l 0 * intAt s l 1 + intAt s l 2) % intAt s l 3)] retZero)) := by
  simp only [bodyArithMod, checkFormat_eq, require_modulus_eq, ← answer_seq, bind_assoc]
  rfl

/-- The two operations of format F3 run one body, each at its width. -/
theorem bodyOf_arithMod {i : Instr} {l : Nat} (h : (i, l) ∈ [(Instr.arith256Mod, 4), (.arith384Mod, 6)]) :
    bodyOf i = bodyArithMod l := by
  simp only [List.mem_cons, Prod.mk.injEq, List.not_mem_nil, or_false] at h
  obtain ⟨rfl, rfl⟩ | ⟨rfl, rfl⟩ := h
  · rfl
  · rfl

/-- Settles O28: the memory checks, then the modulus, then the residue, whatever the operands. -/
theorem arithModOutcome : Obligations.ArithModOutcome := by
  unfold Obligations.ArithModOutcome
  intro i l hi s hs
  have hbody : bodyOf i (issued i s) = _ := (congrFun (bodyOf_arithMod hi) _).trans (bodyArithMod_eq l _)
  simp only [memoryFault_withOp, intAt_withOp, ptr_withOp] at hbody
  obtain ⟨hmem, hrest⟩ := outcome_of_checked_body hs hbody fun hm =>
    store_int_in_space (buffer_in_space hm (b := ⟨4, 8 * l, .write⟩) (by simp [formatF3]))
  refine ⟨hmem, fun hm => ?_⟩
  obtain ⟨hfault, hend⟩ := hrest hm
  exact ⟨fun h0 => hfault _ (if_pos h0), fun h0 => hend (if_neg h0)⟩

/-! ### The field products and squares (spec/41_modmul.md R133, R135 to R138) -/

theorem reduce_eq (t m : Nat) : reduce t m = t % m := rfl

/-- Settles O29: the body of the field operations with two operands, on a product and its `reduce`. -/
theorem modmulOutcome : Obligations.ModmulOutcome := by
  unfold Obligations.ModmulOutcome
  exact fun s hs => ⟨fieldOp2Outcome_of_body (g := fun a b m => reduce (a * b) m) hs rfl fun _ _ _ => reduce_eq _ _,
    fieldOp2Outcome_of_body (g := fun a b m => reduce (a * b) m) hs rfl fun _ _ _ => reduce_eq _ _⟩

/-- Settles O30: the body of the field operations with one operand, on a square and its `reduce`. -/
theorem modsqrOutcome : Obligations.ModsqrOutcome := by
  unfold Obligations.ModsqrOutcome
  exact fun s hs => ⟨fieldOp1Outcome_of_body (g := fun a m => reduce (a * a) m) hs rfl fun _ => reduce_eq _ _,
    fieldOp1Outcome_of_body (g := fun a m => reduce (a * a) m) hs rfl fun _ => reduce_eq _ _⟩

end Sys2Proof.Machine
end

section
/-! PROOF. The statements about the modular inverse unit (spec/42_modinv.md): which candidates pass the check, and how
the Fermat inverses, the hint inverses and BN254_FP_INV come out. -/

namespace Sys2Proof.Machine

/-! ### Candidates (spec/42_modinv.md R150, R151, R156) -/

/-- A passing candidate shows that the operand is a unit. -/
theorem coprime_of_candidate {a m r : Nat} (hm : 1 < m) (h : a * r % m = 1) : Nat.Coprime a m :=
  Nat.coprime_of_mul_modEq_one r (h.trans (Nat.mod_eq_of_lt hm).symm)

/-- The product that the check of the Fermat candidate looks at is a power, the one of Fermat's theorem. -/
theorem mul_fermat_candidate (a : Nat) {m : Nat} (hm : 2 ≤ m) : a * (a ^ (m - 2) % m) % m = a ^ (m - 1) % m := by
  rw [Nat.mul_mod_mod, ← pow_succ', show m - 2 + 1 = m - 1 by omega]

/-- Modulo a prime the Fermat candidate of a non-zero operand passes. -/
theorem fermat_candidate_of_prime {a m : Nat} (hp : m.Prime) (h0 : 0 < a) (ha : a < m) :
    a * (a ^ (m - 2) % m) % m = 1 := by
  have hcop : Nat.Coprime a m := (Nat.coprime_of_lt_prime h0.ne' ha hp).symm
  have hpow : a ^ (m - 1) % m = 1 % m := by
    rw [← Nat.totient_prime hp]
    exact Nat.ModEq.pow_totient hcop
  rw [mul_fermat_candidate a hp.two_le, hpow, Nat.mod_eq_of_lt hp.one_lt]

theorem inverseOk_iff {a m r : Nat} : inverseOk a m r = true ↔ r < m ∧ a * r % m = 1 := by
  simp [inverseOk, mulm]

theorem hintedInverse_accepts {a m : Nat} {ws : List Word}
    (h : fromLimbs ws < m ∧ a * fromLimbs ws % m = 1) : hintedInverse a m ws = .ok (fromLimbs ws) := by
  rw [hintedInverse, inverseOk_iff.2 h]
  rfl

theorem hintedInverse_rejects {a m : Nat} {ws : List Word}
    (h : ¬ (fromLimbs ws < m ∧ a * fromLimbs ws % m = 1)) : hintedInverse a m ws = .error .hintVerify := by
  rw [hintedInverse, Bool.eq_false_iff.2 (mt inverseOk_iff.1 h)]
  rfl

/-- The limbs of a passing candidate are an accepted hint. -/
theorem hintedInverse_toLimbs {a m l r : Nat} (hl : m < 2 ^ (64 * l)) (hr : r < m) (h : a * r % m = 1) :
    hintedInverse a m (toLimbs l r) = .ok r := by
  have hval : fromLimbs (toLimbs l r) = r := by rw [fromLimbs_toLimbs, Nat.mod_eq_of_lt (hr.trans hl)]
  rw [hintedInverse_accepts (by rw [hval]; exact ⟨hr, h⟩), hval]

/-- Settles O34: `invm` is the inverse where there is one, a passing candidate shows that there is one, and there is at
most one. -/
theorem inverseIsUnique : Obligations.InverseIsUnique := by
  unfold Obligations.InverseIsUnique
  intro a m h0 ha
  have hm : 1 < m := by omega
  refine ⟨fun r r' hr hr' h h' => inverse_unique hr hr' h h', fun hcop l hl => ?_, fun hcop ws => ?_, fun h => ?_⟩
  · obtain ⟨hinv, hlt⟩ := invm_spec hm hcop
    exact ⟨hintedInverse_toLimbs hl hlt hinv, hinv, hlt⟩
  · exact hintedInverse_rejects fun h => hcop (coprime_of_candidate hm h.2)
  · obtain ⟨hinv, hlt⟩ := invm_spec hm (coprime_of_candidate hm h)
    exact inverse_unique (Nat.mod_lt _ (by omega)) hlt h hinv

/-! ### From the checks of a body to its outcome (spec/60_exceptions.md R305) -/

/-- A body of memory checks, then operand checks, raises the first fault in this order; without a fault it comes to
what follows the checks. -/
theorem checked_body {i : Instr} {s : State} {f : Format} {operandFault : Option FaultCause}
    {rest : Except FaultCause Plan} (hs : s.status = statusIdle)
    (hb : bodyOf i (issued i s) = (answer ((memoryFault s f).or operandFault) >>= fun _ => rest)) :
    MemoryFaultsFirst i s (memoryFault s f) ∧
    (memoryFault s f = none →
      (∀ c, operandFault = some c → FaultsWith i s 0 [] c) ∧
      (operandFault = none → bodyOf i (issued i s) = rest)) := by
  refine ⟨fun c hc => faultsWith_of_body hs ?_, fun hm => ⟨fun c hc => faultsWith_of_body hs ?_, fun hn => ?_⟩⟩
  · rw [hb, hc]; rfl
  · rw [hb, hm, hc]; rfl
  · rw [hb, hm, hn]; rfl

/-- A body that ends, ends the operation: its outputs have passed the checks of the issue. -/
theorem endsWith_of_done {i : Instr} {s : State} {ss : List Store} {ret : Word} (hs : s.status = statusIdle)
    (hb : bodyOf i (issued i s) = .ok (.done ss ret)) : EndsWith i s 0 [] ss ret :=
  endsWith_of_body hs hb (bodyOf_planOk i _ _ hb)

/-- A body that asks for hint words: the latched record has passed the checks of the issue. -/
theorem asksWith_of_hint {i : Instr} {s : State} {p : Pend} (hs : s.status = statusIdle)
    (hb : bodyOf i (issued i s) = .ok (.hint p)) : AsksWith i s p :=
  asksWith_of_body hs hb fun _ _ _ hr => result_in_space (bodyOf_planOk i _ _ hb) hr

/-- The checks of an inverse of format F5: memory, then a zero modulus, then an operand that is not reduced; what
follows them sees reduced operands only. -/
theorem checked_inverse_body {i : Instr} {l : Nat} {s : State} {rest : Except FaultCause Plan}
    (hs : s.status = statusIdle)
    (hb : bodyOf i (issued i s) =
      (answer ((memoryFault s (formatF5 l)).or (fieldFault1 (intAt s l 0) (intAt s l 1))) >>= fun _ => rest)) :
    MemoryFaultsFirst i s (memoryFault s (formatF5 l)) ∧
    (memoryFault s (formatF5 l) = none →
      (intAt s l 1 = 0 → FaultsWith i s 0 [] .divZero) ∧
      (intAt s l 1 ≠ 0 → intAt s l 1 ≤ intAt s l 0 → FaultsWith i s 0 [] .precond) ∧
      (intAt s l 0 < intAt s l 1 → bodyOf i (issued i s) = rest)) := by
  obtain ⟨hmem, hrest⟩ := checked_body hs hb
  refine ⟨hmem, fun hm => ?_⟩
  obtain ⟨hfault, hplan⟩ := hrest hm
  refine ⟨fun h0 => hfault _ (if_pos h0), fun h0 ha => hfault _ ?_, fun ha => hplan ?_⟩
  · rw [fieldFault1, if_neg h0, if_neg (Nat.not_lt.2 ha)]
  · rw [fieldFault1, if_neg (by omega), if_pos ha]

/-! ### MODINV256_F and MODINV384_F (spec/42_modinv.md R151, R153) -/

/-- What the Fermat inverse comes to on reduced operands. -/
def fermatPlan (l d a m : Nat) : Except FaultCause Plan :=
  if a = 0 then .ok (.done [] retNoInverse)
  else require (mulm a (powm a (m - 2) m) m == 1) .precond >>= fun _ =>
    .ok (.done [Store.int l d (powm a (m - 2) m)] retZero)

theorem bodyModinvF_eq (l : Nat) (s : State) :
    bodyModinvF l s =
      (answer ((memoryFault s (formatF5 l)).or (fieldFault1 (intAt s l 0) (intAt s l 1))) >>= fun _ =>
        fermatPlan l (ptr s 2) (intAt s l 0) (intAt s l 1)) := by
  simp only [bodyModinvF, checkFormat_eq, fieldChecks1_eq, ← answer_seq, bind_assoc]
  rfl

theorem fermatPlan_zero (l d m : Nat) : fermatPlan l d 0 m = .ok (.done [] retNoInverse) := if_pos rfl

theorem fermatPlan_passes {l d a m : Nat} (h0 : 0 < a) (hm : 0 < m) (h : a * (a ^ (m - 2) % m) % m = 1) :
    fermatPlan l d a m = .ok (.done [Store.int l d (a ^ (m - 2) % m)] retZero) := by
  rw [fermatPlan, if_neg h0.ne', powm_eq hm, mulm, h]
  rfl

theorem fermatPlan_fails {l d a m : Nat} (h0 : 0 < a) (hm : 0 < m) (h : a * (a ^ (m - 2) % m) % m ≠ 1) :
    fermatPlan l d a m = .error .precond := by
  rw [fermatPlan, if_neg h0.ne', powm_eq hm, mulm, beq_eq_false_iff_ne.2 h]
  rfl

/-- The two Fermat inverses run one body, each at its width. -/
theorem bodyOf_modinvF {i : Instr} {l : Nat} (h : (i, l) ∈ [(Instr.modinv256F, 4), (.modinv384F, 6)]) :
    bodyOf i = bodyModinvF l := by
  simp only [List.mem_cons, Prod.mk.injEq, List.not_mem_nil, or_false] at h
  obtain ⟨rfl, rfl⟩ | ⟨rfl, rfl⟩ := h
  · rfl
  · rfl

/-- Settles O31: the memory checks, the field checks, then the operand 0 or the check of the candidate; by Fermat's
theorem a prime modulus passes it. -/
theorem modinvFOutcome : Obligations.ModinvFOutcome := by
  unfold Obligations.ModinvFOutcome
  intro i l hi s hs
  have hbody : bodyOf i (issued i s) = _ := (congrFun (bodyOf_modinvF hi) _).trans (bodyModinvF_eq l _)
  simp only [memoryFault_withOp, intAt_withOp, ptr_withOp] at hbody
  obtain ⟨hmem, hrest⟩ := checked_inverse_body hs hbody
  refine ⟨hmem, fun hm => ?_⟩
  obtain ⟨hzero, hunreduced, hplan⟩ := hrest hm
  refine ⟨hzero, hunreduced, fun h0 ha => endsWith_of_done hs ?_, fun h0 ha =>
    ⟨fun h => endsWith_of_done hs ?_, fun h => faultsWith_of_body hs ?_, fun hp => fermat_candidate_of_prime hp h0 ha⟩⟩
  · rw [hplan (by omega), ha, fermatPlan_zero]
  · rw [hplan ha, fermatPlan_passes h0 (by omega) h]
  · rw [hplan ha, fermatPlan_fails h0 (by omega) h]

/-! ### Hinted inverses (spec/42_modinv.md R152, R154 to R156; spec/10_state.md R36, R37) -/

/-- An operation that asks with a record whose completion verifies an inverse of `a` modulo `m` and writes it at
`d`. -/
theorem inverseAnswered_of_asksWith {i : Instr} {s : State} {p : Pend} {l d a m : Nat} (hask : AsksWith i s p)
    (hneed : p.need = l)
    (hres : ∀ ws, p.result ws = (hintedInverse a m ws >>= fun r => .ok ([Store.int l d r], retZero))) :
    InverseAnswered i s p p.query l d a m := by
  subst hneed
  obtain ⟨hwait, hpop⟩ := hask
  refine ⟨hwait, fun hle => ?_⟩
  obtain ⟨hend, hfault⟩ := hpop hle
  refine ⟨fun hr h => hend _ _ ?_, fun h => hfault _ ?_⟩
  · rw [hres, hintedInverse_accepts ⟨hr, h⟩]; rfl
  · rw [hres, hintedInverse_rejects h]; rfl

/-- What a hinted inverse comes to on a reduced operand: an end of its own for the operand 0, else the query. -/
def hintPlan (a : Nat) (zero : Plan) (p : Pend) : Except FaultCause Plan :=
  if a = 0 then .ok zero else .ok (.hint p)

theorem hintPlan_zero (zero : Plan) (p : Pend) : hintPlan 0 zero p = .ok zero := if_pos rfl

theorem hintPlan_pos {a : Nat} (zero : Plan) (p : Pend) (h : 0 < a) : hintPlan a zero p = .ok (.hint p) :=
  if_neg h.ne'

theorem bodyModinvH_eq (l : Nat) (latch : Nat → Nat → Pend) (s : State) :
    bodyModinvH l latch s =
      (answer ((memoryFault s (formatF5 l)).or (fieldFault1 (intAt s l 0) (intAt s l 1))) >>= fun _ =>
        hintPlan (intAt s l 0) (.done [] retNoInverse) (latch (intAt s l 0) (intAt s l 1))) := by
  simp only [bodyModinvH, checkFormat_eq, fieldChecks1_eq, ← answer_seq, bind_assoc]
  rfl

/-- A hint inverse whose record stands for the operands has the outcome of R152. -/
theorem modinvHOutcome_of_body {i : Instr} {l : Nat} {latch : Nat → Nat → Pend} {ask : Nat → Nat → Query} {s : State}
    (hs : s.status = statusIdle) (hb : bodyOf i (issued i s) = bodyModinvH l latch (issued i s))
    (hneed : ∀ a m, (latch a m).need = l) (hask : ∀ a m, (latch a m).query = ask a m)
    (hres : ∀ ws, (latch (intAt s l 0) (intAt s l 1)).result ws =
      (hintedInverse (intAt s l 0) (intAt s l 1) ws >>= fun r => .ok ([Store.int l (ptr s 2) r], retZero))) :
    ModinvHOutcome i l latch ask s := by
  rw [bodyModinvH_eq] at hb
  simp only [memoryFault_withOp, intAt_withOp] at hb
  obtain ⟨hmem, hrest⟩ := checked_inverse_body hs hb
  refine ⟨hmem, fun hm => ?_⟩
  obtain ⟨hzero, hunreduced, hplan⟩ := hrest hm
  refine ⟨hzero, hunreduced, fun h0 ha => endsWith_of_done hs ?_, fun h0 ha => ?_⟩
  · rw [hplan (by omega), ha, hintPlan_zero]
  · rw [← hask]
    exact inverseAnswered_of_asksWith (asksWith_of_hint hs ((hplan ha).trans (hintPlan_pos _ _ h0))) (hneed _ _) hres

/-- Settles O32: one body at two widths; the latched operands are the operands. -/
theorem hintInverseOutcome : Obligations.HintInverseOutcome := by
  unfold Obligations.HintInverseOutcome
  intro s hs
  refine ⟨modinvHOutcome_of_body hs rfl (fun _ _ => rfl) (fun _ _ => rfl) fun ws => ?_,
    modinvHOutcome_of_body hs rfl (fun _ _ => rfl) (fun _ _ => rfl) fun ws => ?_⟩
  · simp only [Pend.result, toNat_intAt s 4 _ 256 rfl]
    rfl
  · simp only [Pend.result, toNat_intAt s 6 _ 384 rfl]
    rfl

/-! ### BN254_FP_INV (spec/42_modinv.md R155) -/

/-- The fault of an operand that is not reduced, the only operand fault of BN254_FP_INV: its modulus is fixed. -/
def reducedFault (a m : Nat) : Option FaultCause := if a < m then none else some .precond

theorem require_reduced_eq (a m : Nat) : require (decide (a < m)) .precond = answer (reducedFault a m) := by
  by_cases h : a < m <;> simp [reducedFault, h]

theorem bodyBn254FpInv_eq (s : State) :
    bodyBn254FpInv s =
      (answer ((memoryFault s formatF6).or (reducedFault (intAt s 4 0) bnP)) >>= fun _ =>
        hintPlan (intAt s 4 0) (.done [Store.int 4 (ptr s 1) 0] retZero)
          (.bn254FpInv (BitVec.ofNat 256 (intAt s 4 0)) (structWord s 1))) := by
  simp only [bodyBn254FpInv, checkFormat_eq, require_reduced_eq, ← answer_seq, bind_assoc]
  rfl

/-- Settles O33: the memory checks, the operand's, then the operand 0 or the query for its inverse. -/
theorem bn254FpInvOutcome : Obligations.Bn254FpInvOutcome := by
  unfold Obligations.Bn254FpInvOutcome
  intro s hs
  have hbody : bodyOf .bn254FpInv (issued .bn254FpInv s) = _ := bodyBn254FpInv_eq _
  simp only [memoryFault_withOp, intAt_withOp, ptr_withOp, structWord_withOp] at hbody
  obtain ⟨hmem, hrest⟩ := checked_body hs hbody
  refine ⟨hmem, fun hm => ?_⟩
  obtain ⟨hfault, hplan⟩ := hrest hm
  refine ⟨fun ha => hfault _ (if_neg (Nat.not_lt.2 ha)), fun h0 => endsWith_of_done hs ?_, fun h0 ha => ?_⟩
  · rw [hplan (if_pos (by rw [h0]; decide)), h0, hintPlan_zero]
  · refine inverseAnswered_of_asksWith (asksWith_of_hint hs ((hplan (if_pos ha)).trans (hintPlan_pos _ _ h0))) rfl ?_
    intro ws
    simp only [Pend.result, toNat_intAt s 4 _ 256 rfl]
    rfl

end Sys2Proof.Machine
end

section
/-! PROOF. The statements about the modular exponentiation unit (spec/43_modexp.md): digit lists and their values, the
ArbBig functions, and the outcome of MODEXP. -/

namespace Sys2Proof.Machine

/-! ### Digits and their value (spec/43_modexp.md R170, R179) -/

theorem arbValue_cons (d : Nat) (ds : List Nat) : arbValue (d :: ds) = d + 2 ^ 256 * arbValue ds := rfl

/-- The value of a digit list is Mathlib's positional value in base `2^256`. -/
theorem arbValue_eq_ofDigits (ds : List Nat) : arbValue ds = Nat.ofDigits (2 ^ 256) ds := by
  induction ds with
  | nil => rfl
  | cons d rest ih => rw [arbValue_cons, ih, Nat.ofDigits_cons]

/-- Digits below `2^256` hold less than their length allows. -/
theorem arbValue_lt {ds : List Nat} (h : ∀ d ∈ ds, d < 2 ^ 256) : arbValue ds < 2 ^ (256 * ds.length) := by
  rw [arbValue_eq_ofDigits, pow_mul]
  exact Nat.ofDigits_lt_base_pow_length (by norm_num) h

theorem digitsPadded_digit_lt {n v d : Nat} (h : d ∈ digitsPadded n v) : d < 2 ^ 256 := by
  induction n generalizing v with
  | zero => cases h
  | succ n ih =>
    rcases List.mem_cons.1 h with rfl | h
    · exact Nat.mod_lt _ (by positivity)
    · exact ih h

theorem div_pow_digit_succ (v k : Nat) : v / 2 ^ 256 / 2 ^ (256 * k) = v / 2 ^ (256 * (k + 1)) := by
  rw [Nat.div_div_eq_div_mul, ← pow_add, Nat.mul_succ, add_comm]

theorem digitsPadded_getElem? {n k : Nat} (v : Nat) (hk : k < n) :
    (digitsPadded n v)[k]? = some (v / 2 ^ (256 * k) % 2 ^ 256) := by
  induction n generalizing v k with
  | zero => cases hk
  | succ n ih =>
    cases k with
    | zero => simp [digitsPadded]
    | succ k => rw [digitsPadded, List.getElem?_cons_succ, ih _ (Nat.lt_of_succ_lt_succ hk), div_pow_digit_succ]

/-- The most significant digit, split off. -/
theorem digitsPadded_succ (n v : Nat) :
    digitsPadded (n + 1) v = digitsPadded n v ++ [v / 2 ^ (256 * n) % 2 ^ 256] := by
  induction n generalizing v with
  | zero => simp [digitsPadded]
  | succ n ih => rw [digitsPadded, ih, digitsPadded, List.cons_append, div_pow_digit_succ]

/-- Padded digits hold a value that fits in them. -/
theorem arbValue_digitsPadded {n v : Nat} (h : v < 2 ^ (256 * n)) : arbValue (digitsPadded n v) = v := by
  induction n generalizing v with
  | zero => rw [digitsPadded, arbValue]; omega
  | succ n ih =>
    have hdiv : v / 2 ^ 256 < 2 ^ (256 * n) := Nat.div_lt_of_lt_mul (by rwa [← pow_add, add_comm])
    rw [digitsPadded, arbValue_cons, ih hdiv, Nat.mod_add_div]

/-- Settles O36: a result below the modulus, or at most 1, fits in the digits of the modulus. -/
theorem modexpOutputFits : Obligations.ModexpOutputFits := by
  unfold Obligations.ModexpOutputFits
  intro ds v hne hds hv
  have hone : 1 < 2 ^ (256 * ds.length) :=
    Nat.one_lt_two_pow (Nat.mul_ne_zero (by decide) (mt List.length_eq_zero_iff.1 hne))
  have hfits : v < 2 ^ (256 * ds.length) := by
    rcases hv with hv | hv
    · exact hv.trans (arbValue_lt hds)
    · exact hv.trans_lt hone
  exact ⟨digitsPadded_length _ _, fun _ => digitsPadded_digit_lt, fun _ => digitsPadded_getElem? v,
    arbValue_digitsPadded hfits⟩

/-! ### Canonical digits and `trim` (spec/43_modexp.md R170) -/

theorem arbCanonical_concat (ds : List Nat) (top : Nat) :
    arbCanonical (ds ++ [top]) = (ds.isEmpty || top != 0) := by
  simp [arbCanonical]

/-- A digit below canonical digits of a non-zero value leaves them canonical: their top digit is not zero, also when
they are a single digit. -/
theorem arbCanonical_cons {d : Nat} {ds : List Nat} (hc : arbCanonical ds = true) (hv : arbValue ds ≠ 0) :
    arbCanonical (d :: ds) = true := by
  rcases List.eq_nil_or_concat' ds with rfl | ⟨init, top, rfl⟩
  · cases hc
  · have htop : top ≠ 0 := by
      rintro rfl
      rw [arbCanonical_concat] at hc
      cases init with
      | nil => exact hv rfl
      | cons => cases hc
    rw [← List.cons_append, arbCanonical_concat]
    simpa using htop

theorem arbValue_arbTrim (ds : List Nat) : arbValue (arbTrim ds) = arbValue ds := by
  induction ds using arbTrim.induct with
  | case1 => rfl
  | case2 d => rfl
  | case3 d d' rest hzero => rw [arbTrim, if_pos hzero, arbValue_cons d (d' :: rest), hzero]; rfl
  | case4 d d' rest hzero ih => rw [arbTrim, if_neg hzero, arbValue_cons, ih, ← arbValue_cons]

theorem arbCanonical_arbTrim {ds : List Nat} (hne : ds ≠ []) : arbCanonical (arbTrim ds) = true := by
  induction ds using arbTrim.induct with
  | case1 => exact absurd rfl hne
  | case2 d => rfl
  | case3 d d' rest hzero => rw [arbTrim, if_pos hzero]; rfl
  | case4 d d' rest hzero ih =>
    rw [arbTrim, if_neg hzero]
    exact arbCanonical_cons (ih (List.cons_ne_nil _ _)) (by rwa [arbValue_arbTrim])

/-! ### The digits of a value -/

theorem lt_pow_digitCount (v : Nat) : v < 2 ^ (256 * digitCount v) :=
  Nat.lt_log2_self.trans_le (Nat.pow_le_pow_right (by decide) (by rw [digitCount]; omega))

theorem arbValue_arbOfNat (v : Nat) : arbValue (arbOfNat v) = v := arbValue_digitsPadded (lt_pow_digitCount v)

/-- The top digit of a non-zero value is not zero: `digitCount` counts no digit too many. -/
theorem arbOfNat_top_ne_zero {v : Nat} (hv : v ≠ 0) : v / 2 ^ (256 * (Nat.log2 v / 256)) % 2 ^ 256 ≠ 0 := by
  have hpos : 0 < v / 2 ^ (256 * (Nat.log2 v / 256)) :=
    Nat.div_pos ((Nat.pow_le_pow_right (by decide) (Nat.mul_div_le _ _)).trans (Nat.log2_self_le hv)) (by positivity)
  have hlt : v / 2 ^ (256 * (Nat.log2 v / 256)) < 2 ^ 256 :=
    Nat.div_lt_of_lt_mul (by rw [← pow_add]; exact lt_pow_digitCount v)
  rw [Nat.mod_eq_of_lt hlt]
  exact hpos.ne'

theorem arbCanonical_arbOfNat (v : Nat) : arbCanonical (arbOfNat v) = true := by
  rw [arbOfNat, digitCount, digitsPadded_succ, arbCanonical_concat]
  by_cases hv : v = 0
  · subst hv; rfl
  · rw [bne_iff_ne.2 (arbOfNat_top_ne_zero hv), Bool.or_true]

/-! ### The ArbBig functions (spec/43_modexp.md R171 to R175) -/

theorem addAgtb_length (a b : List Nat) :
    (addAgtb a b).length =
      if arbValue a + arbValue b < 2 ^ (256 * a.length) then a.length else a.length + 1 :=
  digitsPadded_length _ _

/-- One digit more than the longer operand holds the sum: its carry out is at most 1. -/
theorem arbValue_addAgtb {a b : List Nat} (ha : ∀ d ∈ a, d < 2 ^ 256) (hb : ∀ d ∈ b, d < 2 ^ 256)
    (hlen : b.length ≤ a.length) : arbValue (addAgtb a b) = arbValue a + arbValue b := by
  have hba : arbValue b < 2 ^ (256 * a.length) :=
    (arbValue_lt hb).trans_le (Nat.pow_le_pow_right (by decide) (Nat.mul_le_mul_left _ hlen))
  have hsum : arbValue a + arbValue b < 2 ^ (256 * (a.length + 1)) :=
    calc arbValue a + arbValue b < 2 ^ (256 * a.length) + 2 ^ (256 * a.length) := Nat.add_lt_add (arbValue_lt ha) hba
      _ = 2 ^ (256 * a.length + 1) := by rw [pow_succ, mul_two]
      _ ≤ 2 ^ (256 * (a.length + 1)) := Nat.pow_le_pow_right (by decide) (by omega)
  refine arbValue_digitsPadded ?_
  split_ifs with hfits
  · exact hfits
  · exact hsum

theorem arbSub_of_le {a b : List Nat} (h : arbValue b ≤ arbValue a) :
    arbSub a b = some (arbOfNat (arbValue a - arbValue b)) := if_pos h

theorem arbSub_of_lt {a b : List Nat} (h : arbValue a < arbValue b) : arbSub a b = none := if_neg (Nat.not_le.2 h)

theorem arbValue_mulShort {a : List Nat} {d : Nat} (ha : ∀ x ∈ a, x < 2 ^ 256) (hd : d < 2 ^ 256) :
    arbValue (mulShort a d) = arbValue a * d :=
  arbValue_digitsPadded (by rw [Nat.mul_succ, pow_add]; exact Nat.mul_lt_mul'' (arbValue_lt ha) hd)

theorem arbValue_mulLong {a b : List Nat} (ha : ∀ d ∈ a, d < 2 ^ 256) (hb : ∀ d ∈ b, d < 2 ^ 256) :
    arbValue (mulLong a b) = arbValue a * arbValue b :=
  arbValue_digitsPadded (by rw [Nat.mul_add, pow_add]; exact Nat.mul_lt_mul'' (arbValue_lt ha) (arbValue_lt hb))

theorem divLong_zero (a : Nat) : divLong a 0 = .error .divZero := if_pos rfl

theorem divLong_of_ne_zero {b : Nat} (a : Nat) (hb : b ≠ 0) : divLong a b = .ok (a / b, a % b) := if_neg hb

theorem divLongDigits_zero (a : List Nat) {b : List Nat} (hb : arbValue b = 0) :
    divLongDigits a b = .error .divZero := by
  rw [divLongDigits, hb, divLong_zero]; rfl

theorem divLongDigits_of_ne_zero (a : List Nat) {b : List Nat} (hb : arbValue b ≠ 0) :
    divLongDigits a b = .ok (arbOfNat (arbValue a / arbValue b), arbOfNat (arbValue a % arbValue b)) := by
  rw [divLongDigits, divLong_of_ne_zero _ hb]; rfl

/-- Settles O37: each function gives the digits of a value, in a length that holds it. -/
theorem arbBigFunctions : Obligations.ArbBigFunctions := by
  unfold Obligations.ArbBigFunctions
  refine ⟨fun a _ hne => ⟨arbValue_arbTrim a, arbCanonical_arbTrim hne⟩, fun a b ha hb =>
    ⟨fun hlen => ⟨arbValue_addAgtb ha hb hlen, fun hfits => ?_, fun hover => ?_, fun _ => digitsPadded_digit_lt⟩,
      fun hle => ⟨_, arbSub_of_le hle, arbValue_arbOfNat _, arbCanonical_arbOfNat _⟩,
      arbSub_of_lt,
      fun d hd => ⟨arbValue_mulShort ha hd, digitsPadded_length _ _⟩,
      ⟨arbValue_mulLong ha hb, digitsPadded_length _ _⟩,
      divLongDigits_zero a,
      fun hpos => ⟨_, _, divLongDigits_of_ne_zero a hpos.ne', arbValue_arbOfNat _, arbValue_arbOfNat _,
        arbCanonical_arbOfNat _, arbCanonical_arbOfNat _⟩⟩⟩
  · rw [addAgtb_length, if_pos hfits]
  · rw [addAgtb_length, if_neg (Nat.not_lt.2 hover)]

/-! ### The value of MODEXP (spec/43_modexp.md R177, R178) -/

theorem sqmul_mod_eq {e m : Nat} (b : Nat) (he : e ≠ 0) (hm : 0 < m) : sqmul (b % m) e m = b ^ e % m := by
  rw [← powm_eq hm, powm, if_neg he]

theorem modexpValue_one (b e : Nat) : modexpValue b e 1 = .ok 0 := if_pos rfl

/-- From the modulus 2 on, the early returns agree with the power they cut short. -/
theorem modexpValue_of_two_le {m : Nat} (b e : Nat) (hm : 2 ≤ m) : modexpValue b e m = .ok (b ^ e % m) := by
  have hone : 1 % m = 1 := Nat.mod_eq_of_lt hm
  rw [modexpValue, if_neg (by omega)]
  by_cases he : e = 0
  · rw [if_pos ⟨he, hm⟩, he, pow_zero, hone]
  rw [if_neg fun h => he h.1]
  by_cases hb0 : b = 0
  · rw [if_pos ⟨hb0, by omega⟩, hb0, zero_pow he, Nat.zero_mod]
  rw [if_neg fun h => hb0 h.1]
  by_cases hb1 : b = 1
  · rw [if_pos hb1, hb1, one_pow, hone]
  rw [if_neg hb1, divLong_of_ne_zero b (by omega), ok_bind, sqmul_mod_eq b he (by omega)]
  rfl

/-- With the modulus 0 only the early returns of the bases 0 and 1 are left. -/
theorem modexpValue_modulus_zero (b e : Nat) :
    modexpValue b e 0 = if b = 0 ∧ 0 < e then .ok 0 else if b = 1 then .ok 1 else .error .divZero := by
  rw [modexpValue, if_neg (by decide), if_neg (by omega), divLong_zero, error_bind]

/-! ### MODEXP (spec/43_modexp.md R176) -/

/-- What MODEXP comes to after its memory checks, on the digits of its inputs. -/
def modexpPlan (out : Nat) (b e m : List Nat) : Except FaultCause Plan :=
  require (arbCanonical b && arbCanonical e && arbCanonical m) .precond >>= fun _ =>
    modexpValue (arbValue b) (arbValue e) (arbValue m) >>= fun v =>
      .ok (.done [Store.arb out (digitsPadded m.length v)] retZero)

theorem bodyModexp_eq (s : State) :
    bodyModexp s =
      (answer (modexpFault s) >>= fun _ => modexpPlan (ptr s 3) (arbAt s 0) (arbAt s 1) (arbAt s 2)) := by
  rw [bodyModexp, checkF7_eq]; rfl

theorem modexpPlan_noncanonical {out : Nat} {b e m : List Nat}
    (h : (arbCanonical b && arbCanonical e && arbCanonical m) = false) : modexpPlan out b e m = .error .precond := by
  rw [modexpPlan, h]; rfl

theorem modexpPlan_canonical {out : Nat} {b e m : List Nat}
    (h : (arbCanonical b && arbCanonical e && arbCanonical m) = true) :
    modexpPlan out b e m = (modexpValue (arbValue b) (arbValue e) (arbValue m) >>= fun v =>
      .ok (.done [Store.arb out (digitsPadded m.length v)] retZero)) := by
  rw [modexpPlan, h]; rfl

/-- Settles O35: the memory checks, then the form of the inputs, then the value, case by case of the modulus. -/
theorem modexpOutcome : Obligations.ModexpOutcome := by
  unfold Obligations.ModexpOutcome
  intro s hs
  have hbody : bodyOf .modexp (issued .modexp s) = _ := bodyModexp_eq _
  simp only [modexpFault_withOp, arbAt_withOp, ptr_withOp] at hbody
  refine ⟨fun c hc => faultsWith_of_body hs ?_, fun hm => ?_⟩
  · rw [hbody, hc]; rfl
  rw [hm, answer_none, ok_bind] at hbody
  refine ⟨fun hc => faultsWith_of_body hs (hbody.trans (modexpPlan_noncanonical hc)), fun hc => ?_⟩
  rw [modexpPlan_canonical hc] at hbody
  generalize arbValue (arbAt s 0) = b at hbody ⊢
  generalize arbValue (arbAt s 1) = e at hbody ⊢
  generalize arbValue (arbAt s 2) = m at hbody ⊢
  have hwrites : ∀ v, modexpValue b e m = .ok v →
      EndsWith .modexp s 0 [] [Store.arb (ptr s 3) (digitsPadded (arbAt s 2).length v)] retZero :=
    fun v hv => endsWith_of_done hs (by rw [hbody, hv, ok_bind])
  refine ⟨fun h1 => hwrites _ ?_, fun h2 => hwrites _ (modexpValue_of_two_le b e h2), fun h0 hb he => hwrites _ ?_,
    fun h0 hb => hwrites _ ?_, fun h0 hb he => faultsWith_of_body hs ?_⟩
  · rw [h1, modexpValue_one]
  · rw [h0, modexpValue_modulus_zero, if_pos ⟨hb, he⟩]
  · rw [h0, modexpValue_modulus_zero, if_neg (by omega), if_pos hb]
  · rw [hbody, h0, modexpValue_modulus_zero, if_neg (by omega), if_neg hb, error_bind]

end Sys2Proof.Machine
end

section
/-! PROOF. Point addition (spec/44_secp256k1.md R200 to R206, spec/45_bn254_curve.md R231 to R233): the raw addition and
doubling and the complete addition case by case, the operations that write them, and the group of the curve. -/

namespace Sys2Proof.Machine

open WeierstrassCurve

/-! ### The checks of points (spec/44_secp256k1.md R200) -/

theorem coordsOk_iff {q : Point} {p : Nat} : coordsOk q p = true ↔ q.x < p ∧ q.y < p := by
  simp [coordsOk]

theorem coordsOk_both_iff {q1 q2 : Point} {p : Nat} :
    (coordsOk q1 p && coordsOk q2 p) = true ↔ q1.x < p ∧ q1.y < p ∧ q2.x < p ∧ q2.y < p := by
  rw [Bool.and_eq_true, coordsOk_iff, coordsOk_iff, and_assoc]

theorem isId_eq_false_iff {q : Point} : isId q = false ↔ q ≠ identity := by
  rw [Ne, ← isId_iff, Bool.not_eq_true]

theorem point_eq_of_coords {q1 q2 : Point} (hx : q1.x = q2.x) (hy : q1.y = q2.y) : q1 = q2 := by
  cases q1
  cases q2
  exact congrArg₂ Point.mk hx hy

/-! ### Raw addition and raw doubling (spec/44_secp256k1.md R201, R202) -/

/-- The domain of `raw_add` (spec/44_secp256k1.md R201). -/
def RawAddDomain (p : Nat) (q1 q2 : Point) : Prop :=
  (q1.x < p ∧ q1.y < p ∧ q2.x < p ∧ q2.y < p) ∧ q1 ≠ identity ∧ q2 ≠ identity ∧ q1.x ≠ q2.x

/-- The domain of `raw_dbl` (spec/44_secp256k1.md R202). -/
def RawDblDomain (p : Nat) (q : Point) : Prop := (q.x < p ∧ q.y < p) ∧ q ≠ identity ∧ q.y ≠ 0

/-- Two checks in a row that raise one fault are one check of their conjunction. -/
theorem require_seq {α : Type} (c d : Bool) (f : FaultCause) (x : Except FaultCause α) :
    (require c f >>= fun _ => require d f >>= fun _ => x) = (require (c && d) f >>= fun _ => x) := by
  cases c
  · rfl
  · rfl

theorem require_pass {α : Type} {c : Bool} {f : FaultCause} {x : Except FaultCause α} (h : c = true) :
    (require c f >>= fun _ => x) = x := by rw [h]; rfl

theorem require_fail {α : Type} {c : Bool} {f : FaultCause} {x : Except FaultCause α} (h : ¬ c = true) :
    (require c f >>= fun _ => x) = .error f := by rw [(Bool.not_eq_true c).mp h]; rfl

/-- The checks of `raw_add` as one check. -/
theorem rawAdd_eq (q1 q2 : Point) (p : Nat) :
    rawAdd q1 q2 p = (require (coordsOk q1 p && coordsOk q2 p && (!isId q1 && !isId q2) && q1.x != q2.x) .precond >>=
      fun _ => .ok (chordPoint (addSlope q1 q2 p) q1 q2.x p)) := by
  rw [rawAdd, require_seq, require_seq]
  rfl

theorem rawAdd_checks_iff {q1 q2 : Point} {p : Nat} :
    (coordsOk q1 p && coordsOk q2 p && (!isId q1 && !isId q2) && q1.x != q2.x) = true ↔ RawAddDomain p q1 q2 := by
  rw [Bool.and_eq_true, Bool.and_eq_true, coordsOk_both_iff]
  simp [RawAddDomain, isId_eq_false_iff, and_assoc]

theorem rawAdd_of_domain {q1 q2 : Point} {p : Nat} (h : RawAddDomain p q1 q2) :
    rawAdd q1 q2 p = .ok (chordPoint (addSlope q1 q2 p) q1 q2.x p) := by
  rw [rawAdd_eq, require_pass (rawAdd_checks_iff.2 h)]

theorem rawAdd_of_not_domain {q1 q2 : Point} {p : Nat} (h : ¬ RawAddDomain p q1 q2) :
    rawAdd q1 q2 p = .error .precond := by
  rw [rawAdd_eq, require_fail (mt rawAdd_checks_iff.1 h)]

/-- The checks of `raw_dbl` as one check. -/
theorem rawDbl_eq (q : Point) (p : Nat) :
    rawDbl q p = (require (coordsOk q p && !isId q && q.y != 0) .precond >>=
      fun _ => .ok (chordPoint (dblSlope q p) q q.x p)) := by
  rw [rawDbl, require_seq, require_seq]
  rfl

theorem rawDbl_checks_iff {q : Point} {p : Nat} :
    (coordsOk q p && !isId q && q.y != 0) = true ↔ RawDblDomain p q := by
  rw [Bool.and_eq_true, Bool.and_eq_true, coordsOk_iff]
  simp [RawDblDomain, isId_eq_false_iff, and_assoc]

theorem rawDbl_of_domain {q : Point} {p : Nat} (h : RawDblDomain p q) :
    rawDbl q p = .ok (chordPoint (dblSlope q p) q q.x p) := by
  rw [rawDbl_eq, require_pass (rawDbl_checks_iff.2 h)]

theorem rawDbl_of_not_domain {q : Point} {p : Nat} (h : ¬ RawDblDomain p q) : rawDbl q p = .error .precond := by
  rw [rawDbl_eq, require_fail (mt rawDbl_checks_iff.1 h)]

section
variable {p : Nat} [Fact p.Prime]

/-- Two residues are different when their representatives are. -/
theorem cast_ne_of_ne {a c : Nat} (ha : a < p) (hc : c < p) (h : a ≠ c) : (a : ZMod p) ≠ c :=
  fun heq => h (eq_of_cast_eq ha hc heq)

/-- Inside its domain `raw_add` answers the point of the chord formulas. -/
theorem rawAdd_chordSum {q1 q2 : Point} (h : RawAddDomain p q1 q2) :
    ∃ r, rawAdd q1 q2 p = .ok r ∧ ChordSum p q1 q2 r := by
  have ⟨⟨hx1, _, hx2, _⟩, _, _, hne⟩ := h
  obtain ⟨hx, hy, hX, hY⟩ := chordPoint_spec (p := p) (addSlope q1 q2 p) q1 q2.x
  refine ⟨_, rawAdd_of_domain h, hx, hy, _, ?_, hX, hY⟩
  rw [addSlope_cast hx1 hx2 hne, inv_mul_cancel_right₀ (sub_ne_zero.2 (cast_ne_of_ne hx1 hx2 hne).symm)]

/-- Inside its domain `raw_dbl` answers the point of the tangent formulas. -/
theorem rawDbl_tangentSum {q : Point} (h3 : 3 < p) (h : RawDblDomain p q) :
    ∃ r, rawDbl q p = .ok r ∧ TangentSum p q r := by
  have ⟨⟨_, hylt⟩, _, hy0⟩ := h
  obtain ⟨hx, hy, hX, hY⟩ := chordPoint_spec (p := p) (dblSlope q p) q q.x
  have hden : (2 * q.y : ZMod p) ≠ 0 :=
    mul_ne_zero (two_ne_zero_of_lt h3) ((cast_zero_iff hylt).not.2 hy0)
  refine ⟨_, rawDbl_of_domain h, hx, hy, _, ?_, by rw [hX]; ring, hY⟩
  rw [dblSlope_cast h3 hylt hy0, inv_mul_cancel_right₀ hden]

end

/-! ### Complete addition, case by case (spec/44_secp256k1.md R205) -/

theorem cadd_unreduced {q1 q2 : Point} {p : Nat} (h : ¬ (q1.x < p ∧ q1.y < p ∧ q2.x < p ∧ q2.y < p)) :
    cadd q1 q2 p = .error .precond :=
  require_fail (mt coordsOk_both_iff.1 h)

/-- What complete addition comes to on reduced coordinates. -/
theorem cadd_reduced {q1 q2 : Point} {p : Nat} (h : q1.x < p ∧ q1.y < p ∧ q2.x < p ∧ q2.y < p) :
    cadd q1 q2 p =
      if q1 = identity then .ok q2
      else if q2 = identity then .ok q1
      else if q1.x = q2.x ∧ (q1.y + q2.y) % p = 0 then .ok identity
      else if q1.x = q2.x ∧ q1.y = q2.y then rawDbl q1 p
      else rawAdd q1 q2 p := by
  simp only [← isId_iff]
  exact require_pass (coordsOk_both_iff.2 h)

section
variable {p : Nat} {q1 q2 : Point} (h : q1.x < p ∧ q1.y < p ∧ q2.x < p ∧ q2.y < p)
include h

theorem cadd_identity_left (h1 : q1 = identity) : cadd q1 q2 p = .ok q2 := by
  rw [cadd_reduced h, if_pos h1]

theorem cadd_identity_right (h1 : q1 ≠ identity) (h2 : q2 = identity) : cadd q1 q2 p = .ok q1 := by
  rw [cadd_reduced h, if_neg h1, if_pos h2]

theorem cadd_opposite (h1 : q1 ≠ identity) (h2 : q2 ≠ identity) (hx : q1.x = q2.x) (hy : (q1.y + q2.y) % p = 0) :
    cadd q1 q2 p = .ok identity := by
  rw [cadd_reduced h, if_neg h1, if_neg h2, if_pos ⟨hx, hy⟩]

/-- Equal points that are not opposite are doubled, inside the domain of `raw_dbl`. -/
theorem cadd_double (h1 : q1 ≠ identity) (h2 : q2 ≠ identity) (hx : q1.x = q2.x) (hy : (q1.y + q2.y) % p ≠ 0)
    (heq : q1.y = q2.y) : cadd q1 q2 p = rawDbl q1 p ∧ RawDblDomain p q1 := by
  have ⟨hx1, hy1, _⟩ := h
  refine ⟨?_, ⟨⟨hx1, hy1⟩, h1, fun h0 => hy ?_⟩⟩
  · rw [cadd_reduced h, if_neg h1, if_neg h2, if_neg (fun hc => hy hc.2), if_pos ⟨hx, heq⟩]
  · rw [← heq, h0, add_zero, Nat.zero_mod]

/-- Equal abscissas with neither equal nor opposite ordinates, which no two points of a curve have. -/
theorem cadd_degenerate (h1 : q1 ≠ identity) (h2 : q2 ≠ identity) (hx : q1.x = q2.x) (hy : (q1.y + q2.y) % p ≠ 0)
    (hne : q1.y ≠ q2.y) : cadd q1 q2 p = .error .precond := by
  rw [cadd_reduced h, if_neg h1, if_neg h2, if_neg (fun hc => hy hc.2), if_neg (fun hc => hne hc.2)]
  exact rawAdd_of_not_domain fun ⟨_, _, _, hd⟩ => hd hx

/-- Different abscissas, the domain of `raw_add`. -/
theorem cadd_chord (h1 : q1 ≠ identity) (h2 : q2 ≠ identity) (hx : q1.x ≠ q2.x) :
    cadd q1 q2 p = rawAdd q1 q2 p ∧ RawAddDomain p q1 q2 := by
  refine ⟨?_, h, h1, h2, hx⟩
  rw [cadd_reduced h, if_neg h1, if_neg h2, if_neg (fun hc => hx hc.1), if_neg (fun hc => hx hc.1)]

end

/-! ### The operations in place (spec/44_secp256k1.md R203, R204, R206; spec/45_bn254_curve.md R231 to R233) -/

theorem pointOp2_eq (f : Point → Point → Except FaultCause Point) (s : State) :
    pointOp2 f s = (answer ((memoryFault s formatF8).or none) >>= fun _ =>
      f (pointAt s 0) (pointAt s 1) >>= fun r => .ok (.done [Store.point (ptr s 0) r] retZero)) := by
  rw [pointOp2, checkFormat_eq, Option.or_none]
  rfl

theorem pointOp1_eq (f : Point → Except FaultCause Point) (s : State) :
    pointOp1 f s = (answer ((memoryFault s formatF9).or none) >>= fun _ =>
      f (rdPt s.mem s.arg.toNat) >>= fun r => .ok (.done [Store.point s.arg.toNat r] retZero)) := by
  rw [pointOp1, checkFormat_eq, Option.or_none]
  rfl

/-- An operation whose body checks memory, then writes the point `x` answers or raises the fault it raises. -/
theorem point_outcome {i : Instr} {s : State} {f : Format} {x : Except FaultCause Point} {a : Nat}
    (hs : s.status = statusIdle)
    (hb : bodyOf i (issued i s) = (answer ((memoryFault s f).or none) >>= fun _ =>
      x >>= fun r => .ok (.done [Store.point a r] retZero))) :
    MemoryFaultsFirst i s (memoryFault s f) ∧
    (memoryFault s f = none →
      (∀ r, x = .ok r → EndsWith i s 0 [] [Store.point a r] retZero) ∧
      (∀ c, x = .error c → FaultsWith i s 0 [] c)) := by
  obtain ⟨hmem, hrest⟩ := checked_body hs hb
  refine ⟨hmem, fun hm => ?_⟩
  obtain ⟨-, hplan⟩ := hrest hm
  refine ⟨fun r hr => endsWith_of_done hs ?_, fun c hc => faultsWith_of_body hs ?_⟩
  · rw [hplan rfl, hr, ok_bind]
  · rw [hplan rfl, hc, error_bind]

theorem pointOp2_outcome {i : Instr} {f : Point → Point → Except FaultCause Point} {s : State}
    (hb : bodyOf i = pointOp2 f) (hs : s.status = statusIdle) :
    MemoryFaultsFirst i s (memoryFault s formatF8) ∧
    (memoryFault s formatF8 = none →
      (∀ r, f (pointAt s 0) (pointAt s 1) = .ok r → EndsWith i s 0 [] [Store.point (ptr s 0) r] retZero) ∧
      (∀ c, f (pointAt s 0) (pointAt s 1) = .error c → FaultsWith i s 0 [] c)) := by
  have hbody : bodyOf i (issued i s) = _ := (congrFun hb _).trans (pointOp2_eq f _)
  simp only [memoryFault_withOp, pointAt_withOp, ptr_withOp] at hbody
  exact point_outcome hs hbody

theorem pointOp1_outcome {i : Instr} {f : Point → Except FaultCause Point} {s : State}
    (hb : bodyOf i = pointOp1 f) (hs : s.status = statusIdle) :
    MemoryFaultsFirst i s (memoryFault s formatF9) ∧
    (memoryFault s formatF9 = none →
      (∀ r, f (rdPt s.mem s.arg.toNat) = .ok r → EndsWith i s 0 [] [Store.point s.arg.toNat r] retZero) ∧
      (∀ c, f (rdPt s.mem s.arg.toNat) = .error c → FaultsWith i s 0 [] c)) := by
  have hbody : bodyOf i (issued i s) = _ := (congrFun hb _).trans (pointOp1_eq f _)
  simp only [memoryFault_withOp] at hbody
  exact point_outcome hs hbody

/-- One operation over each of the two base fields: both moduli are primes above 3. -/
theorem prime_of_base_field {i i1 i2 : Instr} {p : Nat} (h : (i, p) ∈ [(i1, secpP), (i2, bnP)]) :
    Fact p.Prime ∧ 3 < p := by
  simp only [List.mem_cons, Prod.mk.injEq, List.not_mem_nil, or_false] at h
  obtain ⟨-, rfl⟩ | ⟨-, rfl⟩ := h
  · exact ⟨⟨secpP_prime⟩, by decide⟩
  · exact ⟨⟨bnP_prime⟩, by decide⟩

/-- Two operations that run one body, each over its base field. -/
theorem bodyOf_base_field {i i1 i2 : Instr} {p : Nat} {body : Nat → State → Except FaultCause Plan}
    (h : (i, p) ∈ [(i1, secpP), (i2, bnP)]) (h1 : bodyOf i1 = body secpP) (h2 : bodyOf i2 = body bnP) :
    bodyOf i = body p := by
  simp only [List.mem_cons, Prod.mk.injEq, List.not_mem_nil, or_false] at h
  obtain ⟨rfl, rfl⟩ | ⟨rfl, rfl⟩ := h
  · exact h1
  · exact h2

/-- Settles O38: the memory checks, then the domain of `raw_add`, then its chord point. -/
theorem rawAddOutcome : Obligations.RawAddOutcome := by
  unfold Obligations.RawAddOutcome
  intro i p hi s hs
  obtain ⟨_, -⟩ := prime_of_base_field hi
  obtain ⟨hmem, hrest⟩ := pointOp2_outcome
    (bodyOf_base_field (body := fun p => pointOp2 fun q1 q2 => rawAdd q1 q2 p) hi rfl rfl) hs
  refine ⟨hmem, fun hm => ?_⟩
  obtain ⟨hend, hfault⟩ := hrest hm
  refine ⟨fun hd => ?_, fun hd => hfault _ (rawAdd_of_not_domain hd)⟩
  obtain ⟨r, hr, hsum⟩ := rawAdd_chordSum hd
  exact ⟨r, hsum, hend r hr⟩

/-- Settles O39: the memory checks, then the domain of `raw_dbl`, then its tangent point. -/
theorem rawDblOutcome : Obligations.RawDblOutcome := by
  unfold Obligations.RawDblOutcome
  intro i p hi s hs
  obtain ⟨_, h3⟩ := prime_of_base_field hi
  obtain ⟨hmem, hrest⟩ := pointOp1_outcome
    (bodyOf_base_field (body := fun p => pointOp1 fun q => rawDbl q p) hi rfl rfl) hs
  refine ⟨hmem, fun hm => ?_⟩
  obtain ⟨hend, hfault⟩ := hrest hm
  refine ⟨fun hd => ?_, fun hd => hfault _ (rawDbl_of_not_domain hd)⟩
  obtain ⟨r, hr, hsum⟩ := rawDbl_tangentSum h3 hd
  exact ⟨r, hsum, hend r hr⟩

/-- Settles O40: the memory checks, then the cases of complete addition in order. -/
theorem completeAddOutcome : Obligations.CompleteAddOutcome := by
  unfold Obligations.CompleteAddOutcome
  intro i p hi s hs
  obtain ⟨_, h3⟩ := prime_of_base_field hi
  obtain ⟨hmem, hrest⟩ := pointOp2_outcome
    (bodyOf_base_field (body := fun p => pointOp2 fun q1 q2 => cadd q1 q2 p) hi rfl rfl) hs
  refine ⟨hmem, fun hm => ?_⟩
  obtain ⟨hend, hfault⟩ := hrest hm
  refine ⟨fun hr => hfault _ (cadd_unreduced hr), fun hr h1 => hend _ (cadd_identity_left hr h1),
    fun hr h1 h2 => hend _ (cadd_identity_right hr h1 h2), fun hr h1 h2 =>
    ⟨fun hx hy => hend _ (cadd_opposite hr h1 h2 hx hy), fun hx hy heq => ?_,
      fun hx hy hne => hfault _ (cadd_degenerate hr h1 h2 hx hy hne), fun hx => ?_⟩⟩
  · obtain ⟨hdbl, hd⟩ := cadd_double hr h1 h2 hx hy heq
    obtain ⟨r, hok, hsum⟩ := rawDbl_tangentSum h3 hd
    exact ⟨r, hsum, hend r (hdbl.trans hok)⟩
  · obtain ⟨hadd, hd⟩ := cadd_chord hr h1 h2 hx
    obtain ⟨r, hok, hsum⟩ := rawAdd_chordSum hd
    exact ⟨r, hsum, hend r (hadd.trans hok)⟩

/-! ### The group of the curve (spec/44_secp256k1.md R200, R205, R211) -/

section
variable {p b : Nat}

theorem shortCurve_negY (x y : ZMod p) : (shortCurve p b).negY x y = -y := by
  simp [Affine.negY, shortCurve]

theorem shortCurve_addX (x1 x2 l : ZMod p) : (shortCurve p b).addX x1 x2 l = l ^ 2 - x1 - x2 := by
  simp [Affine.addX, shortCurve]

theorem shortCurve_addY (x1 x2 y1 l : ZMod p) :
    (shortCurve p b).addY x1 x2 y1 l = l * (x1 - (l ^ 2 - x1 - x2)) - y1 := by
  rw [Affine.addY, shortCurve_negY, Affine.negAddY, shortCurve_addX]
  ring

theorem represents_zero_iff {q : Point} : Represents q (0 : (shortCurve p b).Point) ↔ q = identity := Iff.rfl

variable [Fact p.Prime]

theorem represents_reduced {q : Point} {g : (shortCurve p b).Point} (h : Represents q g) : q.x < p ∧ q.y < p := by
  obtain ⟨rfl, -⟩ | ⟨-, hx, hy, -⟩ := represents_cases h
  · exact ⟨prime_pos, prime_pos⟩
  · exact ⟨hx, hy⟩

/-- A chord point stands for the sum of two points with different abscissas. -/
theorem represents_of_chordSum {q1 q2 r : Point} (h : ChordSum p q1 q2 r)
    (hx : (q1.x : ZMod p) ≠ q2.x) (hn1 : (shortCurve p b).Nonsingular q1.x q1.y)
    (hn2 : (shortCurve p b).Nonsingular q2.x q2.y) :
    Represents r (Affine.Point.some _ _ hn1 + Affine.Point.some _ _ hn2) := by
  obtain ⟨hrx, hry, lam, hlam, hX, hY⟩ := h
  have hslope : (shortCurve p b).slope q1.x q2.x q1.y q2.y = lam := by
    rw [Affine.slope_of_X_ne hx, div_eq_iff (sub_ne_zero.2 hx)]
    linear_combination hlam
  rw [Affine.Point.add_of_X_ne hx]
  refine ⟨hrx, hry, ?_, ?_⟩
  · rw [hslope, shortCurve_addX, hX]
  · rw [hslope, shortCurve_addY, hY, hX]

/-- A tangent point stands for the double of a point with an ordinate that is not 0. -/
theorem represents_of_tangentSum {q r : Point} (h : TangentSum p q r) (hy : (2 * q.y : ZMod p) ≠ 0)
    (hn1 hn2 : (shortCurve p b).Nonsingular q.x q.y) :
    Represents r (Affine.Point.some _ _ hn1 + Affine.Point.some _ _ hn2) := by
  obtain ⟨hrx, hry, lam, hlam, hX, hY⟩ := h
  have hdiff : (q.y : ZMod p) - (shortCurve p b).negY q.x q.y = 2 * q.y := by rw [shortCurve_negY]; ring
  have hne : (q.y : ZMod p) ≠ (shortCurve p b).negY q.x q.y := sub_ne_zero.1 (hdiff ▸ hy)
  have hslope : (shortCurve p b).slope q.x q.x q.y q.y = lam := by
    rw [Affine.slope_of_Y_ne rfl hne, hdiff, div_eq_iff hy, hlam]
    simp [shortCurve]
  rw [Affine.Point.add_self_of_Y_ne hne]
  refine ⟨hrx, hry, ?_, ?_⟩
  · rw [hslope, shortCurve_addX, hX]; ring
  · rw [hslope, shortCurve_addY, hY, hX]; ring

/-- Opposite points sum to the identity. -/
theorem add_some_of_opposite {x1 x2 y1 y2 : ZMod p} (hx : x1 = x2) (hy : y1 + y2 = 0)
    (hn1 : (shortCurve p b).Nonsingular x1 y1) (hn2 : (shortCurve p b).Nonsingular x2 y2) :
    Affine.Point.some _ _ hn1 + Affine.Point.some _ _ hn2 = 0 :=
  Affine.Point.add_of_Y_eq hx (by rw [shortCurve_negY]; exact eq_neg_of_add_eq_zero_left hy)

/-- Two points of the curve with equal abscissas have equal or opposite ordinates. -/
theorem ordinates_of_equal_abscissas {x y1 y2 : ZMod p} (h1 : y1 ^ 2 = x ^ 3 + b) (h2 : y2 ^ 2 = x ^ 3 + b) :
    y1 = y2 ∨ y1 + y2 = 0 := by
  have h : (y1 - y2) * (y1 + y2) = 0 := by linear_combination h1 - h2
  exact (mul_eq_zero.1 h).imp sub_eq_zero.1 id

theorem cast_add_eq_zero_iff (a c : Nat) : ((a : ZMod p) + c = 0) ↔ (a + c) % p = 0 := by
  rw [← Nat.cast_add, ZMod.natCast_eq_zero_iff, Nat.dvd_iff_mod_eq_zero]

/-- A pair is valid exactly when it stands for a point of the curve (spec/44_secp256k1.md R200). -/
theorem validPoint_iff_represents (h3 : 3 < p) (hb : b % p ≠ 0) (q : Point) :
    validPoint q p b = true ↔ ∃ g : (shortCurve p b).Point, Represents q g := by
  rw [validPoint, Bool.and_eq_true, Bool.or_eq_true, coordsOk_iff, isId_iff, onCurve_iff, ← nonsingular_iff h3 hb]
  constructor
  · rintro ⟨⟨hx, hy⟩, hid | hn⟩
    · exact ⟨0, hid⟩
    · exact ⟨.some _ _ hn, hx, hy, rfl, rfl⟩
  · rintro ⟨g, hg⟩
    obtain ⟨hid, -⟩ | ⟨hn, -⟩ := represents_cases hg
    · exact ⟨represents_reduced hg, .inl hid⟩
    · exact ⟨represents_reduced hg, .inr hn⟩

theorem not_identity_of_nonsingular (h3 : 3 < p) (hb : b % p ≠ 0) {q : Point}
    (hn : (shortCurve p b).Nonsingular q.x q.y) : q ≠ identity :=
  isId_eq_false_iff.1 (not_isId_of_equation hb ((nonsingular_iff h3 hb _ _).1 hn))

/-- Complete addition of two pairs that are not the identity, on the curve. -/
theorem cadd_represents_some (h3 : 3 < p) (hb : b % p ≠ 0) {q1 q2 : Point}
    (h : q1.x < p ∧ q1.y < p ∧ q2.x < p ∧ q2.y < p)
    (hn1 : (shortCurve p b).Nonsingular q1.x q1.y) (hn2 : (shortCurve p b).Nonsingular q2.x q2.y) :
    ∃ r, cadd q1 q2 p = .ok r ∧ Represents r (Affine.Point.some _ _ hn1 + Affine.Point.some _ _ hn2) := by
  have he1 := (nonsingular_iff h3 hb _ _).1 hn1
  have he2 := (nonsingular_iff h3 hb _ _).1 hn2
  have h1 := not_identity_of_nonsingular h3 hb hn1
  have h2 := not_identity_of_nonsingular h3 hb hn2
  have ⟨hx1, hy1, hx2, hy2⟩ := h
  by_cases hx : q1.x = q2.x
  · by_cases hy : (q1.y + q2.y) % p = 0
    · refine ⟨identity, cadd_opposite h h1 h2 hx hy, ?_⟩
      rw [add_some_of_opposite (by rw [hx]) ((cast_add_eq_zero_iff _ _).2 hy)]
      exact represents_zero_iff.2 rfl
    · have hcast : (q1.y : ZMod p) + q2.y ≠ 0 := mt (cast_add_eq_zero_iff _ _).1 hy
      have heq : q1.y = q2.y := by
        rw [← hx] at he2
        exact eq_of_cast_eq hy1 hy2 ((ordinates_of_equal_abscissas he1 he2).resolve_right hcast)
      obtain rfl := point_eq_of_coords hx heq
      obtain ⟨hdbl, hd⟩ := cadd_double h h1 h2 rfl hy rfl
      obtain ⟨r, hr, hsum⟩ := rawDbl_tangentSum h3 hd
      exact ⟨r, hdbl.trans hr, represents_of_tangentSum hsum (by rwa [two_mul]) _ _⟩
  · obtain ⟨hadd, hd⟩ := cadd_chord h h1 h2 hx
    obtain ⟨r, hr, hsum⟩ := rawAdd_chordSum hd
    exact ⟨r, hadd.trans hr, represents_of_chordSum hsum (cast_ne_of_ne hx1 hx2 hx) _ _⟩

/-- Complete addition is the addition of the group (spec/44_secp256k1.md R205, R211). -/
theorem cadd_represents (h3 : 3 < p) (hb : b % p ≠ 0) {q1 q2 : Point} {g1 g2 : (shortCurve p b).Point}
    (hg1 : Represents q1 g1) (hg2 : Represents q2 g2) :
    ∃ r, cadd q1 q2 p = .ok r ∧ Represents r (g1 + g2) := by
  obtain ⟨hx1, hy1⟩ := represents_reduced hg1
  have h : q1.x < p ∧ q1.y < p ∧ q2.x < p ∧ q2.y < p := ⟨hx1, hy1, represents_reduced hg2⟩
  obtain ⟨hid1, rfl⟩ | ⟨hn1, -, -, rfl⟩ := represents_cases hg1
  · exact ⟨q2, cadd_identity_left h hid1, by rwa [zero_add]⟩
  obtain ⟨hid2, rfl⟩ | ⟨hn2, -, -, rfl⟩ := represents_cases hg2
  · exact ⟨q1, cadd_identity_right h (not_identity_of_nonsingular h3 hb hn1) hid2, by rwa [add_zero]⟩
  · exact cadd_represents_some h3 hb h hn1 hn2

end

/-- Settles O41: valid pairs are those on the curve, and `cadd` follows the cases of the group law. -/
theorem completeAddIsGroupSum : Obligations.CompleteAddIsGroupSum := by
  unfold Obligations.CompleteAddIsGroupSum
  exact fun p b _ h3 hb => ⟨validPoint_iff_represents h3 hb, fun _ _ _ _ => cadd_represents h3 hb⟩

end Sys2Proof.Machine
end

section
/-! PROOF. Scalar multiplication (spec/44_secp256k1.md R207 to R210): the hint words that pass, the multiples the loops
compute in the group of the curve, and the outcomes of SECP256K1_MUL and SECP256K1_DMUL_G. -/

namespace Sys2Proof.Machine

/-! ### The position of the most significant 1 bit (spec/44_secp256k1.md R207, spec/10_state.md R39) -/

/-- The bit `h` of a scalar with nothing above it. -/
theorem bit_eq_one_iff_le {k h : Nat} (hk : k < 2 ^ (h + 1)) : bit k h = 1 ↔ 2 ^ h ≤ k := by
  have hquot : k / 2 ^ h < 2 := Nat.div_lt_of_lt_mul (by rwa [← pow_succ])
  rw [bit, Nat.shiftRight_eq_div_pow, Nat.mod_eq_of_lt hquot, ← Nat.one_le_div_iff (by positivity)]
  omega

/-- A number between two powers of 2 in a row has its most significant 1 bit there. -/
theorem log2_position_iff {v h : Nat} : (2 ^ h ≤ v ∧ v < 2 ^ (h + 1)) ↔ 0 < v ∧ h = Nat.log2 v := by
  rcases Nat.eq_zero_or_pos v with rfl | hpos
  · simp
  · rw [← Nat.log2_eq_iff hpos.ne', eq_comm]
    exact (and_iff_right hpos).symm

/-- The low bits of a number, one more of them. -/
theorem mod_two_pow_succ_eq (k h : Nat) : k % 2 ^ (h + 1) = 2 ^ h * bit k h + k % 2 ^ h := by
  rw [Nat.mod_pow_succ, bit, Nat.shiftRight_eq_div_pow, add_comm]

/-- A number has no bits from position `n` on exactly when its low `n` bits are the number. -/
theorem mod_two_pow_eq_self_iff {k n : Nat} : k % 2 ^ n = k ↔ k < 2 ^ n :=
  Nat.mod_eq_iff_lt (Nat.two_pow_pos n).ne'

/-- The true position is one inside a U256 with the most significant 1 bit of the number. -/
theorem hintExact_iff {v li bi : Nat} :
    0 < v ∧ hintExact v li bi ↔
      hintInRange li bi = true ∧ 2 ^ (64 * li + bi) ≤ v ∧ v < 2 ^ (64 * li + bi + 1) := by
  rw [log2_position_iff, hintInRange, Bool.and_eq_true, decide_eq_true_eq, decide_eq_true_eq, hintExact]
  tauto

/-! ### `smul` and its hint (spec/44_secp256k1.md R207) -/

/-- What one turn of the loop of `smul` makes of the doubled point. -/
def addIfBit (bt : Nat) (q dbl : Point) (p : Nat) : Except FaultCause Point :=
  if bt = 1 then cadd dbl q p else .ok dbl

/-- One turn of the loop of `smul`. -/
theorem smulLoop_succ (k : Nat) (q : Point) (p i : Nat) (acc : Point) (rec : Nat) :
    smulLoop k q p (i + 1) acc rec =
      (cdbl acc p >>= fun dbl => addIfBit (bit k i) q dbl p >>= fun sum =>
        smulLoop k q p i sum (2 * rec + bit k i)) := by
  simp only [smulLoop, addIfBit]
  split_ifs
  · rfl
  · rfl

/-- The tests of the hint words in `smul`: the position is inside a U256, its bit is 1, and the accumulator `rec` has
rebuilt the scalar. -/
def smulHintOk (k li bi rec : Nat) : Bool := hintInRange li bi && bit k (64 * li + bi) == 1 && rec == k

/-- The tests pass exactly for the true position. -/
theorem smulHintOk_iff {k li bi : Nat} :
    smulHintOk k li bi (2 ^ (64 * li + bi) * 1 + k % 2 ^ (64 * li + bi)) = true ↔ 0 < k ∧ hintExact k li bi := by
  rw [hintExact_iff, smulHintOk, Bool.and_eq_true, Bool.and_eq_true, beq_iff_eq, beq_iff_eq, and_assoc]
  refine and_congr_right fun _ => ?_
  generalize 64 * li + bi = h
  constructor
  · rintro ⟨hbit, hrec⟩
    have hlt : k < 2 ^ (h + 1) := mod_two_pow_eq_self_iff.1 (by rw [mod_two_pow_succ_eq, hbit, hrec])
    exact ⟨(bit_eq_one_iff_le hlt).1 hbit, hlt⟩
  · rintro ⟨hle, hlt⟩
    have hbit := (bit_eq_one_iff_le hlt).2 hle
    exact ⟨hbit, by rw [← hbit, ← mod_two_pow_succ_eq, Nat.mod_eq_of_lt hlt]⟩

/-- When its loop ends, `smul` answers the loop's point or rejects the hint words. -/
theorem smul_of_loop {k p li bi : Nat} {q : Point} {res : Point × Nat}
    (h : smulLoop k q p (64 * li + bi) q 1 = .ok res) :
    smul k q p li bi = (require (smulHintOk k li bi res.2) .hintVerify >>= fun _ => .ok res.1) := by
  rw [smulHintOk, Bool.and_assoc, ← require_seq, ← require_seq]
  simp only [smul, h]
  rfl

section
variable {k p li bi : Nat} {q : Point} {res : Point × Nat}
  (h : smulLoop k q p (64 * li + bi) q 1 = .ok res)
include h

theorem smulHintOk_of_loop : smulHintOk k li bi res.2 = true ↔ 0 < k ∧ hintExact k li bi := by
  rw [smulLoop_rec _ _ _ _ _ _ _ h, smulHintOk_iff]

theorem smul_of_hintExact (h0 : 0 < k) (hx : hintExact k li bi) : smul k q p li bi = .ok res.1 ∧ res.2 = k := by
  have hok : smulHintOk k li bi res.2 = true := (smulHintOk_of_loop h).2 ⟨h0, hx⟩
  refine ⟨by rw [smul_of_loop h, require_pass hok], ?_⟩
  rw [smulHintOk, Bool.and_eq_true, beq_iff_eq] at hok
  exact hok.2

theorem smul_of_not_hintExact (hx : ¬ (0 < k ∧ hintExact k li bi)) : smul k q p li bi = .error .hintVerify := by
  rw [smul_of_loop h, require_fail (mt (smulHintOk_of_loop h).1 hx)]

end

/-- `smul` answers only at the end of its loop. -/
theorem smulLoop_of_smul_ok {k p li bi : Nat} {q r : Point} (h : smul k q p li bi = .ok r) :
    ∃ res, smulLoop k q p (64 * li + bi) q 1 = .ok res := by
  simp only [smul, bind_ok_iff] at h
  obtain ⟨_, -, _, -, res, hres, -⟩ := h
  exact ⟨res, hres⟩

theorem hintExact_of_smul_ok {k p li bi : Nat} {q r : Point} (h : smul k q p li bi = .ok r) : hintExact k li bi := by
  obtain ⟨res, hres⟩ := smulLoop_of_smul_ok h
  by_contra hx
  rw [smul_of_not_hintExact hres (mt And.right hx)] at h
  cases h

/-! ### `dsmul` and its hint (spec/44_secp256k1.md R209) -/

/-- What one turn of the loop of `dsmul` makes of the doubled point. -/
def dsmulAdd (b1 b2 : Nat) (q g gq dbl : Point) (p : Nat) : Except FaultCause Point :=
  if b1 = 1 ∧ b2 = 1 then cadd dbl gq p
  else if b1 = 1 then cadd dbl g p
  else if b2 = 1 then cadd dbl q p
  else .ok dbl

/-- One turn of the loop of `dsmul`. -/
theorem dsmulLoop_succ (k1 k2 : Nat) (q g gq : Point) (p i : Nat) (acc : DsmulAcc) :
    dsmulLoop k1 k2 q g gq p (i + 1) acc =
      (cdbl acc.point p >>= fun dbl => dsmulAdd (bit k1 i) (bit k2 i) q g gq dbl p >>= fun sum =>
        dsmulLoop k1 k2 q g gq p i ⟨sum, 2 * acc.r1 + bit k1 i, 2 * acc.r2 + bit k2 i⟩) := by
  simp only [dsmulLoop, dsmulAdd]
  split_ifs
  · rfl
  · rfl
  · rfl
  · rfl

/-- One more bit at the end of a rebuilt number. -/
theorem append_bit (k r i : Nat) : 2 ^ i * (2 * r + bit k i) + k % 2 ^ i = 2 ^ (i + 1) * r + k % 2 ^ (i + 1) := by
  rw [mod_two_pow_succ_eq, pow_succ]
  ring

/-- What the reconstruction accumulators of `dsmul` end as. -/
theorem dsmulLoop_rec (k1 k2 : Nat) (q g gq : Point) (p i : Nat) (acc res : DsmulAcc)
    (h : dsmulLoop k1 k2 q g gq p i acc = .ok res) :
    res.r1 = 2 ^ i * acc.r1 + k1 % 2 ^ i ∧ res.r2 = 2 ^ i * acc.r2 + k2 % 2 ^ i := by
  induction i generalizing acc with
  | zero => cases h; simp [Nat.mod_one]
  | succ i ih =>
    simp only [dsmulLoop_succ, bind_ok_iff] at h
    obtain ⟨dbl, -, sum, -, h⟩ := h
    rw [← append_bit, ← append_bit]
    exact ih _ h

/-- The tests of the hint words in `dsmul`: the position is inside a U256, one of the bits there is 1, and the
accumulators have rebuilt the scalars. -/
def dsmulHintOk (k1 k2 li bi r1 r2 : Nat) : Bool :=
  hintInRange li bi && (bit k1 (64 * li + bi) == 1 || bit k2 (64 * li + bi) == 1) && (r1 == k1 && r2 == k2)

/-- The tests pass exactly for the true position of the larger scalar. -/
theorem dsmulHintOk_iff {k1 k2 li bi : Nat} :
    dsmulHintOk k1 k2 li bi (k1 % 2 ^ (64 * li + bi + 1)) (k2 % 2 ^ (64 * li + bi + 1)) = true ↔
      0 < max k1 k2 ∧ hintExact (max k1 k2) li bi := by
  simp only [hintExact_iff, dsmulHintOk, Bool.and_eq_true, Bool.or_eq_true, beq_iff_eq, and_assoc]
  refine and_congr_right fun _ => ?_
  rw [mod_two_pow_eq_self_iff, mod_two_pow_eq_self_iff, le_max_iff, max_lt_iff]
  refine and_congr_left fun ⟨hlt1, hlt2⟩ => ?_
  rw [bit_eq_one_iff_le hlt1, bit_eq_one_iff_le hlt2]

/-- When its table entry `gq` exists and its loop ends, `dsmul` answers the loop's point or rejects the hint words. -/
theorem dsmul_of_loop {k1 k2 p li bi : Nat} {q g gq : Point} {res : DsmulAcc} (hgq : cadd g q p = .ok gq)
    (h : dsmulLoop k1 k2 q g gq p (64 * li + bi + 1) ⟨identity, 0, 0⟩ = .ok res) :
    dsmul k1 k2 q g p li bi =
      (require (dsmulHintOk k1 k2 li bi res.r1 res.r2) .hintVerify >>= fun _ => .ok res.point) := by
  rw [dsmulHintOk, Bool.and_assoc, ← require_seq, ← require_seq]
  simp only [dsmul, hgq, ok_bind, h]
  rfl

section
variable {k1 k2 p li bi : Nat} {q g gq : Point} {res : DsmulAcc} (hgq : cadd g q p = .ok gq)
  (h : dsmulLoop k1 k2 q g gq p (64 * li + bi + 1) ⟨identity, 0, 0⟩ = .ok res)
include h

theorem dsmulHintOk_of_loop :
    dsmulHintOk k1 k2 li bi res.r1 res.r2 = true ↔ 0 < max k1 k2 ∧ hintExact (max k1 k2) li bi := by
  obtain ⟨h1, h2⟩ := dsmulLoop_rec _ _ _ _ _ _ _ _ _ h
  rw [h1, h2, mul_zero, zero_add, zero_add, dsmulHintOk_iff]

include hgq

theorem dsmul_of_hintExact (h0 : 0 < max k1 k2) (hx : hintExact (max k1 k2) li bi) :
    dsmul k1 k2 q g p li bi = .ok res.point ∧ res.r1 = k1 ∧ res.r2 = k2 := by
  have hok : dsmulHintOk k1 k2 li bi res.r1 res.r2 = true := (dsmulHintOk_of_loop h).2 ⟨h0, hx⟩
  refine ⟨by rw [dsmul_of_loop hgq h, require_pass hok], ?_⟩
  rw [dsmulHintOk, Bool.and_eq_true, Bool.and_eq_true (_ == _), beq_iff_eq, beq_iff_eq] at hok
  exact hok.2

theorem dsmul_of_not_hintExact (hx : ¬ (0 < max k1 k2 ∧ hintExact (max k1 k2) li bi)) :
    dsmul k1 k2 q g p li bi = .error .hintVerify := by
  rw [dsmul_of_loop hgq h, require_fail (mt (dsmulHintOk_of_loop h).1 hx)]

end

/-- `dsmul` answers only with its table entry and at the end of its loop. -/
theorem dsmulLoop_of_dsmul_ok {k1 k2 p li bi : Nat} {q g r : Point} (h : dsmul k1 k2 q g p li bi = .ok r) :
    ∃ gq res, cadd g q p = .ok gq ∧
      dsmulLoop k1 k2 q g gq p (64 * li + bi + 1) ⟨identity, 0, 0⟩ = .ok res := by
  simp only [dsmul, bind_ok_iff] at h
  obtain ⟨gq, hgq, _, -, _, -, res, hres, -⟩ := h
  exact ⟨gq, res, hgq, hres⟩

theorem hintExact_of_dsmul_ok {k1 k2 p li bi : Nat} {q g r : Point} (h : dsmul k1 k2 q g p li bi = .ok r) :
    hintExact (max k1 k2) li bi := by
  obtain ⟨gq, res, hgq, hres⟩ := dsmulLoop_of_dsmul_ok h
  by_contra hx
  rw [dsmul_of_not_hintExact hgq hres (mt And.right hx)] at h
  cases h

/-- Settles O44: the accumulators are the low bits of the scalars whatever the points, so the tests pass only for the
true position. -/
theorem scalarHintMustBeExact : Obligations.ScalarHintMustBeExact := by
  unfold Obligations.ScalarHintMustBeExact
  exact ⟨fun _ _ _ _ _ _ => hintExact_of_smul_ok, fun _ _ _ _ _ _ _ _ => hintExact_of_dsmul_ok⟩

/-! ### The multiples the loops compute (spec/44_secp256k1.md R207, R209, R211) -/

section
variable {p b : Nat} [Fact p.Prime] (h3 : 3 < p) (hb : b % p ≠ 0)
include h3 hb

theorem cdbl_represents {q : Point} {g : (shortCurve p b).Point} (hg : Represents q g) :
    ∃ r, cdbl q p = .ok r ∧ Represents r (2 • g) := by
  rw [two_nsmul]
  exact cadd_represents h3 hb hg hg

/-- A turn that adds a point for a bit 1 stands for the sum with its multiple by the bit. -/
theorem addIfBit_represents {bt : Nat} (hbt : bt < 2) {d q : Point} {D g : (shortCurve p b).Point}
    (hd : Represents d D) (hg : Represents q g) :
    ∃ r, addIfBit bt q d p = .ok r ∧ Represents r (D + bt • g) := by
  obtain rfl | rfl : bt = 0 ∨ bt = 1 := by omega
  · exact ⟨d, rfl, by rwa [zero_nsmul, add_zero]⟩
  · rw [one_nsmul]
    exact cadd_represents h3 hb hd hg

/-- The loop of `smul` keeps a point that stands for the multiple its accumulator counts. -/
theorem smulLoop_represents (k i : Nat) {q acc : Point} {rec : Nat} {g : (shortCurve p b).Point} (hg : Represents q g)
    (hacc : Represents acc (rec • g)) :
    ∃ res, smulLoop k q p i acc rec = .ok res ∧ Represents res.1 (res.2 • g) := by
  induction i generalizing acc rec with
  | zero => exact ⟨(acc, rec), rfl, hacc⟩
  | succ i ih =>
    obtain ⟨dbl, hdbl, hD⟩ := cdbl_represents h3 hb hacc
    obtain ⟨sum, hsum, hS⟩ := addIfBit_represents h3 hb (bit_lt_two k i) hD hg
    rw [smul_smul, ← add_nsmul] at hS
    rw [smulLoop_succ, hdbl, ok_bind, hsum, ok_bind]
    exact ih hS

/-- On the curve the loop of `smul` always ends, wherever it starts. -/
theorem smulLoop_of_represents (k i : Nat) {q : Point} {g : (shortCurve p b).Point} (hg : Represents q g) :
    ∃ res, smulLoop k q p i q 1 = .ok res ∧ Represents res.1 (res.2 • g) :=
  smulLoop_represents h3 hb k i hg (by rwa [one_nsmul])

/-- One turn of the loop of `dsmul`: the points whose bits are 1 are added. -/
theorem dsmulAdd_represents {b1 b2 : Nat} (hb1 : b1 < 2) (hb2 : b2 < 2) {q qg gq d : Point}
    {g gg D : (shortCurve p b).Point} (hg : Represents q g) (hgg : Represents qg gg) (hgq : Represents gq (gg + g))
    (hd : Represents d D) :
    ∃ r, dsmulAdd b1 b2 q qg gq d p = .ok r ∧ Represents r (D + (b1 • gg + b2 • g)) := by
  obtain rfl | rfl : b1 = 0 ∨ b1 = 1 := by omega
  · obtain ⟨r, hr, hR⟩ := addIfBit_represents h3 hb hb2 hd hg
    exact ⟨r, hr, by rwa [zero_nsmul, zero_add]⟩
  obtain rfl | rfl : b2 = 0 ∨ b2 = 1 := by omega
  · rw [one_nsmul, zero_nsmul, add_zero]
    exact cadd_represents h3 hb hd hgg
  · rw [one_nsmul, one_nsmul]
    exact cadd_represents h3 hb hd hgq

/-- The loop of `dsmul` keeps a point that stands for the sum of the multiples its accumulators count. -/
theorem dsmulLoop_represents (k1 k2 i : Nat) {q qg gq : Point} {acc : DsmulAcc} {g gg : (shortCurve p b).Point}
    (hg : Represents q g) (hgg : Represents qg gg) (hgq : Represents gq (gg + g))
    (hacc : Represents acc.point (acc.r1 • gg + acc.r2 • g)) :
    ∃ res, dsmulLoop k1 k2 q qg gq p i acc = .ok res ∧ Represents res.point (res.r1 • gg + res.r2 • g) := by
  induction i generalizing acc with
  | zero => exact ⟨acc, rfl, hacc⟩
  | succ i ih =>
    obtain ⟨dbl, hdbl, hD⟩ := cdbl_represents h3 hb hacc
    obtain ⟨sum, hsum, hS⟩ := dsmulAdd_represents h3 hb (bit_lt_two k1 i) (bit_lt_two k2 i) hg hgg hgq hD
    rw [nsmul_add, smul_smul, smul_smul, add_add_add_comm, ← add_nsmul, ← add_nsmul] at hS
    rw [dsmulLoop_succ, hdbl, ok_bind, hsum, ok_bind]
    exact ih hS

/-- On the curve the table entry of `dsmul` exists and its loop always ends, wherever it starts. -/
theorem dsmulLoop_of_represents (k1 k2 i : Nat) {q qg : Point} {g gg : (shortCurve p b).Point}
    (hg : Represents q g) (hgg : Represents qg gg) :
    ∃ gq res, cadd qg q p = .ok gq ∧ dsmulLoop k1 k2 q qg gq p i ⟨identity, 0, 0⟩ = .ok res ∧
      Represents res.point (res.r1 • gg + res.r2 • g) := by
  obtain ⟨gq, hok, hgq⟩ := cadd_represents h3 hb hgg hg
  obtain ⟨res, hres, hR⟩ := dsmulLoop_represents h3 hb k1 k2 i (acc := ⟨identity, 0, 0⟩) hg hgg hgq
    (by rw [zero_nsmul, zero_nsmul, add_zero]; exact represents_zero_iff.2 rfl)
  exact ⟨gq, res, hok, hres, hR⟩

end

/-- Settles O42: the loop ends whatever the hint words are, and the tests pass exactly for the true position, where
the accumulator is `k`. -/
theorem smulIsGroupMultiple : Obligations.SmulIsGroupMultiple := by
  unfold Obligations.SmulIsGroupMultiple
  intro p b _ h3 hb k q g li bi h0 _ _ hg
  obtain ⟨res, hres, hR⟩ := smulLoop_of_represents h3 hb k (64 * li + bi) hg
  refine ⟨fun hx => ?_, fun hx => smul_of_not_hintExact hres (mt And.right hx)⟩
  obtain ⟨hok, hrec⟩ := smul_of_hintExact hres h0 hx
  exact ⟨res.1, hok, hrec ▸ hR⟩

/-- Settles O43: as for `smul`, with two accumulators. -/
theorem dsmulIsGroupSum : Obligations.DsmulIsGroupSum := by
  unfold Obligations.DsmulIsGroupSum
  intro p b _ h3 hb k1 k2 q qg g gg li bi h0 _ hg hgg
  obtain ⟨gq, res, hgq, hres, hR⟩ := dsmulLoop_of_represents h3 hb k1 k2 (64 * li + bi + 1) hg hgg
  refine ⟨fun hx => ?_, fun hx => dsmul_of_not_hintExact hgq hres (mt And.right hx)⟩
  obtain ⟨hok, hrec1, hrec2⟩ := dsmul_of_hintExact hgq hres h0 hx
  exact ⟨res.point, hok, hrec1 ▸ hrec2 ▸ hR⟩

/-! ### The two scalar multiplications (spec/44_secp256k1.md R208, R210; spec/10_state.md R36, R37) -/

/-- The fault of a point whose coordinates are not reduced. -/
def coordsFault (q : Point) (p : Nat) : Option FaultCause := if q.x < p ∧ q.y < p then none else some .precond

theorem require_coords_eq (q : Point) (p : Nat) : require (coordsOk q p) .precond = answer (coordsFault q p) := by
  by_cases h : q.x < p ∧ q.y < p
  · rw [coordsFault, if_pos h, coordsOk_iff.2 h]; rfl
  · rw [coordsFault, if_neg h, Bool.eq_false_iff.2 (mt coordsOk_iff.1 h)]; rfl

/-- What a scalar multiplication comes to after its checks: the identity at once where that is `known` to be the
answer, else the query. -/
def identityOrAsk (known : Prop) [Decidable known] (d : Nat) (p : Pend) : Except FaultCause Plan :=
  if known then .ok (.done [Store.point d identity] retZero) else .ok (.hint p)

theorem bodySecpMul_eq (s : State) :
    bodySecpMul s =
      (answer ((memoryFault s formatF10).or (coordsFault (pointAt s 1) secpP)) >>= fun _ =>
        identityOrAsk (intAt s 4 0 = 0 ∨ isId (pointAt s 1)) (ptr s 2)
          (.secpMul (BitVec.ofNat 256 (intAt s 4 0)) (BitVec.ofNat 256 (pointAt s 1).x)
            (BitVec.ofNat 256 (pointAt s 1).y) (structWord s 2))) := by
  simp only [bodySecpMul, checkFormat_eq, require_coords_eq, ← answer_seq, bind_assoc]
  rfl

theorem bodySecpDmulG_eq (s : State) :
    bodySecpDmulG s =
      (answer ((memoryFault s formatF11).or (coordsFault (pointAt s 2) secpP)) >>= fun _ =>
        identityOrAsk (intAt s 4 0 = 0 ∧ intAt s 4 1 = 0) (ptr s 3)
          (.secpDmulG (BitVec.ofNat 256 (intAt s 4 0)) (BitVec.ofNat 256 (intAt s 4 1))
            (BitVec.ofNat 256 (pointAt s 2).x) (BitVec.ofNat 256 (pointAt s 2).y) (structWord s 3))) := by
  simp only [bodySecpDmulG, checkFormat_eq, require_coords_eq, ← answer_seq, bind_assoc]
  rfl

/-- A scalar multiplication whose body checks memory, then the coordinates of its point: the first fault is raised in
this order, a known answer ends the operation, and else it asks. -/
theorem scalar_outcome {i : Instr} {s : State} {f : Format} {q : Point} {m d : Nat} {known : Prop} [Decidable known]
    {p : Pend} (hs : s.status = statusIdle)
    (hb : bodyOf i (issued i s) =
      (answer ((memoryFault s f).or (coordsFault q m)) >>= fun _ => identityOrAsk known d p)) :
    MemoryFaultsFirst i s (memoryFault s f) ∧
    (memoryFault s f = none →
      (¬ (q.x < m ∧ q.y < m) → FaultsWith i s 0 [] .precond) ∧
      (q.x < m ∧ q.y < m →
        (known → EndsWith i s 0 [] [Store.point d identity] retZero) ∧ (¬ known → AsksWith i s p))) := by
  obtain ⟨hmem, hrest⟩ := checked_body hs hb
  refine ⟨hmem, fun hm => ?_⟩
  obtain ⟨hfault, hplan⟩ := hrest hm
  refine ⟨fun hq => hfault _ (if_neg hq), fun hq =>
    ⟨fun hk => endsWith_of_done hs ?_, fun hk => asksWith_of_hint hs ?_⟩⟩
  · rw [hplan (if_pos hq), identityOrAsk, if_pos hk]
  · rw [hplan (if_pos hq), identityOrAsk, if_neg hk]

/-- The words an operation pops are the oldest of the queue. -/
theorem hintWord_take (ws : List Word) {n j : Nat} (h : j < n) : hintWord (ws.take n) j = hintWord ws j := by
  rw [hintWord, hintWord, List.getD_eq_getElem?_getD, List.getD_eq_getElem?_getD, List.getElem?_take_of_lt h]

/-- An operation that asks with a record whose completion writes the point `x` answers on the two popped words. -/
theorem scalarAnswered_of_asksWith {i : Instr} {s : State} {p : Pend} {d : Nat}
    {x : Nat → Nat → Except FaultCause Point} (hask : AsksWith i s p) (hneed : p.need = 2)
    (hres : ∀ ws, p.result ws =
      (x (hintWord ws 0) (hintWord ws 1) >>= fun r => .ok ([Store.point d r], retZero))) :
    (s.hintq.length < 2 → WaitsWith i s p) ∧
    (2 ≤ s.hintq.length →
      (∀ r, x (hintWord s.hintq 0) (hintWord s.hintq 1) = .ok r →
        EndsWith i s 2 [p.query] [Store.point d r] retZero) ∧
      (∀ c, x (hintWord s.hintq 0) (hintWord s.hintq 1) = .error c → FaultsWith i s 2 [p.query] c)) := by
  obtain ⟨hwait, hpop⟩ := hask
  rw [hneed] at hwait hpop
  refine ⟨hwait, fun hle => ?_⟩
  obtain ⟨hend, hfault⟩ := hpop hle
  have htake := hres (s.hintq.take 2)
  rw [hintWord_take _ (by decide), hintWord_take _ (by decide)] at htake
  refine ⟨fun r hr => hend _ _ ?_, fun c hc => hfault _ ?_⟩
  · rw [htake, hr, ok_bind]
  · rw [htake, hc, error_bind]

/-- On the curve, outcomes that follow the answer of `smul` are the multiple of the group for the true position, and
`HINT_VERIFY` for any other. -/
theorem smul_outcome_of_represents {p b k li bi : Nat} [Fact p.Prime] (h3 : 3 < p) (hb : b % p ≠ 0) {q : Point}
    {g : (shortCurve p b).Point} {ends : Point → Prop} {faults : FaultCause → Prop}
    (hend : ∀ r, smul k q p li bi = .ok r → ends r) (hfault : ∀ c, smul k q p li bi = .error c → faults c)
    (h0 : 0 < k) (hk : k < 2 ^ 256) (hid : q ≠ identity) (hg : Represents q g) :
    (hintExact k li bi → ∃ r, Represents r (k • g) ∧ ends r) ∧ (¬ hintExact k li bi → faults .hintVerify) := by
  obtain ⟨hexact, hwrong⟩ := smulIsGroupMultiple p b h3 hb k q g li bi h0 hk hid hg
  refine ⟨fun hx => ?_, fun hx => hfault _ (hwrong hx)⟩
  obtain ⟨r, hr, hR⟩ := hexact hx
  exact ⟨r, hR, hend r hr⟩

/-- On the curve, outcomes that follow the answer of `dsmul` are the sum of the multiples for the true position, and
`HINT_VERIFY` for any other. -/
theorem dsmul_outcome_of_represents {p b k1 k2 li bi : Nat} [Fact p.Prime] (h3 : 3 < p) (hb : b % p ≠ 0)
    {q qg : Point} {g gg : (shortCurve p b).Point} {ends : Point → Prop} {faults : FaultCause → Prop}
    (hend : ∀ r, dsmul k1 k2 q qg p li bi = .ok r → ends r)
    (hfault : ∀ c, dsmul k1 k2 q qg p li bi = .error c → faults c)
    (h0 : 0 < max k1 k2) (hk : max k1 k2 < 2 ^ 256) (hg : Represents q g) (hgg : Represents qg gg) :
    (hintExact (max k1 k2) li bi → ∃ r, Represents r (k1 • gg + k2 • g) ∧ ends r) ∧
      (¬ hintExact (max k1 k2) li bi → faults .hintVerify) := by
  obtain ⟨hexact, hwrong⟩ := dsmulIsGroupSum p b h3 hb k1 k2 q qg g gg li bi h0 hk hg hgg
  refine ⟨fun hx => ?_, fun hx => hfault _ (hwrong hx)⟩
  obtain ⟨r, hr, hR⟩ := hexact hx
  exact ⟨r, hR, hend r hr⟩

theorem secpP_gt_three : 3 < secpP := by decide

theorem secpB_mod_ne_zero : secpB % secpP ≠ 0 := by decide

/-- Settles O45: the checks at issue, then `smul` on the two popped words, which on the curve is the multiple of the
group. -/
theorem secpMulOutcome : Obligations.SecpMulOutcome := by
  unfold Obligations.SecpMulOutcome
  intro s hs
  have hbody : bodyOf .secp256k1Mul (issued .secp256k1Mul s) = _ := bodySecpMul_eq _
  simp only [memoryFault_withOp, intAt_withOp, pointAt_withOp, ptr_withOp, structWord_withOp] at hbody
  obtain ⟨hmem, hrest⟩ := scalar_outcome hs hbody
  refine ⟨hmem, fun hm => ?_⟩
  obtain ⟨hunreduced, hreduced⟩ := hrest hm
  refine ⟨hunreduced, fun hq => ?_⟩
  obtain ⟨hknown, hask⟩ := hreduced hq
  refine ⟨fun h => hknown (h.imp_right (isId_iff _).2), fun h0 hid => ⟨rfl, ?_⟩⟩
  obtain ⟨hwait, hpop⟩ := scalarAnswered_of_asksWith (d := ptr s 2) (x := smul (intAt s 4 0) (pointAt s 1) secpP)
    (hask (not_or.2 ⟨h0.ne', mt (isId_iff _).1 hid⟩)) rfl fun ws => by
      simp only [Pend.result, toNat_intAt s 4 _ 256 rfl, toNat_pointAt]
      rfl
  refine ⟨hwait, fun hle => ?_⟩
  obtain ⟨hend, hfault⟩ := hpop hle
  exact ⟨hend, hfault, fun _ hg => smul_outcome_of_represents secpP_gt_three secpB_mod_ne_zero hend hfault h0
    (intAt_lt s 4 0) hid hg⟩

/-- A point with the abscissa of another one, neither it nor its opposite, has no table entry, and `dsmul` faults
whatever the hint words are. -/
theorem dsmul_of_degenerate {k1 k2 p li bi : Nat} {q g : Point} (h : g.x < p ∧ g.y < p ∧ q.x < p ∧ q.y < p)
    (hg : g ≠ identity) (hq : q ≠ identity) (hx : g.x = q.x) (hy : (g.y + q.y) % p ≠ 0) (hne : g.y ≠ q.y) :
    dsmul k1 k2 q g p li bi = .error .precond := by
  rw [dsmul, cadd_degenerate h hg hq hx hy hne, error_bind]

/-- Settles O46: the checks at issue, then `dsmul` on the two popped words, which on the curve is the sum of the
multiples in the group. -/
theorem secpDmulGOutcome : Obligations.SecpDmulGOutcome := by
  unfold Obligations.SecpDmulGOutcome
  intro s hs
  have hbody : bodyOf .secp256k1DmulG (issued .secp256k1DmulG s) = _ := bodySecpDmulG_eq _
  simp only [memoryFault_withOp, intAt_withOp, pointAt_withOp, ptr_withOp, structWord_withOp] at hbody
  obtain ⟨hmem, hrest⟩ := scalar_outcome hs hbody
  refine ⟨hmem, fun hm => ?_⟩
  obtain ⟨hunreduced, hreduced⟩ := hrest hm
  refine ⟨hunreduced, fun hq => ?_⟩
  obtain ⟨hknown, hask⟩ := hreduced hq
  refine ⟨fun h1 h2 => hknown ⟨h1, h2⟩, fun h0 => ⟨rfl, ?_⟩⟩
  obtain ⟨hwait, hpop⟩ := scalarAnswered_of_asksWith (d := ptr s 3)
    (x := dsmul (intAt s 4 0) (intAt s 4 1) (pointAt s 2) ⟨secpGx, secpGy⟩ secpP)
    (hask (by omega)) rfl fun ws => by
      simp only [Pend.result, toNat_intAt s 4 _ 256 rfl, toNat_pointAt]
      rfl
  refine ⟨hwait, fun hle => ?_⟩
  obtain ⟨hend, hfault⟩ := hpop hle
  refine ⟨hend, hfault, fun hx hy hsum => hfault _ ?_, fun g gg hg hgg => ?_⟩
  · have hG : (⟨secpGx, secpGy⟩ : Point) ≠ identity := by decide
    have hid : pointAt s 2 ≠ identity := fun h => absurd (hx.symm.trans (congrArg Point.x h)) (by decide)
    exact dsmul_of_degenerate ⟨by decide, by decide, hq⟩ hG hid hx.symm hsum hy.symm
  · exact dsmul_outcome_of_represents secpP_gt_three secpB_mod_ne_zero hend hfault h0
      (max_lt (intAt_lt s 4 0) (intAt_lt s 4 1)) hg hgg

end Sys2Proof.Machine
end

section
/-! PROOF. BN254_ECADD and BN254_ECMUL (spec/45_bn254_curve.md R234 to R236): the order of their error codes, the points
that pass every check, and what is written for them. -/

namespace Sys2Proof.Machine

/-! ### Error codes (spec/45_bn254_curve.md R234, R235) -/

/-- The error code of coordinates that are not reduced, `x` before `y`. -/
def rangeCode (q : Point) (cx cy : ErrorCode) : Option ErrorCode :=
  if bnP ≤ q.x then some cx else if bnP ≤ q.y then some cy else none

/-- The error code of a pair that is neither `(0, 0)` nor on the curve. -/
def curveCode (q : Point) (cc : ErrorCode) : Option ErrorCode :=
  if !isId q && !onCurve q bnP bnB then some cc else none

theorem rangeCode_big_x {q : Point} (cx cy : ErrorCode) (hx : bnP ≤ q.x) : rangeCode q cx cy = some cx := if_pos hx

theorem rangeCode_big_y {q : Point} (cx cy : ErrorCode) (hx : q.x < bnP) (hy : bnP ≤ q.y) :
    rangeCode q cx cy = some cy := by
  rw [rangeCode, if_neg (Nat.not_le.2 hx), if_pos hy]

theorem rangeCode_reduced {q : Point} (cx cy : ErrorCode) (hx : q.x < bnP) (hy : q.y < bnP) :
    rangeCode q cx cy = none := by
  rw [rangeCode, if_neg (Nat.not_le.2 hx), if_neg (Nat.not_le.2 hy)]

/-- The curve test is the curve equation (spec/44_secp256k1.md R200). -/
theorem onCurve_iff_solvesCurve {p b : Nat} [Fact p.Prime] (q : Point) :
    onCurve q p b = true ↔ solvesCurve q p b := by
  rw [onCurve_iff, solvesCurve, ← ZMod.natCast_eq_natCast_iff']
  push_cast
  rfl

theorem curveCode_test_iff {q : Point} :
    (!isId q && !onCurve q bnP bnB) = true ↔ ¬ (q = identity ∨ solvesCurve q bnP bnB) := by
  have : Fact bnP.Prime := ⟨bnP_prime⟩
  rw [← isId_iff, ← onCurve_iff_solvesCurve, Bool.and_eq_true, Bool.not_eq_true', Bool.not_eq_true', not_or,
    Bool.not_eq_true, Bool.not_eq_true]

theorem curveCode_fails {q : Point} (cc : ErrorCode) (h : ¬ (q = identity ∨ solvesCurve q bnP bnB)) :
    curveCode q cc = some cc :=
  if_pos (curveCode_test_iff.2 h)

theorem curveCode_passes {q : Point} (cc : ErrorCode) (h : q = identity ∨ solvesCurve q bnP bnB) :
    curveCode q cc = none :=
  if_neg fun ht => curveCode_test_iff.1 ht h

/-- `check_g1` tests the range, then the curve. -/
theorem checkG1_eq (q : Point) (cx cy cc : ErrorCode) :
    checkG1 q cx cy cc = (rangeCode q cx cy).or (curveCode q cc) := by
  rw [checkG1, rangeCode, curveCode]
  split_ifs <;> rfl

/-- BN254_ECADD tests the range of both points before the curve of either. -/
theorem ecaddCode_eq (q1 q2 : Point) :
    ecaddCode q1 q2 = (rangeCode q1 .p1xRange .p1yRange).or ((rangeCode q2 .p2xRange .p2yRange).or
      ((curveCode q1 .p1OffCurve).or (curveCode q2 .p2OffCurve))) := by
  rw [ecaddCode, rangeCode, rangeCode, curveCode, curveCode]
  split_ifs <;> rfl

/-! ### Points that pass (spec/44_secp256k1.md R200, R205, R207) -/

theorem bnP_gt_three : 3 < bnP := by decide

theorem bnB_mod_ne_zero : bnB % bnP ≠ 0 := by decide

/-- A pair that passes the range checks and the curve check stands for a point of the curve's group. -/
theorem represents_of_passes [Fact bnP.Prime] {q : Point} (hx : q.x < bnP) (hy : q.y < bnP)
    (h : q = identity ∨ solvesCurve q bnP bnB) : ∃ g : (shortCurve bnP bnB).Point, Represents q g := by
  rw [← isId_iff, ← onCurve_iff_solvesCurve] at h
  rw [← validPoint_iff_represents bnP_gt_three bnB_mod_ne_zero, validPoint, Bool.and_eq_true, Bool.or_eq_true]
  exact ⟨coordsOk_iff.2 ⟨hx, hy⟩, h⟩

section
variable {p b : Nat} [Fact p.Prime] (h3 : 3 < p) (hb : b % p ≠ 0)
include h3 hb

/-- What complete addition answers for pairs that stand for points stands for their sum. -/
theorem represents_of_cadd_ok {q1 q2 r : Point} {g1 g2 : (shortCurve p b).Point} (hr : cadd q1 q2 p = .ok r)
    (hg1 : Represents q1 g1) (hg2 : Represents q2 g2) : Represents r (g1 + g2) := by
  obtain ⟨r', hr', hsum⟩ := cadd_represents h3 hb hg1 hg2
  obtain rfl : r' = r := Except.ok.inj (hr'.symm.trans hr)
  exact hsum

/-- What `smul` answers for a pair that stands for a point stands for its multiple: `smul` answers only for the true
position. -/
theorem represents_of_smul_ok {k li bi : Nat} {q r : Point} {g : (shortCurve p b).Point} (h0 : 0 < k)
    (hk : k < 2 ^ 256) (hid : q ≠ identity) (hr : smul k q p li bi = .ok r) (hg : Represents q g) :
    Represents r (k • g) := by
  obtain ⟨hexact, -⟩ := smulIsGroupMultiple p b h3 hb k q g li bi h0 hk hid hg
  obtain ⟨r', hr', hR⟩ := hexact (hintExact_of_smul_ok hr)
  obtain rfl : r' = r := Except.ok.inj (hr'.symm.trans hr)
  exact hR

end

/-- For a pair that passes, not `(0, 0)`, outcomes that follow the answer of `smul` are the multiple of the group for the
true position, and `HINT_VERIFY` for any other. -/
theorem smul_outcome_of_passes {k li bi : Nat} {q : Point} {ends : Point → Prop} {faults : FaultCause → Prop}
    (hend : ∀ r, smul k q bnP li bi = .ok r → ends r) (hfault : ∀ c, smul k q bnP li bi = .error c → faults c)
    (h0 : 0 < k) (hk : k < 2 ^ 256) (hid : q ≠ identity) (hx : q.x < bnP) (hy : q.y < bnP)
    (hon : q = identity ∨ solvesCurve q bnP bnB) :
    (¬ hintExact k li bi → faults .hintVerify) ∧
    (hintExact k li bi → ∃ r, smul k q bnP li bi = .ok r ∧ ends r ∧
      ∀ [Fact bnP.Prime] (g : (shortCurve bnP bnB).Point), Represents q g → Represents r (k • g)) := by
  have : Fact bnP.Prime := ⟨bnP_prime⟩
  obtain ⟨g, hg⟩ := represents_of_passes hx hy hon
  obtain ⟨hright, hwrong⟩ := smulIsGroupMultiple bnP bnB bnP_gt_three bnB_mod_ne_zero k q g li bi h0 hk hid hg
  refine ⟨fun hpos => hfault _ (hwrong hpos), fun hpos => ?_⟩
  obtain ⟨r, hr, -⟩ := hright hpos
  exact ⟨r, hr, hend r hr, fun _ => represents_of_smul_ok bnP_gt_three bnB_mod_ne_zero h0 hk hid hr⟩

/-! ### Bodies with error codes (spec/45_bn254_curve.md R235, R236) -/

/-- What validation comes to: an error code is returned with the identity written at `d`; without one the body goes
on. -/
def codeOrElse (code : Option ErrorCode) (d : Nat) (rest : Except FaultCause Plan) : Except FaultCause Plan :=
  match code with
  | some c => .ok (.done [Store.point d identity] c.code)
  | none => rest

theorem bodyOf_bn254Ecadd (s : State) :
    bodyOf .bn254Ecadd s = (answer ((memoryFault s formatF12).or none) >>= fun _ =>
      codeOrElse (ecaddCode (pointAt s 0) (pointAt s 1)) (ptr s 2)
        (cadd (pointAt s 0) (pointAt s 1) bnP >>= fun r => .ok (.done [Store.point (ptr s 2) r] retZero))) := by
  simp only [bodyOf, bodyBn254Ecadd, checkFormat_eq, Option.or_none]
  cases ecaddCode (pointAt s 0) (pointAt s 1) <;> rfl

theorem bodyOf_bn254Ecmul (s : State) :
    bodyOf .bn254Ecmul s = (answer ((memoryFault s formatF10).or none) >>= fun _ =>
      codeOrElse (checkG1 (pointAt s 1) .p1xRange .p1yRange .p1OffCurve) (ptr s 2)
        (identityOrAsk (intAt s 4 0 = 0 ∨ isId (pointAt s 1)) (ptr s 2)
          (.bnEcmul (BitVec.ofNat 256 (intAt s 4 0)) (BitVec.ofNat 256 (pointAt s 1).x)
            (BitVec.ofNat 256 (pointAt s 1).y) (structWord s 2)))) := by
  simp only [bodyOf, bodyBn254Ecmul, checkFormat_eq, Option.or_none]
  cases checkG1 (pointAt s 1) .p1xRange .p1yRange .p1OffCurve <;> rfl

/-- An operation that checks memory, then validates its points: a memory fault comes first, then an error code ends it
with the identity written, and else the body goes on. -/
theorem validated_outcome {i : Instr} {s : State} {f : Format} {code : Option ErrorCode} {d : Nat}
    {rest : Except FaultCause Plan} (hs : s.status = statusIdle)
    (hb : bodyOf i (issued i s) = (answer ((memoryFault s f).or none) >>= fun _ => codeOrElse code d rest)) :
    MemoryFaultsFirst i s (memoryFault s f) ∧
    (memoryFault s f = none →
      (∀ c, code = some c → EndsWith i s 0 [] [Store.point d identity] c.code) ∧
      (code = none → bodyOf i (issued i s) = rest)) := by
  obtain ⟨hmem, hrest⟩ := checked_body hs hb
  refine ⟨hmem, fun hm => ?_⟩
  obtain ⟨-, hplan⟩ := hrest hm
  refine ⟨fun c hc => endsWith_of_done hs ?_, fun hc => ?_⟩
  · rw [hplan rfl, hc, codeOrElse]
  · rw [hplan rfl, hc, codeOrElse]

/-- Settles O48: the memory checks, the error codes in order, then complete addition, which is defined on all points
that pass. -/
theorem ecaddOutcome : Obligations.EcaddOutcome := by
  unfold Obligations.EcaddOutcome
  intro s hs
  have hbody := bodyOf_bn254Ecadd (issued .bn254Ecadd s)
  simp only [memoryFault_withOp, pointAt_withOp, ptr_withOp, ecaddCode_eq] at hbody
  obtain ⟨hmem, hrest⟩ := validated_outcome hs hbody
  refine ⟨hmem, fun hm => ?_⟩
  obtain ⟨hcode, hplan⟩ := hrest hm
  refine ⟨fun hx1 => hcode .p1xRange ?_, fun hx1 hy1 => hcode .p1yRange ?_, fun hx1 hy1 hx2 => hcode .p2xRange ?_,
    fun hx1 hy1 hx2 hy2 => hcode .p2yRange ?_, fun hx1 hy1 hx2 hy2 => ?_⟩
  · rw [rangeCode_big_x _ _ hx1, Option.some_or]
  · rw [rangeCode_big_y _ _ hx1 hy1, Option.some_or]
  · rw [rangeCode_reduced _ _ hx1 hy1, rangeCode_big_x _ _ hx2, Option.none_or, Option.some_or]
  · rw [rangeCode_reduced _ _ hx1 hy1, rangeCode_big_y _ _ hx2 hy2, Option.none_or, Option.some_or]
  rw [rangeCode_reduced _ _ hx1 hy1, rangeCode_reduced _ _ hx2 hy2, Option.none_or, Option.none_or] at hcode hplan
  refine ⟨fun h1 => hcode .p1OffCurve ?_, fun h1 h2 => hcode .p2OffCurve ?_, fun h1 h2 => ?_⟩
  · rw [curveCode_fails _ h1, Option.some_or]
  · rw [curveCode_passes _ h1, curveCode_fails _ h2, Option.none_or]
  have : Fact bnP.Prime := ⟨bnP_prime⟩
  obtain ⟨_, hg1⟩ := represents_of_passes hx1 hy1 h1
  obtain ⟨_, hg2⟩ := represents_of_passes hx2 hy2 h2
  obtain ⟨r, hr, -⟩ := cadd_represents bnP_gt_three bnB_mod_ne_zero hg1 hg2
  refine ⟨r, hr, endsWith_of_done hs ?_, fun _ _ => represents_of_cadd_ok bnP_gt_three bnB_mod_ne_zero hr⟩
  rw [hplan (by rw [curveCode_passes _ h1, curveCode_passes _ h2, Option.none_or]), hr, ok_bind]

/-- Settles O47: the memory checks, the error codes in order, the identity at once for a zero factor, then `smul` on the
two popped words, which on the curve is the multiple of the group. -/
theorem ecmulOutcome : Obligations.EcmulOutcome := by
  unfold Obligations.EcmulOutcome
  intro s hs
  have hbody := bodyOf_bn254Ecmul (issued .bn254Ecmul s)
  simp only [memoryFault_withOp, intAt_withOp, pointAt_withOp, ptr_withOp, structWord_withOp, checkG1_eq] at hbody
  obtain ⟨hmem, hrest⟩ := validated_outcome hs hbody
  refine ⟨hmem, fun hm => ?_⟩
  obtain ⟨hcode, hplan⟩ := hrest hm
  refine ⟨fun hx => hcode .p1xRange ?_, fun hx hy => hcode .p1yRange ?_, fun hx hy hid hoff => hcode .p1OffCurve ?_,
    fun hx hy hon => ?_⟩
  · rw [rangeCode_big_x _ _ hx, Option.some_or]
  · rw [rangeCode_big_y _ _ hx hy, Option.some_or]
  · rw [rangeCode_reduced _ _ hx hy, curveCode_fails _ (not_or.2 ⟨hid, hoff⟩), Option.none_or]
  have hvalid := hplan (by rw [rangeCode_reduced _ _ hx hy, curveCode_passes _ hon, Option.none_or])
  refine ⟨fun h => endsWith_of_done hs (hvalid.trans (if_pos (h.imp_right (isId_iff _).2))), fun h0 hid => ⟨rfl, ?_⟩⟩
  have hask := hvalid.trans (if_neg (not_or.2 ⟨h0.ne', mt (isId_iff _).1 hid⟩))
  obtain ⟨hwait, hpop⟩ := scalarAnswered_of_asksWith (d := ptr s 2) (x := smul (intAt s 4 0) (pointAt s 1) bnP)
    (asksWith_of_hint hs hask) rfl fun ws => by
      simp only [Pend.result, toNat_intAt s 4 _ 256 rfl, toNat_pointAt]
      rfl
  refine ⟨hwait, fun hle => ?_⟩
  obtain ⟨hend, hfault⟩ := hpop hle
  exact smul_outcome_of_passes hend hfault h0 (intAt_lt s 4 0) hid hx hy hon

end Sys2Proof.Machine
end

section
/-! PROOF. The Fp2 operations (spec/46_bn254_pairing.md R260 to R263): their components in the field with `BN_P`
elements, the norm that is not 0 because `BN_P` is 3 modulo 4, and the complex operations in place. -/

namespace Sys2Proof.Machine

/-! ### Components (spec/46_bn254_pairing.md R260) -/

theorem f2Reduced_iff {a : Fp2} : f2Reduced a = true ↔ a.re < bnP ∧ a.im < bnP := by
  rw [f2Reduced, Bool.and_eq_true, decide_eq_true_eq, decide_eq_true_eq]

/-- Reduced elements with the same components modulo `p` are the same. -/
theorem fp2_eq_of_cast_eq {a b : Fp2} (ha : f2Reduced a = true) (hb : f2Reduced b = true)
    (hre : (a.re : ZMod bnP) = b.re) (him : (a.im : ZMod bnP) = b.im) : a = b := by
  obtain ⟨are, aim⟩ := f2Reduced_iff.1 ha
  obtain ⟨bre, bim⟩ := f2Reduced_iff.1 hb
  obtain ⟨x, y⟩ := a
  obtain ⟨x', y'⟩ := b
  rw [Fp2.mk.injEq]
  exact ⟨eq_of_cast_eq are bre hre, eq_of_cast_eq aim bim him⟩

section
variable (a b : Fp2)

theorem f2add_cast : ((f2add a b).re : ZMod bnP) = a.re + b.re ∧ ((f2add a b).im : ZMod bnP) = a.im + b.im :=
  ⟨addm_cast _ _ _, addm_cast _ _ _⟩

theorem f2sub_cast : ((f2sub a b).re : ZMod bnP) = a.re - b.re ∧ ((f2sub a b).im : ZMod bnP) = a.im - b.im :=
  ⟨subm_cast _ _ bnP_pos, subm_cast _ _ bnP_pos⟩

theorem f2neg_cast : ((f2neg a).re : ZMod bnP) = -a.re ∧ ((f2neg a).im : ZMod bnP) = -a.im :=
  ⟨negm_cast _ bnP_pos, negm_cast _ bnP_pos⟩

theorem f2conj_cast : ((f2conj a).re : ZMod bnP) = a.re ∧ ((f2conj a).im : ZMod bnP) = -a.im :=
  ⟨rfl, negm_cast _ bnP_pos⟩

theorem f2mul_cast : ((f2mul a b).re : ZMod bnP) = a.re * b.re - a.im * b.im ∧
    ((f2mul a b).im : ZMod bnP) = a.re * b.im + a.im * b.re := by
  constructor
  · rw [f2mul, subm_cast _ _ bnP_pos, mulm_cast, mulm_cast]
  · rw [f2mul, addm_cast, mulm_cast, mulm_cast]

theorem f2xi_cast : ((f2xi a).re : ZMod bnP) = 9 * a.re - a.im ∧ ((f2xi a).im : ZMod bnP) = 9 * a.im + a.re := by
  constructor
  · rw [f2xi, subm_cast _ _ bnP_pos, mulm_cast, Nat.cast_ofNat]
  · rw [f2xi, addm_cast, mulm_cast, Nat.cast_ofNat]

end

theorem f2conj_reduced {a : Fp2} (h : f2Reduced a = true) : f2Reduced (f2conj a) = true :=
  f2Reduced_iff.2 ⟨(f2Reduced_iff.1 h).1, negm_lt _ bnP_pos⟩

theorem f2inv_reduced (a : Fp2) : f2Reduced (f2inv a) = true :=
  f2Reduced_iff.2 ⟨mulm_lt _ _ bnP_pos, mulm_lt _ _ bnP_pos⟩

theorem f2sqr_reduced (a : Fp2) : f2Reduced (f2sqr a) = true := f2mul_reduced a a

theorem f2one_reduced : f2Reduced f2one = true := by decide

theorem f2zero_reduced : f2Reduced f2zero = true := by decide

/-- Multiplication by `9 + i` is the product with it. -/
theorem f2xi_eq_f2mul (a : Fp2) : f2xi a = f2mul a ⟨9, 1⟩ := by
  obtain ⟨xre, xim⟩ := f2xi_cast a
  obtain ⟨mre, mim⟩ := f2mul_cast a ⟨9, 1⟩
  refine fp2_eq_of_cast_eq (f2xi_reduced a) (f2mul_reduced a _) ?_ ?_
  · rw [xre, mre]; push_cast; ring
  · rw [xim, mim]; push_cast; ring

/-! ### The norm and the inverse (spec/46_bn254_pairing.md R260) -/

theorem fp2_ne_zero_iff {a : Fp2} : a ≠ f2zero ↔ a.re ≠ 0 ∨ a.im ≠ 0 := by
  obtain ⟨x, y⟩ := a
  rw [f2zero, Ne, Fp2.mk.injEq, not_and_or]

/-- A sum of two squares is 0 only for zeros: -1 is no square, for `BN_P` is 3 modulo 4. -/
theorem norm_ne_zero {a : Fp2} (ha : f2Reduced a = true) (h0 : a ≠ f2zero) :
    (a.re : ZMod bnP) ^ 2 + (a.im : ZMod bnP) ^ 2 ≠ 0 := by
  have : Fact bnP.Prime := ⟨bnP_prime⟩
  obtain ⟨hre, him⟩ := f2Reduced_iff.1 ha
  have h3 : bnP % 4 = 3 := by decide
  intro hn
  rcases fp2_ne_zero_iff.1 h0 with hx | hy
  · exact ZMod.mod_four_ne_three_of_sq_eq_neg_sq' (mt (cast_zero_iff hre).1 hx)
      (eq_neg_of_add_eq_zero_right hn) h3
  · exact ZMod.mod_four_ne_three_of_sq_eq_neg_sq' (mt (cast_zero_iff him).1 hy)
      (eq_neg_of_add_eq_zero_left hn) h3

/-- `f2inv` is the conjugate over the norm. -/
theorem f2inv_cast {a : Fp2} (ha : f2Reduced a = true) (h0 : a ≠ f2zero) :
    ((f2inv a).re : ZMod bnP) * (a.re ^ 2 + a.im ^ 2) = a.re ∧
    ((f2inv a).im : ZMod bnP) * (a.re ^ 2 + a.im ^ 2) = -a.im := by
  have : Fact bnP.Prime := ⟨bnP_prime⟩
  have hn := norm_ne_zero ha h0
  have hnorm : ((addm (mulm a.re a.re bnP) (mulm a.im a.im bnP) bnP : Nat) : ZMod bnP) = a.re ^ 2 + a.im ^ 2 := by
    rw [addm_cast, mulm_cast, mulm_cast, sq, sq]
  have hinv := invm_cast (addm_lt (mulm a.re a.re bnP) (mulm a.im a.im bnP) bnP_pos) fun h => hn <| by
    rw [← hnorm, h, Nat.cast_zero]
  rw [hnorm] at hinv
  constructor
  · rw [f2inv, mulm_cast, hinv, inv_mul_cancel_right₀ hn]
  · rw [f2inv, mulm_cast, hinv, inv_mul_cancel_right₀ hn, negm_cast _ bnP_pos]

theorem f2mul_f2inv {a : Fp2} (ha : f2Reduced a = true) (h0 : a ≠ f2zero) : f2mul a (f2inv a) = f2one := by
  have : Fact bnP.Prime := ⟨bnP_prime⟩
  obtain ⟨ire, iim⟩ := f2inv_cast ha h0
  obtain ⟨mre, mim⟩ := f2mul_cast a (f2inv a)
  have hn := norm_ne_zero ha h0
  refine fp2_eq_of_cast_eq (f2mul_reduced _ _) f2one_reduced (mul_right_cancel₀ hn ?_) (mul_right_cancel₀ hn ?_)
  · rw [mre, f2one, Nat.cast_one]
    linear_combination (a.re : ZMod bnP) * ire - (a.im : ZMod bnP) * iim
  · rw [mim, f2one, Nat.cast_zero]
    linear_combination (a.re : ZMod bnP) * iim + (a.im : ZMod bnP) * ire

/-- Settles O50: component by component in the field with `p` elements, where the norm of an element not 0 is not 0. -/
theorem fp2InverseIsDefined : Obligations.Fp2InverseIsDefined := by
  unfold Obligations.Fp2InverseIsDefined
  intro a b ha hb
  refine ⟨?_, f2add_cast a b, f2sub_cast a b, f2neg_cast a, f2mul_cast a b, rfl, f2conj_cast a, f2xi_eq_f2mul a,
    fun h0 => ⟨fun hn => norm_ne_zero ha h0 ?_, f2mul_f2inv ha h0⟩⟩
  · simp only [List.forall_mem_cons, List.not_mem_nil, false_implies, implies_true, and_true]
    exact ⟨f2add_reduced a b, f2sub_reduced a b, f2neg_reduced a, f2mul_reduced a b, f2sqr_reduced a,
      f2conj_reduced ha, f2xi_reduced a, f2inv_reduced a⟩
  · exact_mod_cast (ZMod.natCast_eq_zero_iff _ _).2 (Nat.dvd_of_mod_eq_zero hn)

/-! ### The complex operations (spec/46_bn254_pairing.md R261 to R263) -/

/-- The fault of components that are not reduced. -/
def fp2Fault (f1 f2 : Fp2) : Option FaultCause :=
  if f1.re < bnP ∧ f1.im < bnP ∧ f2.re < bnP ∧ f2.im < bnP then none else some .precond

theorem require_fp2_eq (f1 f2 : Fp2) :
    require (f2Reduced f1 && f2Reduced f2) .precond = answer (fp2Fault f1 f2) := by
  have h : (f2Reduced f1 && f2Reduced f2) = true ↔ f1.re < bnP ∧ f1.im < bnP ∧ f2.re < bnP ∧ f2.im < bnP := by
    rw [Bool.and_eq_true, f2Reduced_iff, f2Reduced_iff, and_assoc]
  by_cases hr : f1.re < bnP ∧ f1.im < bnP ∧ f2.re < bnP ∧ f2.im < bnP
  · rw [h.2 hr, fp2Fault, if_pos hr]; rfl
  · rw [Bool.eq_false_iff.2 (mt h.1 hr), fp2Fault, if_neg hr]; rfl

theorem fp2Op2_eq (f : Fp2 → Fp2 → Fp2) (s : State) :
    fp2Op2 f s =
      (answer ((memoryFault s formatF8).or (fp2Fault (rdFp2 s.mem (ptr s 0)) (rdFp2 s.mem (ptr s 1)))) >>= fun _ =>
        .ok (.done [Store.fp2 (ptr s 0) (f (rdFp2 s.mem (ptr s 0)) (rdFp2 s.mem (ptr s 1)))] retZero)) := by
  simp only [fp2Op2, checkFormat_eq, require_fp2_eq, ← answer_seq, bind_assoc]
  rfl

/-- A complex operation that computes `f`, which has the components `re` and `im`. -/
theorem fp2Outcome_of_op {i : Instr} {f : Fp2 → Fp2 → Fp2} {re im : Fp2 → Fp2 → Nat} {s : State}
    (hs : s.status = statusIdle) (hb : bodyOf i = fp2Op2 f)
    (hf : ∀ a b, f a b = ⟨re a b, im a b⟩) : Fp2Outcome i re im s := by
  have hbody : bodyOf i (issued i s) = _ := (congrFun hb _).trans (fp2Op2_eq f _)
  simp only [memoryFault_withOp, ptr_withOp] at hbody
  obtain ⟨hmem, hrest⟩ := outcome_of_checked_body hs hbody fun hm =>
    store_fp2_in_space (buffer_in_space hm (b := ⟨0, 64, .write⟩) (by simp [formatF8]))
  refine ⟨hmem, fun hm => ?_⟩
  obtain ⟨hfault, hend⟩ := hrest hm
  refine ⟨fun hr => ?_, fun hr => hfault _ (if_neg hr)⟩
  rw [← hf]
  exact hend (if_pos hr)

/-- A number below `m` is the least residue of every integer it is congruent to. -/
theorem eq_residue_of_cast_eq {n m : Nat} {z : Int} (hn : n < m) (h : (n : ZMod m) = (z : ZMod m)) :
    n = (z % m).toNat := by
  have hz : ((n : Int) : ZMod m) = z := by rw [Int.cast_natCast, h]
  rw [← (ZMod.intCast_eq_intCast_iff' _ _ m).1 hz, Int.emod_eq_of_lt (Int.natCast_nonneg n) (Int.ofNat_lt.2 hn),
    Int.toNat_natCast]

theorem f2sub_eq_residues (a b : Fp2) :
    f2sub a b = ⟨(((a.re : Int) - b.re) % bnP).toNat, (((a.im : Int) - b.im) % bnP).toNat⟩ := by
  obtain ⟨hre, him⟩ := f2sub_cast a b
  rw [f2sub, Fp2.mk.injEq]
  exact ⟨eq_residue_of_cast_eq (subm_lt _ _ bnP_pos) (by push_cast; exact hre),
    eq_residue_of_cast_eq (subm_lt _ _ bnP_pos) (by push_cast; exact him)⟩

theorem f2mul_eq_residues (a b : Fp2) :
    f2mul a b = ⟨(((a.re : Int) * b.re - a.im * b.im) % bnP).toNat, (a.re * b.im + a.im * b.re) % bnP⟩ := by
  obtain ⟨hre, -⟩ := f2mul_cast a b
  rw [f2mul, Fp2.mk.injEq]
  exact ⟨eq_residue_of_cast_eq (subm_lt _ _ bnP_pos) (by push_cast; exact hre), (Nat.add_mod _ _ _).symm⟩

/-- Settles O49: the memory checks, then the ranges, then the sum, the difference or the product in Fp2. -/
theorem complexOutcome : Obligations.ComplexOutcome := by
  unfold Obligations.ComplexOutcome
  exact fun s hs => ⟨fp2Outcome_of_op hs rfl fun _ _ => rfl,
    fp2Outcome_of_op hs rfl f2sub_eq_residues,
    fp2Outcome_of_op hs rfl f2mul_eq_residues⟩

end Sys2Proof.Machine
end

section
/-! PROOF. The tower (spec/46_bn254_pairing.md R260, R264, R265, R271): the operations of Fp6 and Fp12 in every ring
with `i`, `v` and `w`, the powers by `p` there, a field in which the meanings are faithful, and the inverses. -/

namespace Sys2Proof.Machine

/-! ### Reduced results -/

theorem f6Reduced_iff {a : Fp6} :
    f6Reduced a = true ↔ f2Reduced a.c0 = true ∧ f2Reduced a.c1 = true ∧ f2Reduced a.c2 = true := by
  rw [f6Reduced, Bool.and_eq_true, Bool.and_eq_true, and_assoc]

theorem f12Reduced_iff {x : Fp12} : f12Reduced x = true ↔ f6Reduced x.a = true ∧ f6Reduced x.b = true := by
  rw [f12Reduced, Bool.and_eq_true]

theorem f6add_reduced (a b : Fp6) : f6Reduced (f6add a b) = true :=
  f6Reduced_iff.2 ⟨f2add_reduced _ _, f2add_reduced _ _, f2add_reduced _ _⟩

theorem f6sub_reduced (a b : Fp6) : f6Reduced (f6sub a b) = true :=
  f6Reduced_iff.2 ⟨f2sub_reduced _ _, f2sub_reduced _ _, f2sub_reduced _ _⟩

theorem f6neg_reduced (a : Fp6) : f6Reduced (f6neg a) = true :=
  f6Reduced_iff.2 ⟨f2neg_reduced _, f2neg_reduced _, f2neg_reduced _⟩

theorem f6mul_reduced (a b : Fp6) : f6Reduced (f6mul a b) = true :=
  f6Reduced_iff.2 ⟨f2add_reduced _ _, f2add_reduced _ _, f2add_reduced _ _⟩

theorem f6mulv_reduced {a : Fp6} (h : f6Reduced a = true) : f6Reduced (f6mulv a) = true := by
  obtain ⟨h0, h1, -⟩ := f6Reduced_iff.1 h
  exact f6Reduced_iff.2 ⟨f2xi_reduced _, h0, h1⟩

theorem f6inv_reduced (a : Fp6) : f6Reduced (f6inv a) = true :=
  f6Reduced_iff.2 ⟨f2mul_reduced _ _, f2mul_reduced _ _, f2mul_reduced _ _⟩

theorem f6one_reduced : f6Reduced f6one = true := by decide

theorem f6zero_reduced : f6Reduced f6zero = true := by decide

theorem f12one_reduced : f12Reduced f12one = true := by decide

theorem f12zero_reduced : f12Reduced ⟨f6zero, f6zero⟩ = true := by decide

theorem f12mul_reduced (x y : Fp12) : f12Reduced (f12mul x y) = true :=
  f12Reduced_iff.2 ⟨f6add_reduced _ _, f6sub_reduced _ _⟩

theorem f12conj_reduced {x : Fp12} (h : f12Reduced x = true) : f12Reduced (f12conj x) = true :=
  f12Reduced_iff.2 ⟨(f12Reduced_iff.1 h).1, f6neg_reduced _⟩

theorem f12inv_reduced (x : Fp12) : f12Reduced (f12inv x) = true :=
  f12Reduced_iff.2 ⟨f6mul_reduced _ _, f6neg_reduced _⟩

theorem f12powLoop_reduced (x : Fp12) (e i : Nat) {r : Fp12} (h : f12Reduced r = true) :
    f12Reduced (f12powLoop x e i r) = true := by
  induction i generalizing r with
  | zero => exact h
  | succ i ih =>
    refine ih ?_
    split_ifs
    · exact f12mul_reduced _ _
    · exact f12mul_reduced _ _

theorem f12pow_reduced (x : Fp12) (e : Nat) : f12Reduced (f12pow x e) = true := by
  rw [f12pow]
  split_ifs
  · exact f12one_reduced
  · exact f12powLoop_reduced _ _ _ f12one_reduced

/-! ### Meanings in a ring (spec/46_bn254_pairing.md R260, R264, R265) -/

section
variable {A : Type} [CommRing A] {i v w : A}

theorem fp2In_zero : fp2In i f2zero = 0 := by simp [fp2In, f2zero]

theorem fp2In_one : fp2In i f2one = 1 := by simp [fp2In, f2one]

theorem fp2In_real (n : Nat) : fp2In i ⟨n, 0⟩ = (n : A) := by simp [fp2In]

theorem fp2In_sqr (hp : (bnP : A) = 0) (hi : i ^ 2 = -1) (a : Fp2) : fp2In i (f2sqr a) = fp2In i a ^ 2 := by
  rw [f2sqr, fp2In_mul hp hi, sq]

theorem fp6In_zero : fp6In i v f6zero = 0 := by simp [fp6In, f6zero, fp2In_zero]

theorem fp6In_one : fp6In i v f6one = 1 := by simp [fp6In, f6one, fp2In_zero, fp2In_one]

theorem fp12In_zero : fp12In i v w ⟨f6zero, f6zero⟩ = 0 := by simp [fp12In, fp6In_zero]

theorem fp12In_one : fp12In i v w f12one = 1 := by simp [fp12In, f12one, fp6In_zero, fp6In_one]

/-- An element of Fp2, embedded. -/
theorem fp12In_fp2 (a : Fp2) : fp12In i v w ⟨⟨a, f2zero, f2zero⟩, f6zero⟩ = fp2In i a := by
  rw [fp12In, fp6In_zero, fp6In, fp2In_zero]; ring

variable (h : TowerRoots i v w)
include h

theorem TowerRoots.p_eq_zero : (bnP : A) = 0 := h.1

theorem TowerRoots.i_sq : i ^ 2 = -1 := h.2.1

theorem TowerRoots.v_cube : v ^ 3 = 9 + i := h.2.2.1

theorem TowerRoots.w_sq : w ^ 2 = v := h.2.2.2

theorem fp6In_add (a b : Fp6) : fp6In i v (f6add a b) = fp6In i v a + fp6In i v b := by
  simp only [fp6In, f6add, fp2In_add h.p_eq_zero]
  ring

theorem fp6In_sub (a b : Fp6) : fp6In i v (f6sub a b) = fp6In i v a - fp6In i v b := by
  simp only [fp6In, f6sub, fp2In_sub h.p_eq_zero]
  ring

theorem fp6In_neg (a : Fp6) : fp6In i v (f6neg a) = -fp6In i v a := by
  simp only [fp6In, f6neg, fp2In_neg h.p_eq_zero]
  ring

/-- The three cross products of `f6mul` are those of the product, reduced by `v³ = 9 + i`. -/
theorem fp6In_mul (a b : Fp6) : fp6In i v (f6mul a b) = fp6In i v a * fp6In i v b := by
  simp only [fp6In, f6mul, fp2In_add h.p_eq_zero, fp2In_sub h.p_eq_zero, fp2In_mul h.p_eq_zero h.i_sq,
    fp2In_xi h.p_eq_zero h.i_sq]
  linear_combination -(fp2In i a.c1 * fp2In i b.c2 + fp2In i a.c2 * fp2In i b.c1 +
    fp2In i a.c2 * fp2In i b.c2 * v) * h.v_cube

theorem fp6In_mulv (a : Fp6) : fp6In i v (f6mulv a) = fp6In i v a * v := by
  simp only [fp6In, f6mulv, fp2In_xi h.p_eq_zero h.i_sq]
  linear_combination -fp2In i a.c2 * h.v_cube

theorem fp12In_mul (x y : Fp12) : fp12In i v w (f12mul x y) = fp12In i v w x * fp12In i v w y := by
  simp only [fp12In, f12mul, fp6In_add h, fp6In_sub h, fp6In_mul h, fp6In_mulv h]
  linear_combination -fp6In i v x.b * fp6In i v y.b * h.w_sq

theorem fp12In_sqr (x : Fp12) : fp12In i v w (f12sqr x) = fp12In i v w x ^ 2 := by
  rw [f12sqr, fp12In_mul h, sq]

theorem fp12In_conj (x : Fp12) : fp12In i v w (f12conj x) = fp6In i v x.a - fp6In i v x.b * w := by
  rw [f12conj, fp12In, fp6In_neg h, neg_mul, sub_eq_add_neg]

/-- The loop of `f12pow` keeps a power of `x` by the bits consumed. -/
theorem fp12In_powLoop (x : Fp12) (e n : Nat) {r : Fp12} (hr : fp12In i v w r = fp12In i v w x ^ (e >>> n)) :
    fp12In i v w (f12powLoop x e n r) = fp12In i v w x ^ e := by
  induction n generalizing r with
  | zero => exact hr
  | succ n ih =>
    refine ih ?_
    have hbit := bit_add_two_mul_shift e n
    have hsq : fp12In i v w (f12sqr r) = fp12In i v w x ^ (2 * (e >>> (n + 1))) := by
      rw [fp12In_sqr h, hr, ← pow_mul, mul_comm]
    split_ifs with h1
    · rw [fp12In_mul h, hsq, ← pow_succ, ← hbit, h1]
    · have h0 : bit e n = 0 := by have := bit_lt_two e n; omega
      rw [hsq, ← hbit, h0, add_zero]

theorem fp12In_pow (x : Fp12) (e : Nat) : fp12In i v w (f12pow x e) = fp12In i v w x ^ e := by
  rw [f12pow]
  split_ifs with he
  · rw [he, pow_zero, fp12In_one]
  · refine fp12In_powLoop h x e _ ?_
    rw [Nat.shiftRight_succ, shift_msb he, fp12In_one, pow_zero]

end

/-! ### Powers by `p` (spec/46_bn254_pairing.md R260, R265, R268) -/

section
variable {A : Type} [CommRing A] {i : A} (hp : (bnP : A) = 0)
include hp

theorem add_pow_bnP (x y : A) : (x + y) ^ bnP = x ^ bnP + y ^ bnP := by
  obtain ⟨r, hr⟩ := exists_add_pow_prime_eq bnP_prime x y
  rw [hr, hp]
  ring

/-- Fermat's little theorem, in a ring in which `p` is 0. -/
theorem natCast_pow_bnP (n : Nat) : (n : A) ^ bnP = n := by
  have : Fact bnP.Prime := ⟨bnP_prime⟩
  have hmod : n ^ bnP % bnP = n % bnP := (ZMod.natCast_eq_natCast_iff' _ _ _).1 (by rw [Nat.cast_pow, ZMod.pow_card])
  rw [← Nat.cast_pow, ← cast_mod_of_zero hp, hmod, cast_mod_of_zero hp]

theorem fp2In_conj (a : Fp2) : fp2In i (f2conj a) = a.re - a.im * i := by
  rw [fp2In, f2conj, negm_in hp bnP_pos, neg_mul, sub_eq_add_neg]

omit hp in
/-- `p` is 3 modulo 4. -/
theorem i_pow_bnP (hi : i ^ 2 = -1) : i ^ bnP = -i := by
  have hodd : bnP = 2 * ((bnP - 1) / 2) + 1 := by decide +kernel
  have hhalf : Odd ((bnP - 1) / 2) := Nat.odd_iff.2 (by decide +kernel)
  rw [hodd, pow_succ, pow_mul, hi, hhalf.neg_one_pow, neg_one_mul]

variable (hi : i ^ 2 = -1)
include hi

/-- The conjugate is the `p`-th power. -/
theorem fp2In_pow_bnP (a : Fp2) : fp2In i a ^ bnP = fp2In i (f2conj a) := by
  rw [fp2In_conj hp, fp2In, add_pow_bnP hp, mul_pow, natCast_pow_bnP hp, natCast_pow_bnP hp, i_pow_bnP hi]
  ring

theorem fp2In_pow_bnP_sq (a : Fp2) : fp2In i a ^ bnP ^ 2 = fp2In i a := by
  rw [sq, pow_mul, fp2In_pow_bnP hp hi, fp2In_pow_bnP hp hi, fp2In_conj hp, f2conj, negm_in hp bnP_pos, fp2In]
  ring

end

/-- `(9 + i)^((p - 1)/6)`, by which the `p`-th power multiplies `w`. -/
def xiSixth : Fp2 :=
  ⟨0x1284B71C2865A7DFE8B99FDD76E68B605C521E08292F2176D60B35DADCC9E470,
    0x246996F3B4FAE7E6A6327CFE12150B8E747992778EEEC7E5CA5CF05F80F362AC⟩

theorem xiSixth_eq_pow : f12pow ⟨⟨⟨9, 1⟩, f2zero, f2zero⟩, f6zero⟩ ((bnP - 1) / 6) =
    ⟨⟨xiSixth, f2zero, f2zero⟩, f6zero⟩ := by decide +kernel

/-- The constants of R268 are the powers of `xiSixth`, and its norm is the sixth root of unity `γ22 + 1`. -/
theorem xiSixth_powers : f2sqr xiSixth = ⟨gamma12Re, gamma12Im⟩ ∧
    f2mul xiSixth ⟨gamma12Re, gamma12Im⟩ = ⟨gamma13Re, gamma13Im⟩ ∧
    f2mul (f2conj xiSixth) xiSixth = ⟨gamma22Re + 1, 0⟩ := by decide +kernel

/-- The sixth root of unity by which the `p²`-th power multiplies `w`. -/
def rootSix (A : Type) [CommRing A] : A := gamma22Re + 1

section
variable {A : Type} [CommRing A] {i v w : A} (h : TowerRoots i v w)
include h

theorem gamma22_cube_root : (gamma22Re : A) ^ 2 + gamma22Re + 1 = 0 := by
  have hmod : (gamma22Re ^ 2 + gamma22Re + 1) % bnP = 0 := by decide +kernel
  have hcast := cast_mod_of_zero h.p_eq_zero (gamma22Re ^ 2 + gamma22Re + 1)
  rw [hmod] at hcast
  push_cast at hcast
  exact hcast.symm

theorem rootSix_sq : rootSix A ^ 2 = gamma22Re := by
  rw [rootSix]
  linear_combination gamma22_cube_root h

theorem rootSix_cube : rootSix A ^ 3 = -1 := by
  rw [pow_succ, rootSix_sq h, rootSix]
  linear_combination gamma22_cube_root h

theorem rootSix_pow_bnP : rootSix A ^ bnP = rootSix A := by
  rw [rootSix, ← Nat.cast_one, ← Nat.cast_add, natCast_pow_bnP h.p_eq_zero]

theorem rootSix_pow_bnP_sq : rootSix A ^ bnP ^ 2 = rootSix A := by
  rw [sq, pow_mul, rootSix_pow_bnP h, rootSix_pow_bnP h]

theorem xi_pow : (9 + i) ^ ((bnP - 1) / 6) = fp2In i xiSixth := by
  have heq := congrArg (fp12In i v w) xiSixth_eq_pow
  rw [fp12In_pow h, fp12In_fp2, fp12In_fp2] at heq
  rw [← heq, fp2In, Nat.cast_ofNat, Nat.cast_one, one_mul]

theorem w_pow_bnP : w ^ bnP = fp2In i xiSixth * w := by
  have hdiv : bnP = 6 * ((bnP - 1) / 6) + 1 := by decide +kernel
  have hw : w ^ 6 = 9 + i := by rw [← h.v_cube, ← h.w_sq, ← pow_mul]
  rw [← xi_pow h, ← hw, ← pow_mul, ← pow_succ, ← hdiv]

theorem xiSixth_norm : fp2In i (f2conj xiSixth) * fp2In i xiSixth = rootSix A := by
  obtain ⟨-, -, hnorm⟩ := xiSixth_powers
  rw [← fp2In_mul h.p_eq_zero h.i_sq, hnorm, fp2In_real, rootSix, Nat.cast_add, Nat.cast_one]

theorem w_pow_bnP_sq : w ^ bnP ^ 2 = rootSix A * w := by
  rw [sq, pow_mul, w_pow_bnP h, mul_pow, fp2In_pow_bnP h.p_eq_zero h.i_sq, w_pow_bnP h, ← mul_assoc, xiSixth_norm h]

theorem v_pow_bnP_sq : v ^ bnP ^ 2 = gamma22Re * v := by
  rw [← h.w_sq, ← pow_mul, mul_comm, pow_mul, w_pow_bnP_sq h, mul_pow, rootSix_sq h]

theorem add_pow_bnP_sq (x y : A) : (x + y) ^ bnP ^ 2 = x ^ bnP ^ 2 + y ^ bnP ^ 2 := by
  simp only [sq, pow_mul, add_pow_bnP h.p_eq_zero]

/-- The `p²`-th power fixes the coefficients of `1`, `v` and `v²` and multiplies `v` by `γ22`. -/
theorem triple_pow_bnP_sq {c0 c1 c2 : A} (h0 : c0 ^ bnP ^ 2 = c0) (h1 : c1 ^ bnP ^ 2 = c1) (h2 : c2 ^ bnP ^ 2 = c2) :
    (c0 + c1 * v + c2 * v ^ 2) ^ bnP ^ 2 = c0 + gamma22Re * c1 * v + gamma22Re ^ 2 * c2 * v ^ 2 := by
  rw [add_pow_bnP_sq h, add_pow_bnP_sq h, mul_pow, mul_pow, h0, h1, h2, ← pow_mul, mul_comm 2, pow_mul,
    v_pow_bnP_sq h]
  ring

theorem gamma22_mul_fixed {c : A} (hc : c ^ bnP ^ 2 = c) : (gamma22Re * c : A) ^ bnP ^ 2 = gamma22Re * c := by
  rw [mul_pow, hc, sq, pow_mul, natCast_pow_bnP h.p_eq_zero, natCast_pow_bnP h.p_eq_zero]

theorem fp6In_pow_bnP_sq (a : Fp6) : fp6In i v a ^ bnP ^ 2 =
    fp2In i a.c0 + gamma22Re * fp2In i a.c1 * v + gamma22Re ^ 2 * fp2In i a.c2 * v ^ 2 :=
  have fixed := fp2In_pow_bnP_sq h.p_eq_zero h.i_sq
  triple_pow_bnP_sq h (fixed _) (fixed _) (fixed _)

theorem fp6In_pow_bnP_four (a : Fp6) : (fp6In i v a ^ bnP ^ 2) ^ bnP ^ 2 =
    fp2In i a.c0 + gamma22Re ^ 2 * fp2In i a.c1 * v + gamma22Re * fp2In i a.c2 * v ^ 2 := by
  have fixed := fp2In_pow_bnP_sq h.p_eq_zero h.i_sq
  have fixed1 := gamma22_mul_fixed h (fixed a.c1)
  have fixed2 := gamma22_mul_fixed h (gamma22_mul_fixed h (fixed a.c2))
  rw [← mul_assoc, ← sq] at fixed2
  rw [fp6In_pow_bnP_sq h, triple_pow_bnP_sq h (fixed a.c0) fixed1 fixed2]
  linear_combination (gamma22Re * (gamma22Re - 1) * fp2In i a.c2 * v ^ 2 : A) * gamma22_cube_root h

omit h in
theorem pow_bnP_six (x : A) : x ^ bnP ^ 6 = ((x ^ bnP ^ 2) ^ bnP ^ 2) ^ bnP ^ 2 := by
  rw [← pow_mul, ← pow_mul, ← pow_add, ← pow_add]

theorem fp6In_pow_bnP_six (a : Fp6) : fp6In i v a ^ bnP ^ 6 = fp6In i v a := by
  have fixed := fp2In_pow_bnP_sq h.p_eq_zero h.i_sq
  have fixed1 := gamma22_mul_fixed h (gamma22_mul_fixed h (fixed a.c1))
  have fixed2 := gamma22_mul_fixed h (fixed a.c2)
  rw [← mul_assoc, ← sq] at fixed1
  rw [pow_bnP_six, fp6In_pow_bnP_four h, triple_pow_bnP_sq h (fixed a.c0) fixed1 fixed2, fp6In]
  linear_combination (gamma22Re - 1 : A) * (fp2In i a.c1 * v + fp2In i a.c2 * v ^ 2) * gamma22_cube_root h

theorem w_pow_bnP_six : w ^ bnP ^ 6 = -w := by
  have root := rootSix_pow_bnP_sq h
  rw [pow_bnP_six, w_pow_bnP_sq h, mul_pow, root, w_pow_bnP_sq h, mul_pow, mul_pow, root, w_pow_bnP_sq h]
  linear_combination w * rootSix_cube h

theorem add_pow_bnP_six (x y : A) : (x + y) ^ bnP ^ 6 = x ^ bnP ^ 6 + y ^ bnP ^ 6 := by
  simp only [pow_bnP_six, add_pow_bnP_sq h]

/-- The `p⁶`-th power changes the sign of `w`, as `f12conj` does (spec/46_bn254_pairing.md R265). -/
theorem fp12In_conj_eq_pow (x : Fp12) : fp12In i v w (f12conj x) = fp12In i v w x ^ bnP ^ 6 := by
  rw [fp12In_conj h, fp12In, add_pow_bnP_six h, mul_pow, fp6In_pow_bnP_six h, fp6In_pow_bnP_six h, w_pow_bnP_six h]
  ring

end

/-! ### A field in which the meanings are faithful -/

/-- An algebraically closed field has `i`, a sixth root `w` of `9 + i`, and `v = w²`. -/
theorem exists_tower : ∃ (K : Type) (_ : Field K) (i v w : K), TowerRoots i v w := by
  have : Fact bnP.Prime := ⟨bnP_prime⟩
  let K := AlgebraicClosure (ZMod bnP)
  obtain ⟨i, hi⟩ : ∃ i : K, i ^ 2 = -1 := IsAlgClosed.exists_pow_nat_eq _ two_pos
  obtain ⟨w, hw⟩ : ∃ w : K, w ^ 6 = 9 + i := IsAlgClosed.exists_pow_nat_eq _ (by norm_num)
  exact ⟨K, inferInstance, i, w ^ 2, w, CharP.cast_eq_zero K bnP, hi, by rw [← pow_mul, hw], rfl⟩

section
variable {K : Type} [Field K] {i : K} (hp : (bnP : K) = 0)
include hp

/-- Two numbers below `p` with the same image are the same. -/
theorem eq_of_natCast_eq {a b : Nat} (ha : a < bnP) (hb : b < bnP) (hab : (a : K) = b) : a = b := by
  have : Fact bnP.Prime := ⟨bnP_prime⟩
  have : CharP K bnP := ringChar.of_eq (CharP.ringChar_of_prime_eq_zero bnP_prime hp)
  exact Nat.ModEq.eq_of_lt_of_lt ((CharP.natCast_eq_natCast K bnP).1 hab) ha hb

theorem two_ne_zero_of_p : (2 : K) ≠ 0 := fun h2 => by
  have := eq_of_natCast_eq hp (a := 2) (b := 0) (by decide) (by decide) (by rw [Nat.cast_zero]; exact_mod_cast h2)
  omega

theorem three_ne_zero_of_p : (3 : K) ≠ 0 := fun h3 => by
  have := eq_of_natCast_eq hp (a := 3) (b := 0) (by decide) (by decide) (by rw [Nat.cast_zero]; exact_mod_cast h3)
  omega

/-- `1` and `i` are independent: the `p`-th power changes the sign of `i` only. -/
theorem fp2In_injective (hi : i ^ 2 = -1) {a b : Fp2} (ha : f2Reduced a = true) (hb : f2Reduced b = true)
    (hab : fp2In i a = fp2In i b) : a = b := by
  have hconj := congrArg (· ^ bnP) hab
  simp only [fp2In_pow_bnP hp hi, fp2In_conj hp] at hconj
  rw [fp2In, fp2In] at hab
  obtain ⟨are, aim⟩ := f2Reduced_iff.1 ha
  obtain ⟨bre, bim⟩ := f2Reduced_iff.1 hb
  have hi0 : i ≠ 0 := fun h0 => by rw [h0] at hi; norm_num at hi
  have h2 := two_ne_zero_of_p hp
  have hre : (a.re : K) = b.re := mul_left_cancel₀ h2 (by linear_combination hab + hconj)
  have him : (a.im : K) = b.im := mul_left_cancel₀ (mul_ne_zero h2 hi0) (by linear_combination hab - hconj)
  obtain ⟨x, y⟩ := a
  obtain ⟨x', y'⟩ := b
  rw [Fp2.mk.injEq]
  exact ⟨eq_of_natCast_eq hp are bre hre, eq_of_natCast_eq hp aim bim him⟩

end

section
variable {K : Type} [Field K] {i v w : K} (h : TowerRoots i v w)
include h

theorem v_ne_zero : v ≠ 0 := fun h0 => by
  have hxi : fp2In i ⟨9, 1⟩ = fp2In i f2zero := by
    rw [fp2In_zero, fp2In, Nat.cast_ofNat, Nat.cast_one, one_mul, ← h.v_cube, h0, zero_pow three_ne_zero]
  exact absurd (fp2In_injective h.p_eq_zero h.i_sq (by decide) (by decide) hxi) (by decide)

theorem w_ne_zero : w ≠ 0 := fun h0 => v_ne_zero h (by rw [← h.w_sq, h0, zero_pow two_ne_zero])

omit h in
/-- Three terms whose sums with the cube roots of unity as weights are 0 are all 0. -/
theorem eq_zero_of_root_sums {g d0 d1 d2 : K} (h3 : (3 : K) ≠ 0) (root : g ^ 2 + g + 1 = 0)
    (e0 : d0 + d1 + d2 = 0) (e1 : d0 + g * d1 + g ^ 2 * d2 = 0) (e2 : d0 + g ^ 2 * d1 + g * d2 = 0) :
    d0 = 0 ∧ d1 = 0 ∧ d2 = 0 := by
  refine ⟨?_, ?_, ?_⟩ <;> refine (mul_eq_zero.1 ?_).resolve_left h3
  · linear_combination e0 + e1 + e2 - (d1 + d2) * root
  · linear_combination e0 + g ^ 2 * e1 + g * e2 - (d0 + d1 * (2 * g - 2) + d2 * (g ^ 2 - g + 1)) * root
  · linear_combination e0 + g * e1 + g ^ 2 * e2 - (d0 + d1 * (g ^ 2 - g + 1) + d2 * (2 * g - 2)) * root

/-- `1`, `v` and `v²` are independent over Fp2: the `p²`-th power multiplies them by different roots of unity. -/
theorem fp6In_injective {a b : Fp6} (ha : f6Reduced a = true) (hb : f6Reduced b = true)
    (hab : fp6In i v a = fp6In i v b) : a = b := by
  have h1 := congrArg (· ^ bnP ^ 2) hab
  have h2 := congrArg (fun x => (x ^ bnP ^ 2) ^ bnP ^ 2) hab
  simp only [fp6In_pow_bnP_four h] at h2
  simp only [fp6In_pow_bnP_sq h] at h1
  rw [fp6In, fp6In] at hab
  have hv := v_ne_zero h
  obtain ⟨d0, d1, d2⟩ := eq_zero_of_root_sums (three_ne_zero_of_p h.p_eq_zero) (gamma22_cube_root h)
    (d0 := fp2In i a.c0 - fp2In i b.c0) (d1 := (fp2In i a.c1 - fp2In i b.c1) * v)
    (d2 := (fp2In i a.c2 - fp2In i b.c2) * v ^ 2) (by linear_combination hab) (by linear_combination h1)
    (by linear_combination h2)
  have e0 := sub_eq_zero.1 d0
  have e1 := sub_eq_zero.1 ((mul_eq_zero.1 d1).resolve_right hv)
  have e2 := sub_eq_zero.1 ((mul_eq_zero.1 d2).resolve_right (pow_ne_zero 2 hv))
  obtain ⟨ra0, ra1, ra2⟩ := f6Reduced_iff.1 ha
  obtain ⟨rb0, rb1, rb2⟩ := f6Reduced_iff.1 hb
  obtain ⟨a0, a1, a2⟩ := a
  obtain ⟨b0, b1, b2⟩ := b
  have inj := @fp2In_injective _ _ _ h.p_eq_zero h.i_sq
  rw [Fp6.mk.injEq]
  exact ⟨inj ra0 rb0 e0, inj ra1 rb1 e1, inj ra2 rb2 e2⟩

/-- `1` and `w` are independent over Fp6: the `p⁶`-th power changes the sign of `w` only. -/
theorem fp12In_injective {x y : Fp12} (hx : f12Reduced x = true) (hy : f12Reduced y = true)
    (hxy : fp12In i v w x = fp12In i v w y) : x = y := by
  have hconj := congrArg (· ^ bnP ^ 6) hxy
  simp only [← fp12In_conj_eq_pow h, fp12In_conj h] at hconj
  rw [fp12In, fp12In] at hxy
  have h2 := two_ne_zero_of_p h.p_eq_zero
  have ea : fp6In i v x.a = fp6In i v y.a := mul_left_cancel₀ h2 (by linear_combination hxy + hconj)
  have eb : fp6In i v x.b = fp6In i v y.b := mul_left_cancel₀ (mul_ne_zero h2 (w_ne_zero h))
    (by linear_combination hxy - hconj)
  obtain ⟨rxa, rxb⟩ := f12Reduced_iff.1 hx
  obtain ⟨rya, ryb⟩ := f12Reduced_iff.1 hy
  obtain ⟨a, b⟩ := x
  obtain ⟨a', b'⟩ := y
  rw [Fp12.mk.injEq]
  exact ⟨fp6In_injective h rxa rya ea, fp6In_injective h rxb ryb eb⟩

theorem fp6In_ne_zero {a : Fp6} (ha : f6Reduced a = true) (h0 : a ≠ f6zero) : fp6In i v a ≠ 0 := fun hz =>
  h0 (fp6In_injective h ha f6zero_reduced (hz.trans fp6In_zero.symm))

theorem fp12In_ne_zero {x : Fp12} (hx : f12Reduced x = true) (h0 : x ≠ ⟨f6zero, f6zero⟩) : fp12In i v w x ≠ 0 :=
  fun hz => h0 (fp12In_injective h hx f12zero_reduced (hz.trans fp12In_zero.symm))

/-! ### Inverses (spec/46_bn254_pairing.md R264, R265) -/

omit h in
theorem fp2In_inv (hp : (bnP : K) = 0) (hi : i ^ 2 = -1) {a : Fp2} (ha : f2Reduced a = true)
    (h0 : fp2In i a ≠ 0) : fp2In i (f2inv a) = (fp2In i a)⁻¹ := by
  refine eq_inv_of_mul_eq_one_right ?_
  rw [← fp2In_mul hp hi, f2mul_f2inv ha (fun hz => h0 (by rw [hz, fp2In_zero])), fp2In_one]

/-- The norm of `f6inv`: the product of an element with its `p²`-th and `p⁴`-th powers. -/
def f6norm (a : Fp6) : Fp2 :=
  f2add (f2mul a.c0 (f2sub (f2sqr a.c0) (f2xi (f2mul a.c1 a.c2))))
    (f2xi (f2add (f2mul a.c2 (f2sub (f2xi (f2sqr a.c2)) (f2mul a.c0 a.c1)))
      (f2mul a.c1 (f2sub (f2sqr a.c1) (f2mul a.c0 a.c2)))))

/-- The cofactor of `f6inv`: the product of the `p²`-th and the `p⁴`-th power. -/
def f6cofactor (a : Fp6) : Fp6 :=
  ⟨f2sub (f2sqr a.c0) (f2xi (f2mul a.c1 a.c2)), f2sub (f2xi (f2sqr a.c2)) (f2mul a.c0 a.c1),
    f2sub (f2sqr a.c1) (f2mul a.c0 a.c2)⟩

omit h in
theorem f6norm_reduced (a : Fp6) : f2Reduced (f6norm a) = true := f2add_reduced _ _

omit h in
theorem f6inv_eq (a : Fp6) : f6inv a = ⟨f2mul (f6cofactor a).c0 (f2inv (f6norm a)),
    f2mul (f6cofactor a).c1 (f2inv (f6norm a)), f2mul (f6cofactor a).c2 (f2inv (f6norm a))⟩ := rfl

theorem fp6In_cofactor (a : Fp6) :
    fp6In i v (f6cofactor a) = fp6In i v a ^ bnP ^ 2 * (fp6In i v a ^ bnP ^ 2) ^ bnP ^ 2 := by
  rw [fp6In_pow_bnP_four h, fp6In_pow_bnP_sq h]
  simp only [fp6In, f6cofactor, fp2In_sub h.p_eq_zero, fp2In_mul h.p_eq_zero h.i_sq, fp2In_sqr h.p_eq_zero h.i_sq,
    fp2In_xi h.p_eq_zero h.i_sq]
  have root := gamma22_cube_root h
  have hv := h.v_cube
  generalize (gamma22Re : K) = g at root
  generalize fp2In i a.c0 = c0
  generalize fp2In i a.c1 = c1
  generalize fp2In i a.c2 = c2
  linear_combination (c1 * c2 - c2 ^ 2 * v) * hv - ((g - 1) * ((c1 * v) ^ 2 + (c2 * v ^ 2) ^ 2) +
    c0 * (c1 * v + c2 * v ^ 2) + c1 * v * (c2 * v ^ 2) * (g ^ 2 - g + 1)) * root

theorem fp6In_mul_cofactor (a : Fp6) : fp6In i v a * fp6In i v (f6cofactor a) = fp2In i (f6norm a) := by
  simp only [fp6In, f6cofactor, f6norm, fp2In_sub h.p_eq_zero, fp2In_add h.p_eq_zero,
    fp2In_mul h.p_eq_zero h.i_sq, fp2In_sqr h.p_eq_zero h.i_sq, fp2In_xi h.p_eq_zero h.i_sq]
  have hv := h.v_cube
  generalize fp2In i a.c0 = c0
  generalize fp2In i a.c1 = c1
  generalize fp2In i a.c2 = c2
  linear_combination (c2 * ((9 + i) * c2 ^ 2 - c0 * c1) + (c1 + c2 * v) * (c1 ^ 2 - c0 * c2)) * hv

theorem fp6In_inv {a : Fp6} (h0 : fp6In i v a ≠ 0) : fp6In i v (f6inv a) = (fp6In i v a)⁻¹ := by
  have hco : fp6In i v (f6cofactor a) ≠ 0 := by
    rw [fp6In_cofactor h]
    exact mul_ne_zero (pow_ne_zero _ h0) (pow_ne_zero _ (pow_ne_zero _ h0))
  have hnorm : fp2In i (f6norm a) ≠ 0 := by
    rw [← fp6In_mul_cofactor h]
    exact mul_ne_zero h0 hco
  have hinv : fp6In i v (f6inv a) = fp6In i v (f6cofactor a) * (fp2In i (f6norm a))⁻¹ := by
    rw [f6inv_eq, ← fp2In_inv h.p_eq_zero h.i_sq (f6norm_reduced a) hnorm]
    simp only [fp6In, fp2In_mul h.p_eq_zero h.i_sq]
    ring
  refine eq_inv_of_mul_eq_one_right ?_
  rw [hinv, ← mul_assoc, fp6In_mul_cofactor h, mul_inv_cancel₀ hnorm]

theorem fp12In_inv {x : Fp12} (h0 : fp12In i v w x ≠ 0) : fp12In i v w (f12inv x) = (fp12In i v w x)⁻¹ := by
  have hnorm : fp6In i v (f6sub (f6mul x.a x.a) (f6mulv (f6mul x.b x.b))) =
      fp12In i v w x * fp12In i v w x ^ bnP ^ 6 := by
    rw [← fp12In_conj_eq_pow h, fp12In_conj h, fp12In, fp6In_sub h, fp6In_mulv h, fp6In_mul h, fp6In_mul h]
    linear_combination fp6In i v x.b ^ 2 * h.w_sq
  have hnorm0 := mul_ne_zero h0 (pow_ne_zero (bnP ^ 6) h0)
  have hinv : fp12In i v w (f12inv x) =
      (fp6In i v x.a - fp6In i v x.b * w) * (fp12In i v w x * fp12In i v w x ^ bnP ^ 6)⁻¹ := by
    rw [f12inv, fp12In, fp6In_neg h, fp6In_mul h, fp6In_mul h, fp6In_inv h (by rwa [hnorm]), hnorm]
    ring
  refine eq_inv_of_mul_eq_one_right ?_
  rw [hinv, ← fp12In_conj h, fp12In_conj_eq_pow h, ← mul_assoc, mul_inv_cancel₀ hnorm0]

end

/-! ### What holds of the meanings holds of the operations -/

/-- Fp12 operations are compared by their meanings in one field. -/
theorem exists_faithful_tower : ∃ (K : Type) (_ : Field K) (i v w : K), TowerRoots i v w ∧
    ∀ x y : Fp12, f12Reduced x = true → f12Reduced y = true → fp12In i v w x = fp12In i v w y → x = y := by
  obtain ⟨K, hK, i, v, w, h⟩ := exists_tower
  exact ⟨K, hK, i, v, w, h, fun _ _ => fp12In_injective h⟩

theorem f6mul_f6inv {a : Fp6} (ha : f6Reduced a = true) (h0 : a ≠ f6zero) : f6mul a (f6inv a) = f6one := by
  obtain ⟨K, hK, i, v, w, h⟩ := exists_tower
  have hne := fp6In_ne_zero h ha h0
  refine fp6In_injective h (f6mul_reduced _ _) f6one_reduced ?_
  rw [fp6In_mul h, fp6In_inv h hne, mul_inv_cancel₀ hne, fp6In_one]

theorem f12mul_f12inv {x : Fp12} (hx : f12Reduced x = true) (h0 : x ≠ ⟨f6zero, f6zero⟩) :
    f12mul x (f12inv x) = f12one := by
  obtain ⟨K, hK, i, v, w, h⟩ := exists_tower
  have hne := fp12In_ne_zero h hx h0
  refine fp12In_injective h (f12mul_reduced _ _) f12one_reduced ?_
  rw [fp12In_mul h, fp12In_inv h hne, mul_inv_cancel₀ hne, fp12In_one]

theorem f12pow_one_base (e : Nat) : f12pow f12one e = f12one := by
  obtain ⟨K, hK, i, v, w, h⟩ := exists_tower
  refine fp12In_injective h (f12pow_reduced _ _) f12one_reduced ?_
  rw [fp12In_pow h, fp12In_one, one_pow]

/-- The final exponentiation is the power; its test for 1 changes nothing (spec/46_bn254_pairing.md R271). -/
theorem finalExp_eq (x : Fp12) : finalExp x = f12pow x ((bnP ^ 12 - 1) / bnR) := by
  rw [finalExp, finalExponent]
  split_ifs with h1
  · rw [h1, f12pow_one_base]
  · rfl

/-- Settles O60: the operations in every ring with the roots of the tower, and a field in which the meanings are
faithful, where a nonzero element has an inverse. -/
theorem towerArithmetic : Obligations.TowerArithmetic := by
  unfold Obligations.TowerArithmetic
  refine ⟨fun A _ i v w h => ⟨fun a b _ _ => ⟨fp6In_add h a b, fp6In_sub h a b, fp6In_neg h a, fp6In_mul h a b,
    fp6In_mulv h a⟩, fp12In_one, fun x y _ _ => ⟨fp12In_mul h x y, fp12In_sqr h x, fp12In_conj h x,
    fp12In_conj_eq_pow h x, fp12In_pow h x⟩⟩, fun a b ha _ => ⟨?_, f6mul_f6inv ha⟩,
    fun x y hx _ => ⟨?_, f12mul_f12inv hx, finalExp_eq x⟩, exists_faithful_tower⟩
  · simp only [List.forall_mem_cons, List.not_mem_nil, false_implies, implies_true, and_true]
    exact ⟨f6add_reduced a b, f6sub_reduced a b, f6neg_reduced a, f6mul_reduced a b, f6mulv_reduced ha,
      f6inv_reduced a⟩
  · simp only [List.forall_mem_cons, List.not_mem_nil, false_implies, implies_true, and_true]
    exact ⟨f12one_reduced, f12mul_reduced x y, f12mul_reduced x x, f12conj_reduced hx, f12inv_reduced x,
      by rw [finalExp_eq]; exact f12pow_reduced _ _⟩

end Sys2Proof.Machine
end

section
/-! PROOF. The product check of BN254_ECPAIRING (spec/46_bn254_pairing.md R268 to R271, R273, R276): the product does
not depend on the order of the pairs and skips identities; the Miller loop, its lines and its Frobenius maps. -/

namespace Sys2Proof.Machine

/-! ### Products of Fp12 elements (spec/46_bn254_pairing.md R265, R276) -/

theorem f12mul_assoc (x y z : Fp12) : f12mul (f12mul x y) z = f12mul x (f12mul y z) := by
  obtain ⟨K, hK, i, v, w, h⟩ := exists_tower
  refine fp12In_injective h (f12mul_reduced _ _) (f12mul_reduced _ _) ?_
  rw [fp12In_mul h, fp12In_mul h, fp12In_mul h, fp12In_mul h, mul_assoc]

theorem f12mul_comm (x y : Fp12) : f12mul x y = f12mul y x := by
  obtain ⟨K, hK, i, v, w, h⟩ := exists_tower
  refine fp12In_injective h (f12mul_reduced _ _) (f12mul_reduced _ _) ?_
  rw [fp12In_mul h, fp12In_mul h, mul_comm]

theorem f12mul_one {x : Fp12} (hx : f12Reduced x = true) : f12mul x f12one = x := by
  obtain ⟨K, hK, i, v, w, h⟩ := exists_tower
  refine fp12In_injective h (f12mul_reduced _ _) hx ?_
  rw [fp12In_mul h, fp12In_one, mul_one]

theorem f12Product_reduced (fs : List Fp12) : f12Reduced (f12Product fs) = true := by
  cases fs with
  | nil => exact f12one_reduced
  | cons f fs => exact f12mul_reduced _ _

/-! ### The product of the Miller values (spec/46_bn254_pairing.md R273) -/

theorem millerProduct_cons_proper {k : Pair} (h : isId k.g1 = false ∧ isId2 k.g2 = false) (ks : List Pair)
    (f : Fp12) : millerProduct (k :: ks) f = (miller k.g1 k.g2 >>= fun v => millerProduct ks (f12mul f v)) := by
  obtain ⟨h1, h2⟩ := h
  rw [millerProduct, h1, h2]
  rfl

theorem millerProduct_cons_identity {k : Pair} (h : isId k.g1 = true ∨ isId2 k.g2 = true) (ks : List Pair)
    (f : Fp12) : millerProduct (k :: ks) f = millerProduct ks f := by
  have htest : (!isId k.g1 && !isId2 k.g2) = false := by
    rcases h with h | h <;> rw [h] <;> simp
  rw [millerProduct, htest]
  rfl

/-- A pair has an identity or is proper. -/
theorem proper_or_identity (k : Pair) :
    (isId k.g1 = false ∧ isId2 k.g2 = false) ∨ (isId k.g1 = true ∨ isId2 k.g2 = true) := by
  cases isId k.g1 <;> cases isId2 k.g2 <;> simp

theorem millerProduct_append (ks ks' : List Pair) (f : Fp12) :
    millerProduct (ks ++ ks') f = (millerProduct ks f >>= millerProduct ks') := by
  induction ks generalizing f with
  | nil => rfl
  | cons k ks ih =>
    rw [List.cons_append]
    rcases proper_or_identity k with h | h
    · rw [millerProduct_cons_proper h, millerProduct_cons_proper h, bind_assoc]
      simp only [ih]
    · rw [millerProduct_cons_identity h, millerProduct_cons_identity h, ih]

/-- Two neighbours may change places: multiplication in Fp12 is commutative. -/
theorem millerProduct_swap {k k' : Pair} {ks : List Pair} {f g : Fp12}
    (hok : millerProduct (k :: k' :: ks) f = .ok g) : millerProduct (k' :: k :: ks) f = .ok g := by
  rcases proper_or_identity k with h | h
  · rcases proper_or_identity k' with h' | h'
    · simp only [millerProduct_cons_proper h, millerProduct_cons_proper h', bind_ok_iff] at hok ⊢
      obtain ⟨v, hv, v', hv', hok⟩ := hok
      refine ⟨v', hv', v, hv, ?_⟩
      rwa [f12mul_assoc, f12mul_comm v', ← f12mul_assoc]
    · rw [millerProduct_cons_proper h] at hok
      rw [millerProduct_cons_identity h', millerProduct_cons_proper h]
      simpa only [millerProduct_cons_identity h'] using hok
  · rw [millerProduct_cons_identity h] at hok
    rcases proper_or_identity k' with h' | h'
    · rw [millerProduct_cons_proper h'] at hok ⊢
      simpa only [millerProduct_cons_identity h] using hok
    · rwa [millerProduct_cons_identity h', millerProduct_cons_identity h, ← millerProduct_cons_identity h']

theorem millerProduct_perm {ks ks' : List Pair} (hp : ks.Perm ks') {f g : Fp12}
    (hok : millerProduct ks f = .ok g) : millerProduct ks' f = .ok g := by
  induction hp generalizing f with
  | nil => exact hok
  | cons k _ ih =>
    rcases proper_or_identity k with h | h
    · simp only [millerProduct_cons_proper h, bind_ok_iff] at hok ⊢
      obtain ⟨v, hv, hok⟩ := hok
      exact ⟨v, hv, ih hok⟩
    · rw [millerProduct_cons_identity h] at hok ⊢
      exact ih hok
  | swap k k' ks => exact millerProduct_swap hok
  | trans _ _ ih1 ih2 => exact ih2 (ih1 hok)

/-- Without identities the product is that of all Miller values. -/
theorem millerProduct_of_values {ks : List Pair} {fs : List Fp12}
    (hks : ∀ k ∈ ks, isId k.g1 = false ∧ isId2 k.g2 = false)
    (hfs : List.Forall₂ (fun k f => miller k.g1 k.g2 = .ok f) ks fs) {f : Fp12} (hf : f12Reduced f = true) :
    millerProduct ks f = .ok (f12mul f (f12Product fs)) := by
  induction hfs generalizing f with
  | nil => rw [f12Product, f12mul_one hf]; rfl
  | cons hv _ ih =>
    rw [millerProduct_cons_proper (hks _ List.mem_cons_self), hv, ok_bind,
      ih (fun k hk => hks k (List.mem_cons_of_mem _ hk)) (f12mul_reduced _ _), f12mul_assoc]
    rfl

theorem pairingCheck_ok_iff {ks : List Pair} {b : Bool} :
    pairingCheck ks = .ok b ↔ ∃ f, millerProduct ks f12one = .ok f ∧ decide (finalExp f = f12one) = b := by
  rw [pairingCheck, bind_ok_iff]
  refine exists_congr fun f => and_congr_right fun _ => ?_
  exact ⟨Except.ok.inj, congrArg Except.ok⟩

theorem pairingCheck_perm {ks ks' : List Pair} {b : Bool} (hp : ks.Perm ks') (h : pairingCheck ks = .ok b) :
    pairingCheck ks' = .ok b := by
  obtain ⟨f, hf, hb⟩ := pairingCheck_ok_iff.1 h
  exact pairingCheck_ok_iff.2 ⟨f, millerProduct_perm hp hf, hb⟩

theorem pairingCheck_identity (pre post : List Pair) {k : Pair} (h : isId k.g1 = true ∨ isId2 k.g2 = true) :
    pairingCheck (pre ++ k :: post) = pairingCheck (pre ++ post) := by
  have hskip : millerProduct (k :: post) = millerProduct post := funext (millerProduct_cons_identity h post)
  rw [pairingCheck, pairingCheck, millerProduct_append, millerProduct_append, hskip]

theorem pairingCheck_of_values {ks : List Pair} {fs : List Fp12}
    (hks : ∀ k ∈ ks, isId k.g1 = false ∧ isId2 k.g2 = false)
    (hfs : List.Forall₂ (fun k f => miller k.g1 k.g2 = .ok f) ks fs) :
    pairingCheck ks = .ok (decide (f12pow (f12Product fs) ((bnP ^ 12 - 1) / bnR) = f12one)) := by
  refine pairingCheck_ok_iff.2 ⟨_, millerProduct_of_values hks hfs f12one_reduced, ?_⟩
  rw [f12mul_comm, f12mul_one (f12Product_reduced fs), finalExp_eq]

/-! ### The Miller loop over the bits of `6u + 2` (spec/46_bn254_pairing.md R270) -/

/-- The turn of the loop of R270 for the bit `n`. -/
def millerTurn (pt : Point) (q : G2) (ft : Fp12 × G2) (n : Nat) : Except FaultCause (Fp12 × G2) :=
  line ft.2 ft.2 pt >>= fun d =>
    if (6 * bnU + 2).testBit n then
      line d.2 q pt >>= fun a => .ok (f12mul (f12mul (f12sqr ft.1) d.1) a.1, a.2)
    else .ok (f12mul (f12sqr ft.1) d.1, d.2)

theorem millerByBits_eq (pt : Point) (q : G2) :
    millerByBits pt q = ((List.range 64).reverse.foldlM (millerTurn pt q) (f12one, q) >>= fun ft =>
      line ft.2 (g2Frob q) pt >>= fun a => line a.2 (g2NegFrob2 q) pt >>= fun b =>
        .ok (f12mul (f12mul ft.1 a.1) b.1)) := rfl

/-- One turn of the model's loop is one turn of R270. -/
theorem millerLoop_succ (pt : Point) (q : G2) (n : Nat) (acc : MillerAcc) :
    millerLoop pt q (n + 1) acc =
      (millerTurn pt q (acc.f, acc.t) n >>= fun ft => millerLoop pt q n ⟨ft.1, ft.2⟩) := by
  have hbit : (bit bnLoop n = 1) = ((6 * bnU + 2).testBit n = true) := by
    rw [show bnLoop = 6 * bnU + 2 from by decide, bit, Nat.testBit_eq_decide_div_mod_eq, Nat.shiftRight_eq_div_pow,
      decide_eq_true_eq]
  simp only [millerLoop, millerTurn, millerDbl, millerAdd, hbit, bind_assoc]
  refine bind_congr fun d => ?_
  split_ifs
  · simp only [pure_bind, bind_assoc, ok_bind]
  · rfl

theorem millerLoop_eq_foldlM (pt : Point) (q : G2) (n : Nat) (f : Fp12) (t : G2) :
    millerLoop pt q n ⟨f, t⟩ =
      ((List.range n).reverse.foldlM (millerTurn pt q) (f, t) >>= fun ft => .ok ⟨ft.1, ft.2⟩) := by
  induction n generalizing f t with
  | zero => rfl
  | succ n ih =>
    rw [millerLoop_succ, List.range_succ, List.reverse_append, List.reverse_singleton, List.singleton_append,
      List.foldlM_cons, bind_assoc]
    exact bind_congr fun ft => ih ft.1 ft.2

theorem miller_eq_millerByBits (pt : Point) (q : G2) : miller pt q = millerByBits pt q := by
  rw [miller, millerByBits_eq, show msb bnLoop = 64 from by decide, millerLoop_eq_foldlM, bind_assoc]
  simp only [millerAdd, bind_assoc]
  rfl

/-! ### The lines (spec/46_bn254_pairing.md R269) -/

theorem g2Reduced_iff {q : G2} : g2Reduced q = true ↔ f2Reduced q.x = true ∧ f2Reduced q.y = true := by
  rw [g2Reduced, Bool.and_eq_true]

theorem g2ChordPoint_reduced (lam : Fp2) (t q : G2) : g2Reduced (g2ChordPoint lam t q) = true :=
  g2Reduced_iff.2 ⟨f2sub_reduced _ _, f2sub_reduced _ _⟩

theorem g2_eq_of_components {t q : G2} (hx : t.x = q.x) (hy : t.y = q.y) : t = q := by
  obtain ⟨x, y⟩ := t
  obtain ⟨x', y'⟩ := q
  rw [G2.mk.injEq]
  exact ⟨hx, hy⟩

theorem isId2_iff {q : G2} : isId2 q = true ↔ q = g2Identity := decide_eq_true_iff

section
variable {K : Type} [Field K] {i : K} (hp : (bnP : K) = 0) (hi : i ^ 2 = -1)
include hp hi

theorem fp2In_eq_zero_iff {a : Fp2} (ha : f2Reduced a = true) : fp2In i a = 0 ↔ a = f2zero := by
  constructor
  · exact fun h => fp2In_injective hp hi ha f2zero_reduced (h.trans fp2In_zero.symm)
  · rintro rfl
    exact fp2In_zero

theorem fp2In_two_mul (a : Fp2) : fp2In i (f2mul ⟨2, 0⟩ a) = 2 * fp2In i a := by
  rw [fp2In_mul hp hi, fp2In_real, Nat.cast_ofNat]

theorem fp2In_three_mul (a : Fp2) : fp2In i (f2mul ⟨3, 0⟩ a) = 3 * fp2In i a := by
  rw [fp2In_mul hp hi, fp2In_real, Nat.cast_ofNat]

/-- The slope of a tangent at a point whose ordinate is not 0. -/
theorem g2Slope_tangent {t : G2} (ht : g2Reduced t = true) (hy : t.y ≠ f2zero) :
    ∃ lam, g2Slope t t = .ok lam ∧ f2Reduced lam = true ∧ fp2In i lam = 3 * fp2In i t.x ^ 2 / (2 * fp2In i t.y) := by
  have h0 : fp2In i (f2mul ⟨2, 0⟩ t.y) ≠ 0 := by
    rw [fp2In_two_mul hp hi]
    exact mul_ne_zero (two_ne_zero_of_p hp) (mt (fp2In_eq_zero_iff hp hi (g2Reduced_iff.1 ht).2).1 hy)
  refine ⟨_, by rw [g2Slope, if_pos rfl, if_neg hy], f2mul_reduced _ _, ?_⟩
  rw [fp2In_mul hp hi, fp2In_inv hp hi (f2mul_reduced _ _) h0, fp2In_two_mul hp hi, fp2In_three_mul hp hi,
    fp2In_sqr hp hi, div_eq_mul_inv]

/-- The slope of the line through two points whose abscissas differ. -/
theorem g2Slope_chord {t q : G2} (ht : g2Reduced t = true) (hq : g2Reduced q = true) (hx : t.x ≠ q.x) :
    ∃ lam, g2Slope t q = .ok lam ∧ f2Reduced lam = true ∧
      fp2In i lam = (fp2In i q.y - fp2In i t.y) / (fp2In i q.x - fp2In i t.x) := by
  have hne : t ≠ q := fun h => hx (congrArg G2.x h)
  have h0 : fp2In i (f2sub q.x t.x) ≠ 0 := by
    rw [fp2In_sub hp, sub_ne_zero]
    exact fun h => hx (fp2In_injective hp hi (g2Reduced_iff.1 ht).1 (g2Reduced_iff.1 hq).1 h.symm)
  refine ⟨_, by rw [g2Slope, if_neg hne, if_neg hx], f2mul_reduced _ _, ?_⟩
  rw [fp2In_mul hp hi, fp2In_inv hp hi (f2sub_reduced _ _) h0, fp2In_sub hp, fp2In_sub hp, div_eq_mul_inv]

end

theorem line_eq {t q : G2} {lam : Fp2} (h : g2Slope t q = .ok lam) (pt : Point) :
    line t q pt = .ok (lineValue lam t pt, g2ChordPoint lam t q) := by
  rw [line, h]
  rfl

/-- On its domain the line has a slope with the equation of R269. -/
theorem g2Slope_spec {t q : G2} (ht : g2Reduced t = true) (hq : g2Reduced q = true)
    (hd : if t = q then t.y ≠ f2zero else t.x ≠ q.x) :
    ∃ lam, g2Slope t q = .ok lam ∧ f2Reduced lam = true ∧
      (t = q → f2mul lam (f2mul ⟨2, 0⟩ t.y) = f2mul ⟨3, 0⟩ (f2sqr t.x)) ∧
      (t ≠ q → f2mul lam (f2sub q.x t.x) = f2sub q.y t.y) := by
  obtain ⟨K, hK, i, v, w, h⟩ := exists_tower
  obtain ⟨htx, hty⟩ := g2Reduced_iff.1 ht
  obtain ⟨hqx, -⟩ := g2Reduced_iff.1 hq
  by_cases heq : t = q
  · subst heq
    rw [if_pos rfl] at hd
    obtain ⟨lam, hlam, hred, hval⟩ := g2Slope_tangent h.p_eq_zero h.i_sq ht hd
    refine ⟨lam, hlam, hred, fun _ => ?_, fun hne => absurd rfl hne⟩
    refine fp2In_injective h.p_eq_zero h.i_sq (f2mul_reduced _ _) (f2mul_reduced _ _) ?_
    have h0 := mul_ne_zero (two_ne_zero_of_p h.p_eq_zero)
      (mt (fp2In_eq_zero_iff h.p_eq_zero h.i_sq hty).1 hd)
    rw [fp2In_mul h.p_eq_zero h.i_sq, fp2In_two_mul h.p_eq_zero h.i_sq, fp2In_three_mul h.p_eq_zero h.i_sq,
      fp2In_sqr h.p_eq_zero h.i_sq, hval, div_mul_cancel₀ _ h0]
  · rw [if_neg heq] at hd
    obtain ⟨lam, hlam, hred, hval⟩ := g2Slope_chord h.p_eq_zero h.i_sq ht hq hd
    refine ⟨lam, hlam, hred, fun hc => absurd hc heq, fun _ => ?_⟩
    refine fp2In_injective h.p_eq_zero h.i_sq (f2mul_reduced _ _) (f2sub_reduced _ _) ?_
    have h0 := sub_ne_zero.2 fun hc => hd (fp2In_injective h.p_eq_zero h.i_sq htx hqx hc.symm)
    rw [fp2In_mul h.p_eq_zero h.i_sq, fp2In_sub h.p_eq_zero, fp2In_sub h.p_eq_zero, hval, div_mul_cancel₀ _ h0]

/-- Twice an element not 0 is not 0. -/
theorem f2add_self_ne_zero {a : Fp2} (ha : f2Reduced a = true) (h0 : a ≠ f2zero) : f2add a a ≠ f2zero := fun hz => by
  obtain ⟨K, hK, i, v, w, h⟩ := exists_tower
  have hsum := congrArg (fp2In i) hz
  rw [fp2In_add h.p_eq_zero, fp2In_zero, ← two_mul] at hsum
  exact h0 ((fp2In_eq_zero_iff h.p_eq_zero h.i_sq ha).1
    ((mul_eq_zero.1 hsum).resolve_left (two_ne_zero_of_p h.p_eq_zero)))

/-- Complete addition of two points that are neither the identity nor opposite (spec/46_bn254_pairing.md R266). -/
theorem g2Cadd_of_slope {t q : G2} {lam : Fp2} (ht : g2Reduced t = true) (hq : g2Reduced q = true)
    (ht0 : t ≠ g2Identity) (hq0 : q ≠ g2Identity) (hopp : ¬ (t.x = q.x ∧ f2add t.y q.y = f2zero))
    (hlam : g2Slope t q = .ok lam) : g2Cadd t q = .ok (g2ChordPoint lam t q) := by
  rw [g2Cadd, ht, hq, Bool.and_self, require_true, ok_bind, if_neg (mt isId2_iff.1 ht0), if_neg (mt isId2_iff.1 hq0),
    if_neg hopp, hlam]
  rfl

/-- On the domain of the line its sum is that of complete addition. -/
theorem not_opposite_of_line_domain {t q : G2} (ht : g2Reduced t = true)
    (hd : if t = q then t.y ≠ f2zero else t.x ≠ q.x) : ¬ (t.x = q.x ∧ f2add t.y q.y = f2zero) := by
  rintro ⟨hx, hy⟩
  by_cases heq : t = q
  · subst heq
    rw [if_pos rfl] at hd
    exact f2add_self_ne_zero (g2Reduced_iff.1 ht).2 hd hy
  · rw [if_neg heq] at hd
    exact hd hx

section
variable {A : Type} [CommRing A] {i v w : A} (h : TowerRoots i v w)
include h

/-- The two halves of a line: the ordinate of the G1 point, and the terms in `w`. -/
theorem lineValue_halves (lam : Fp2) (t : G2) (pt : Point) : fp6In i v (lineValue lam t pt).a = pt.y ∧
    fp6In i v (lineValue lam t pt).b =
      -(fp2In i lam * pt.x) + (fp2In i lam * fp2In i t.x - fp2In i t.y) * v := by
  simp only [lineValue, fp6In, fp2In_zero, fp2In_real, fp2In_neg h.p_eq_zero, fp2In_sub h.p_eq_zero,
    fp2In_mul h.p_eq_zero h.i_sq, zero_mul, add_zero, and_self]

/-- The value of a line in the tower (spec/46_bn254_pairing.md R269). -/
theorem fp12In_lineValue (lam : Fp2) (t : G2) (pt : Point) : fp12In i v w (lineValue lam t pt) =
    pt.y - fp2In i lam * pt.x * w + (fp2In i lam * fp2In i t.x - fp2In i t.y) * v * w := by
  obtain ⟨ha, hb⟩ := lineValue_halves h lam t pt
  rw [fp12In, ha, hb]
  ring

/-! ### The Frobenius maps (spec/46_bn254_pairing.md R268) -/

theorem gamma12_in : fp2In i ⟨gamma12Re, gamma12Im⟩ = fp2In i xiSixth ^ 2 := by
  obtain ⟨h12, -, -⟩ := xiSixth_powers
  rw [← h12, fp2In_sqr h.p_eq_zero h.i_sq]

theorem gamma13_in : fp2In i ⟨gamma13Re, gamma13Im⟩ = fp2In i xiSixth ^ 3 := by
  obtain ⟨-, h13, -⟩ := xiSixth_powers
  rw [← h13, fp2In_mul h.p_eq_zero h.i_sq, gamma12_in h, ← pow_succ']

theorem gamma22_in : fp2In i ⟨gamma22Re, 0⟩ = rootSix A ^ 2 := by
  rw [rootSix_sq h, fp2In_real]

theorem gamma23_in : fp2In i ⟨gamma23Re, 0⟩ = rootSix A ^ 3 := by
  rw [rootSix_cube h, fp2In_real, gamma23Re, Nat.cast_sub bnP_pos, h.p_eq_zero, Nat.cast_one, zero_sub]

/-- The `p`-th power of an element of Fp2 times a power of `w`. -/
theorem fp2In_mul_w_pow_bnP (a : Fp2) (n : Nat) :
    (fp2In i a * w ^ n) ^ bnP = fp2In i (f2conj a) * fp2In i xiSixth ^ n * w ^ n := by
  rw [mul_pow, fp2In_pow_bnP h.p_eq_zero h.i_sq, ← pow_mul, mul_comm n, pow_mul, w_pow_bnP h, mul_pow, mul_assoc]

theorem fp2In_mul_w_pow_bnP_sq (a : Fp2) (n : Nat) :
    (fp2In i a * w ^ n) ^ bnP ^ 2 = fp2In i a * rootSix A ^ n * w ^ n := by
  rw [mul_pow, fp2In_pow_bnP_sq h.p_eq_zero h.i_sq, ← pow_mul, mul_comm n, pow_mul, w_pow_bnP_sq h, mul_pow, mul_assoc]

theorem g2Frob_in (q : G2) : (fp2In i q.x * w ^ 2) ^ bnP = fp2In i (g2Frob q).x * w ^ 2 ∧
    (fp2In i q.y * w ^ 3) ^ bnP = fp2In i (g2Frob q).y * w ^ 3 := by
  constructor
  · rw [fp2In_mul_w_pow_bnP h, g2Frob, fp2In_mul h.p_eq_zero h.i_sq, gamma12_in h]
  · rw [fp2In_mul_w_pow_bnP h, g2Frob, fp2In_mul h.p_eq_zero h.i_sq, gamma13_in h]

theorem g2NegFrob2_in (q : G2) : (fp2In i q.x * w ^ 2) ^ bnP ^ 2 = fp2In i (g2NegFrob2 q).x * w ^ 2 ∧
    (fp2In i q.y * w ^ 3) ^ bnP ^ 2 = -(fp2In i (g2NegFrob2 q).y * w ^ 3) := by
  constructor
  · rw [fp2In_mul_w_pow_bnP_sq h, g2NegFrob2, fp2In_mul h.p_eq_zero h.i_sq, gamma22_in h]
  · rw [fp2In_mul_w_pow_bnP_sq h, g2NegFrob2, fp2In_neg h.p_eq_zero, fp2In_mul h.p_eq_zero h.i_sq, gamma23_in h]
    ring

end

/-- Settles O53: the product of Miller values in the commutative ring Fp12, the loop turn by turn, a line through its
slope, and the constants of R268 as powers of `(9 + i)^((p - 1)/6)`. -/
theorem pairOrderIrrelevant : Obligations.PairOrderIrrelevant := by
  unfold Obligations.PairOrderIrrelevant
  refine ⟨fun _ _ _ => pairingCheck_perm, fun pre post _ => pairingCheck_identity pre post,
    fun _ _ => pairingCheck_of_values, miller_eq_millerByBits, fun t q pt ht hq hd => ?_, fun A _ i v w h q _ => ?_⟩
  · obtain ⟨lam, hlam, hred, htan, hchord⟩ := g2Slope_spec ht hq hd
    exact ⟨lam, _, _, line_eq hlam pt, hred, g2ChordPoint_reduced lam t q, htan, hchord, rfl, rfl,
      fun ht0 hq0 => g2Cadd_of_slope ht hq ht0 hq0 (not_opposite_of_line_domain ht hd) hlam,
      fun A _ i v w h => fp12In_lineValue h lam t pt⟩
  · obtain ⟨hx, hy⟩ := g2Frob_in h q
    exact ⟨hx, hy, g2NegFrob2_in h q⟩

end Sys2Proof.Machine
end

section
/-! PROOF. Validation of BN254_ECPAIRING's pairs (spec/46_bn254_pairing.md R266, R274): complete addition and
multiplication on the twist are those of its group, and the codes come in their order. -/

namespace Sys2Proof.Machine

open WeierstrassCurve

/-! ### Complete addition, case by case (spec/46_bn254_pairing.md R266) -/

section
variable {t q : G2} (ht : g2Reduced t = true) (hq : g2Reduced q = true)
include ht hq

theorem g2Cadd_identity_left (h : t = g2Identity) : g2Cadd t q = .ok q := by
  rw [g2Cadd, ht, hq, Bool.and_self, require_true, ok_bind, if_pos (isId2_iff.2 h)]
  rfl

theorem g2Cadd_identity_right (h1 : t ≠ g2Identity) (h2 : q = g2Identity) : g2Cadd t q = .ok t := by
  rw [g2Cadd, ht, hq, Bool.and_self, require_true, ok_bind, if_neg (mt isId2_iff.1 h1), if_pos (isId2_iff.2 h2)]
  rfl

theorem g2Cadd_opposite (h1 : t ≠ g2Identity) (h2 : q ≠ g2Identity) (h : t.x = q.x ∧ f2add t.y q.y = f2zero) :
    g2Cadd t q = .ok g2Identity := by
  rw [g2Cadd, ht, hq, Bool.and_self, require_true, ok_bind, if_neg (mt isId2_iff.1 h1), if_neg (mt isId2_iff.1 h2),
    if_pos h]
  rfl

end

/-! ### The group of the twist (spec/46_bn254_pairing.md R266) -/

section
variable {K : Type} [Field K] {i : K}

theorem twistCurve_negY (x y : K) : (twistCurve i).negY x y = -y := by
  simp [Affine.negY, twistCurve]

theorem twistCurve_addX (x1 x2 l : K) : (twistCurve i).addX x1 x2 l = l ^ 2 - x1 - x2 := by
  simp [Affine.addX, twistCurve]

theorem twistCurve_addY [DecidableEq K] (x1 x2 y1 l : K) :
    (twistCurve i).addY x1 x2 y1 l = l * (x1 - (l ^ 2 - x1 - x2)) - y1 := by
  rw [Affine.addY, twistCurve_negY, Affine.negAddY, twistCurve_addX]
  ring

theorem representsG2_zero_iff {q : G2} : RepresentsG2 q (0 : (twistCurve i).Point) ↔ q = g2Identity := Iff.rfl

/-- What a G2 point that stands for a point of the group can be. -/
theorem representsG2_cases {q : G2} {g : (twistCurve i).Point} (h : RepresentsG2 q g) :
    (q = g2Identity ∧ g = 0) ∨ ∃ hn : (twistCurve i).Nonsingular (fp2In i q.x) (fp2In i q.y),
      g2Reduced q = true ∧ g = .some _ _ hn := by
  cases g with
  | zero => exact .inl ⟨h, rfl⟩
  | some x y hn =>
    obtain ⟨hr, rfl, rfl⟩ := h
    exact .inr ⟨hn, hr, rfl⟩

theorem g2Identity_reduced : g2Reduced g2Identity = true := by decide

theorem representsG2_reduced {q : G2} {g : (twistCurve i).Point} (h : RepresentsG2 q g) : g2Reduced q = true := by
  obtain ⟨rfl, -⟩ | ⟨-, hr, -⟩ := representsG2_cases h
  · exact g2Identity_reduced
  · exact hr

variable (hp : (bnP : K) = 0) (hi : i ^ 2 = -1)
include hp hi

/-- `b' = 3/ξ` (R266). -/
theorem twistB_mul_xi : fp2In i twistB * (9 + i) = 3 := by
  have hmul : f2xi twistB = ⟨3, 0⟩ := by decide +kernel
  rw [mul_comm, ← fp2In_xi hp hi, hmul, fp2In_real, Nat.cast_ofNat]

theorem twistB_ne_zero : fp2In i twistB ≠ 0 := fun h0 => by
  have h3 := twistB_mul_xi hp hi
  rw [h0, zero_mul] at h3
  exact three_ne_zero_of_p hp h3.symm

/-- Every solution of the equation of the twist is a nonsingular point of it. -/
theorem twist_nonsingular_iff (x y : K) : (twistCurve i).Nonsingular x y ↔ y ^ 2 = x ^ 3 + fp2In i twistB := by
  have hΔ : (twistCurve i).Δ = -(3 ^ 3 * 2 ^ 4) * fp2In i twistB ^ 2 := by
    simp only [WeierstrassCurve.Δ, WeierstrassCurve.b₂, WeierstrassCurve.b₄, WeierstrassCurve.b₆, WeierstrassCurve.b₈,
      twistCurve]
    ring
  rw [← Affine.equation_iff_nonsingular_of_Δ_ne_zero, Affine.equation_iff]
  · simp [twistCurve]
  · rw [hΔ]
    exact mul_ne_zero (neg_ne_zero.2 (mul_ne_zero (pow_ne_zero _ (three_ne_zero_of_p hp))
      (pow_ne_zero _ (two_ne_zero_of_p hp)))) (pow_ne_zero _ (twistB_ne_zero hp hi))

/-- `on_twist` is the equation of the twist. -/
theorem onTwist_iff (q : G2) :
    onTwist q = true ↔ fp2In i q.y ^ 2 = fp2In i q.x ^ 3 + fp2In i twistB := by
  have hr : fp2In i (f2add (f2mul q.x (f2sqr q.x)) twistB) = fp2In i q.x ^ 3 + fp2In i twistB := by
    rw [fp2In_add hp, fp2In_mul hp hi, fp2In_sqr hp hi, ← pow_succ']
  rw [onTwist, decide_eq_true_eq, ← fp2In_sqr hp hi, ← hr]
  exact ⟨congrArg _, fp2In_injective hp hi (f2sqr_reduced _) (f2add_reduced _ _)⟩

/-- The identity, all zero, does not solve the equation. -/
theorem ne_g2Identity_of_nonsingular {q : G2} (hn : (twistCurve i).Nonsingular (fp2In i q.x) (fp2In i q.y)) :
    q ≠ g2Identity := by
  rintro rfl
  have heq := (twist_nonsingular_iff hp hi _ _).1 hn
  rw [g2Identity, fp2In_zero, zero_pow two_ne_zero, zero_pow three_ne_zero, zero_add] at heq
  exact twistB_ne_zero hp hi heq.symm

/-- The points that pass validation up to the subgroup are those of the group (R266, R274). -/
theorem g2_valid_iff_represents (q : G2) : (g2Reduced q = true ∧ (q = g2Identity ∨ onTwist q = true)) ↔
    ∃ g : (twistCurve i).Point, RepresentsG2 q g := by
  rw [onTwist_iff hp hi, ← twist_nonsingular_iff hp hi]
  constructor
  · rintro ⟨hr, hid | hn⟩
    · exact ⟨0, hid⟩
    · exact ⟨.some _ _ hn, hr, rfl, rfl⟩
  · rintro ⟨g, hg⟩
    obtain ⟨hid, -⟩ | ⟨hn, -⟩ := representsG2_cases hg
    · exact ⟨representsG2_reduced hg, .inl hid⟩
    · exact ⟨representsG2_reduced hg, .inr hn⟩

omit hi in
theorem g2Neg_represents {q : G2} {g : (twistCurve i).Point} (hg : RepresentsG2 q g) : RepresentsG2 (g2Neg q) (-g) := by
  obtain ⟨rfl, rfl⟩ | ⟨hn, hr, rfl⟩ := representsG2_cases hg
  · rw [Affine.Point.neg_zero, representsG2_zero_iff]
    decide
  · refine ⟨g2Reduced_iff.2 ⟨(g2Reduced_iff.1 hr).1, f2neg_reduced _⟩, rfl, ?_⟩
    rw [g2Neg, fp2In_neg hp, twistCurve_negY]

variable [DecidableEq K]

/-- The coordinates of the third point of a line are those of the group law. -/
theorem g2ChordPoint_coords (t q : G2) (lam : Fp2) :
    fp2In i (g2ChordPoint lam t q).x = (twistCurve i).addX (fp2In i t.x) (fp2In i q.x) (fp2In i lam) ∧
    fp2In i (g2ChordPoint lam t q).y =
      (twistCurve i).addY (fp2In i t.x) (fp2In i q.x) (fp2In i t.y) (fp2In i lam) := by
  rw [twistCurve_addX, twistCurve_addY]
  simp only [g2ChordPoint, fp2In_sub hp, fp2In_mul hp hi, fp2In_sqr hp hi, and_self]

/-- Two points of the twist that are not opposite have the slope of the group law. -/
theorem g2Slope_eq_slope {t q : G2} (ht : g2Reduced t = true) (hq : g2Reduced q = true)
    (hnt : (twistCurve i).Nonsingular (fp2In i t.x) (fp2In i t.y))
    (hnq : (twistCurve i).Nonsingular (fp2In i q.x) (fp2In i q.y))
    (hopp : ¬ (fp2In i t.x = fp2In i q.x ∧ fp2In i t.y = (twistCurve i).negY (fp2In i q.x) (fp2In i q.y))) :
    ∃ lam, g2Slope t q = .ok lam ∧
      fp2In i lam = (twistCurve i).slope (fp2In i t.x) (fp2In i q.x) (fp2In i t.y) (fp2In i q.y) := by
  obtain ⟨htx, hty⟩ := g2Reduced_iff.1 ht
  obtain ⟨hqx, hqy⟩ := g2Reduced_iff.1 hq
  rw [twistCurve_negY] at hopp
  by_cases hx : fp2In i t.x = fp2In i q.x
  · have hsum : fp2In i t.y + fp2In i q.y ≠ 0 := fun hs => hopp ⟨hx, eq_neg_of_add_eq_zero_left hs⟩
    have hprod : (fp2In i t.y - fp2In i q.y) * (fp2In i t.y + fp2In i q.y) = 0 := by
      have het := (twist_nonsingular_iff hp hi _ _).1 hnt
      have heq := (twist_nonsingular_iff hp hi _ _).1 hnq
      rw [hx] at het
      linear_combination het - heq
    have hy := sub_eq_zero.1 ((mul_eq_zero.1 hprod).resolve_right hsum)
    obtain rfl := g2_eq_of_components (fp2In_injective hp hi htx hqx hx) (fp2In_injective hp hi hty hqy hy)
    have hne : fp2In i t.y ≠ (twistCurve i).negY (fp2In i t.x) (fp2In i t.y) := by
      rw [twistCurve_negY]
      exact fun hc => hsum (by linear_combination hc)
    have hy0 : t.y ≠ f2zero := fun h0 => hsum (by rw [h0, fp2In_zero, add_zero])
    obtain ⟨lam, hlam, -, hval⟩ := g2Slope_tangent hp hi ht hy0
    refine ⟨lam, hlam, ?_⟩
    rw [hval, Affine.slope_of_Y_ne rfl hne, twistCurve_negY]
    simp only [twistCurve]
    congr 1
    · ring
    · ring
  · obtain ⟨lam, hlam, -, hval⟩ := g2Slope_chord hp hi ht hq fun hc => hx (congrArg _ hc)
    refine ⟨lam, hlam, ?_⟩
    rw [hval, Affine.slope_of_X_ne hx, ← neg_div_neg_eq, neg_sub, neg_sub]

/-- Complete addition of two points that are not the identity: the identity for opposite points, else the point the
slope of the group law gives. -/
theorem g2Cadd_represents_some {t q : G2} (ht : g2Reduced t = true) (hq : g2Reduced q = true)
    (hnt : (twistCurve i).Nonsingular (fp2In i t.x) (fp2In i t.y))
    (hnq : (twistCurve i).Nonsingular (fp2In i q.x) (fp2In i q.y)) :
    ∃ r, g2Cadd t q = .ok r ∧ RepresentsG2 r (Affine.Point.some _ _ hnt + Affine.Point.some _ _ hnq) := by
  have ht0 := ne_g2Identity_of_nonsingular hp hi hnt
  have hq0 := ne_g2Identity_of_nonsingular hp hi hnq
  obtain ⟨htx, -⟩ := g2Reduced_iff.1 ht
  obtain ⟨hqx, -⟩ := g2Reduced_iff.1 hq
  have hopp : (t.x = q.x ∧ f2add t.y q.y = f2zero) ↔
      (fp2In i t.x = fp2In i q.x ∧ fp2In i t.y = (twistCurve i).negY (fp2In i q.x) (fp2In i q.y)) := by
    rw [twistCurve_negY, ← fp2In_eq_zero_iff hp hi (f2add_reduced _ _), fp2In_add hp, add_eq_zero_iff_eq_neg]
    exact and_congr_left fun _ => ⟨congrArg _, fp2In_injective hp hi htx hqx⟩
  by_cases hc : t.x = q.x ∧ f2add t.y q.y = f2zero
  · obtain ⟨hx, hy⟩ := hopp.1 hc
    refine ⟨g2Identity, g2Cadd_opposite ht hq ht0 hq0 hc, ?_⟩
    rw [Affine.Point.add_of_Y_eq hx hy]
    exact representsG2_zero_iff.2 rfl
  · obtain ⟨lam, hlam, hval⟩ := g2Slope_eq_slope hp hi ht hq hnt hnq (mt hopp.2 hc)
    obtain ⟨hX, hY⟩ := g2ChordPoint_coords hp hi t q lam
    refine ⟨_, g2Cadd_of_slope ht hq ht0 hq0 hc hlam, ?_⟩
    rw [hval] at hX hY
    rw [Affine.Point.add_some (mt hopp.2 hc)]
    exact ⟨g2ChordPoint_reduced lam t q, hX, hY⟩

/-- Complete addition on the twist is the addition of the group. -/
theorem g2Cadd_represents {t q : G2} {g1 g2 : (twistCurve i).Point} (hg1 : RepresentsG2 t g1)
    (hg2 : RepresentsG2 q g2) : ∃ r, g2Cadd t q = .ok r ∧ RepresentsG2 r (g1 + g2) := by
  have ht := representsG2_reduced hg1
  have hq := representsG2_reduced hg2
  obtain ⟨hid1, rfl⟩ | ⟨hn1, -, rfl⟩ := representsG2_cases hg1
  · exact ⟨q, g2Cadd_identity_left ht hq hid1, by rwa [zero_add]⟩
  obtain ⟨hid2, rfl⟩ | ⟨hn2, -, rfl⟩ := representsG2_cases hg2
  · exact ⟨t, g2Cadd_identity_right ht hq (ne_g2Identity_of_nonsingular hp hi hn1) hid2, by rwa [add_zero]⟩
  · exact g2Cadd_represents_some hp hi ht hq hn1 hn2

/-- The loop of `g2_mul` keeps a point that stands for the multiple by the bits consumed. -/
theorem g2MulLoop_represents (k n : Nat) {q acc : G2} {g : (twistCurve i).Point} (hg : RepresentsG2 q g)
    (hacc : RepresentsG2 acc ((k >>> n) • g)) : ∃ r, g2MulLoop k q n acc = .ok r ∧ RepresentsG2 r (k • g) := by
  induction n generalizing acc with
  | zero => exact ⟨acc, rfl, hacc⟩
  | succ n ih =>
    obtain ⟨dbl, hdbl, hD⟩ := g2Cadd_represents hp hi hacc hacc
    rw [← two_nsmul, smul_smul] at hD
    have hbit := bit_add_two_mul_shift k n
    simp only [g2MulLoop, hdbl, ok_bind]
    split_ifs with h1
    · obtain ⟨sum, hsum, hS⟩ := g2Cadd_represents hp hi hD hg
      rw [h1] at hbit
      rw [← succ_nsmul, hbit] at hS
      rw [hsum, ok_bind]
      exact ih hS
    · have h0 : bit k n = 0 := by have := bit_lt_two k n; omega
      rw [h0, add_zero] at hbit
      rw [hbit] at hD
      exact ih hD

theorem g2Mul_represents (k : Nat) {q : G2} {g : (twistCurve i).Point} (hg : RepresentsG2 q g) :
    ∃ r, g2Mul k q = .ok r ∧ RepresentsG2 r (k • g) := by
  rw [g2Mul]
  split_ifs with hk
  · exact ⟨g2Identity, rfl, by rw [hk, zero_nsmul]; exact representsG2_zero_iff.2 rfl⟩
  · refine g2MulLoop_represents hp hi k _ hg ?_
    rw [Nat.shiftRight_succ, shift_msb hk, zero_nsmul]
    exact representsG2_zero_iff.2 rfl

omit [DecidableEq K] in
/-- A point that stands for a point of the group is the identity exactly if that point is 0. -/
theorem representsG2_eq_identity_iff {q : G2} {g : (twistCurve i).Point} (hg : RepresentsG2 q g) :
    q = g2Identity ↔ g = 0 := by
  obtain ⟨rfl, rfl⟩ | ⟨hn, -, rfl⟩ := representsG2_cases hg
  · exact ⟨fun _ => rfl, fun _ => rfl⟩
  · exact ⟨fun hid => absurd hid (ne_g2Identity_of_nonsingular hp hi hn),
      fun h0 => absurd h0 (Affine.Point.some_ne_zero _)⟩

theorem g2Mul_identity_iff (k : Nat) {q : G2} {g : (twistCurve i).Point} (hg : RepresentsG2 q g) :
    ∃ o, g2Mul k q = .ok o ∧ (o = g2Identity ↔ k • g = 0) := by
  obtain ⟨o, hm, ho⟩ := g2Mul_represents hp hi k hg
  exact ⟨o, hm, representsG2_eq_identity_iff hp hi ho⟩

end

/-! ### Validation, case by case (spec/46_bn254_pairing.md R274) -/

theorem validatePair_g1 {k : Pair} {c : ErrorCode} (h : checkG1 k.g1 .p1xRange .p1yRange .p1OffCurve = some c) :
    validatePair k = .ok (some c) := by
  rw [validatePair, h]

section
variable {k : Pair} (h1 : checkG1 k.g1 .p1xRange .p1yRange .p1OffCurve = none)
include h1

theorem validatePair_range (hr : g2Reduced k.g2 = false) : validatePair k = .ok (some .g2Range) := by
  simp [validatePair, h1, hr]

theorem validatePair_identity (hid : k.g2 = g2Identity) : validatePair k = .ok none := by
  have hr : g2Reduced k.g2 = true := by rw [hid]; exact g2Identity_reduced
  simp [validatePair, h1, hr, isId2_iff.2 hid]

theorem validatePair_off_twist (hr : g2Reduced k.g2 = true) (hid : k.g2 ≠ g2Identity) (ho : onTwist k.g2 = false) :
    validatePair k = .ok (some .g2OffTwist) := by
  simp [validatePair, h1, hr, isId2_iff, hid, ho]

theorem validatePair_on_twist (hr : g2Reduced k.g2 = true) (hid : k.g2 ≠ g2Identity) (ho : onTwist k.g2 = true)
    {o : G2} (hm : g2Mul bnR k.g2 = .ok o) :
    validatePair k = .ok (if o = g2Identity then none else some .g2OffGroup) := by
  simp [validatePair, h1, hr, isId2_iff, hid, ho, hm]

end

/-! ### The codes of one pair and of a list (spec/46_bn254_pairing.md R274) -/

theorem g2Reduced_false_iff {q : G2} :
    g2Reduced q = false ↔ bnP ≤ q.x.re ∨ bnP ≤ q.x.im ∨ bnP ≤ q.y.re ∨ bnP ≤ q.y.im := by
  rw [← Bool.not_eq_true, g2Reduced_iff, f2Reduced_iff, f2Reduced_iff]
  omega

theorem checkG1_of_valid {pt : Point} (cx cy cc : ErrorCode) (hx : pt.x < bnP) (hy : pt.y < bnP)
    (h : pt = identity ∨ solvesCurve pt bnP bnB) : checkG1 pt cx cy cc = none := by
  rw [checkG1_eq, rangeCode_reduced _ _ hx hy, curveCode_passes _ h, Option.none_or]

theorem checkG1_of_validPoint {pt : Point} (cx cy cc : ErrorCode) (h : validPoint pt bnP bnB = true) :
    checkG1 pt cx cy cc = none := by
  have : Fact bnP.Prime := ⟨bnP_prime⟩
  rw [validPoint, Bool.and_eq_true, Bool.or_eq_true, coordsOk_iff, isId_iff, onCurve_iff_solvesCurve] at h
  obtain ⟨⟨hx, hy⟩, hon⟩ := h
  exact checkG1_of_valid _ _ _ hx hy hon

/-- Multiplication by `r` on a valid G2 point answers. -/
theorem g2Mul_of_on_twist (k : Nat) {q : G2} (hr : g2Reduced q = true) (ho : onTwist q = true) :
    ∃ o, g2Mul k q = .ok o := by
  obtain ⟨K, hK, i, v, w, h⟩ := exists_tower
  have := Classical.decEq K
  obtain ⟨g, hg⟩ := (g2_valid_iff_represents h.p_eq_zero h.i_sq q).1 ⟨hr, .inr ho⟩
  obtain ⟨o, ho, -⟩ := g2Mul_represents h.p_eq_zero h.i_sq k hg
  exact ⟨o, ho⟩

theorem validatePairs_of_valid {ks : List Pair} (h : ∀ j ∈ ks, validatePair j = .ok none) :
    validatePairs ks = .ok none := by
  induction ks with
  | nil => rfl
  | cons k ks ih =>
    rw [validatePairs, h k List.mem_cons_self]
    exact ih fun j hj => h j (List.mem_cons_of_mem _ hj)

theorem validatePairs_first_error {pre : List Pair} (post : List Pair) {k : Pair} {c : ErrorCode}
    (hpre : ∀ j ∈ pre, validatePair j = .ok none) (hk : validatePair k = .ok (some c)) :
    validatePairs (pre ++ k :: post) = .ok (some c) := by
  induction pre with
  | nil => rw [List.nil_append, validatePairs, hk]; rfl
  | cons j pre ih =>
    rw [List.cons_append, validatePairs, hpre j List.mem_cons_self]
    exact ih fun j' hj => hpre j' (List.mem_cons_of_mem _ hj)

/-- A pair of a valid G1 point and a G2 point of the group is in error exactly outside the subgroup of order `r`. -/
theorem validatePair_of_represents {K : Type} [Field K] [DecidableEq K] {i : K} (hp : (bnP : K) = 0) (hi : i ^ 2 = -1)
    {pt : Point} (hpt : validPoint pt bnP bnB = true) {q : G2} {g : (twistCurve i).Point} (hg : RepresentsG2 q g) :
    (validatePair ⟨pt, q⟩ = .ok none ∨ validatePair ⟨pt, q⟩ = .ok (some .g2OffGroup)) ∧
    (validatePair ⟨pt, q⟩ = .ok none ↔ bnR • g = 0) := by
  have h1 := checkG1_of_validPoint .p1xRange .p1yRange .p1OffCurve hpt
  by_cases hid : q = g2Identity
  · have hv : validatePair ⟨pt, q⟩ = .ok none := validatePair_identity h1 hid
    have h0 := (representsG2_eq_identity_iff hp hi hg).1 hid
    exact ⟨.inl hv, fun _ => by rw [h0, nsmul_zero], fun _ => hv⟩
  · obtain ⟨hr, hon⟩ := (g2_valid_iff_represents hp hi q).2 ⟨g, hg⟩
    obtain ⟨o, hm, ho⟩ := g2Mul_identity_iff hp hi bnR hg
    have hv := validatePair_on_twist (k := ⟨pt, q⟩) h1 hr hid (hon.resolve_left hid) hm
    have hanswer : (validatePair ⟨pt, q⟩ = .ok none ∨ validatePair ⟨pt, q⟩ = .ok (some .g2OffGroup)) ∧
        (validatePair ⟨pt, q⟩ = .ok none ↔ o = g2Identity) := by
      rw [hv]
      split_ifs with ho0 <;> simp [ho0]
    exact ⟨hanswer.1, hanswer.2.trans ho⟩

/-- Settles O52: the codes in their order, the first pair in error, and the twist as Mathlib's group. -/
theorem pairValidation : Obligations.PairValidation := by
  unfold Obligations.PairValidation
  refine ⟨fun k => ?_, by decide, fun pre post _ _ => validatePairs_first_error post, fun _ => validatePairs_of_valid,
    fun K _ _ i hp hi => ⟨twistB_mul_xi hp hi, g2_valid_iff_represents hp hi, fun _ _ _ _ => g2Cadd_represents hp hi,
      fun q g hg => ⟨g2Neg_represents hp hg, fun n => g2Mul_represents hp hi n hg,
        fun pt hpt => validatePair_of_represents hp hi hpt hg⟩⟩⟩
  intro g1Bad g2Big g2Off
  refine ⟨fun hx => validatePair_g1 ?_, fun hx hy => validatePair_g1 ?_, fun hx hy => ⟨fun hbad => validatePair_g1 ?_,
    fun hg1 hbig => ?_, fun hg1 hbig hoff => ?_, fun hg1 _ hid => ?_, fun hg1 hbig hoff hid => ?_⟩⟩
  · rw [checkG1_eq, rangeCode_big_x _ _ hx, Option.some_or]
  · rw [checkG1_eq, rangeCode_big_y _ _ hx hy, Option.some_or]
  · rw [checkG1_eq, rangeCode_reduced _ _ hx hy, curveCode_fails _ (not_or.2 hbad), Option.none_or]
  all_goals
    have h1 : checkG1 k.g1 .p1xRange .p1yRange .p1OffCurve = none :=
      checkG1_of_valid _ _ _ hx hy (by rw [not_and_or, not_not, not_not] at hg1; exact hg1)
  · exact validatePair_range h1 (g2Reduced_false_iff.2 hbig)
  · exact validatePair_off_twist h1 (Bool.eq_true_of_not_eq_false (mt g2Reduced_false_iff.1 hbig)) hoff.1
      (decide_eq_false hoff.2)
  · exact validatePair_identity h1 hid
  · have hr : g2Reduced k.g2 = true := Bool.eq_true_of_not_eq_false (mt g2Reduced_false_iff.1 hbig)
    have ho : onTwist k.g2 = true := decide_eq_true (not_not.1 fun hne => hoff ⟨hid, hne⟩)
    obtain ⟨o, hm⟩ := g2Mul_of_on_twist bnR hr ho
    exact ⟨o, hm, validatePair_on_twist h1 hr hid ho hm⟩

end Sys2Proof.Machine
end

section
/-! PROOF. BN254_ECPAIRING (spec/46_bn254_pairing.md R267, R270 to R275): what it writes, the Miller value with one side
negated, the order of the pairing, and its values at the generators. -/

namespace Sys2Proof.Machine

/-! ### Valid pairs (spec/46_bn254_pairing.md R274) -/

theorem validatePairs_none {ks : List Pair} (h : validatePairs ks = .ok none) : ∀ k ∈ ks, validatePair k = .ok none := by
  induction ks with
  | nil => exact fun k hk => absurd hk List.not_mem_nil
  | cons k ks ih =>
    rw [validatePairs, bind_ok_iff] at h
    obtain ⟨c, hc, hrest⟩ := h
    cases c with
    | some c => exact absurd (Except.ok.inj hrest) (by simp)
    | none => exact List.forall_mem_cons.2 ⟨hc, ih hrest⟩

/-- A pair without error code: its G1 point is valid and its G2 point reduced. -/
theorem validatePair_none {k : Pair} (h : validatePair k = .ok none) :
    validPoint k.g1 bnP bnB = true ∧ g2Reduced k.g2 = true := by
  have hc : checkG1 k.g1 .p1xRange .p1yRange .p1OffCurve = none := by
    rw [validatePair] at h
    split at h
    · simp at h
    · assumption
  rw [validatePair, hc] at h
  refine ⟨?_, ?_⟩
  · rw [checkG1] at hc
    split_ifs at hc with hx hy hon
    have hon' : (isId k.g1 || onCurve k.g1 bnP bnB) = true := by
      revert hon
      cases isId k.g1 <;> cases onCurve k.g1 bnP bnB <;> simp
    rw [validPoint, hon', Bool.and_true]
    exact coordsOk_iff.2 ⟨Nat.not_le.1 hx, Nat.not_le.1 hy⟩
  · cases hr : g2Reduced k.g2 with
    | true => rfl
    | false => simp [hr] at h

/-- `x³ = -3` has no solution: BN254's G1 has no point with ordinate 0. -/
theorem cube_ne_neg_three [Fact bnP.Prime] (x : ZMod bnP) : x ^ 3 + 3 ≠ 0 := fun h => by
  have hx : x ≠ 0 := by
    rintro rfl
    exact three_ne_zero_of_lt bnP_gt_three (by linear_combination h)
  have hpow : powm (bnP - 3) ((bnP - 1) / 3) bnP ≠ 1 := by decide +kernel
  have hdiv : 3 * ((bnP - 1) / 3) = bnP - 1 := by decide +kernel
  have hcast : ((bnP - 3 : ℕ) : ZMod bnP) = x ^ 3 := by
    rw [Nat.cast_sub bnP_gt_three.le, ZMod.natCast_self, Nat.cast_ofNat]
    linear_combination -h
  refine hpow (eq_of_cast_eq (m := bnP) ?_ (by decide) ?_)
  · rw [powm_eq bnP_pos]
    exact Nat.mod_lt _ bnP_pos
  · rw [powm_eq bnP_pos, ZMod.natCast_mod, Nat.cast_pow, hcast, ← pow_mul, hdiv, ZMod.pow_card_sub_one_eq_one hx,
      Nat.cast_one]

theorem validPoint_ordinate {pt : Point} (hv : validPoint pt bnP bnB = true) (h0 : pt ≠ identity) :
    pt.y < bnP ∧ pt.y ≠ 0 := by
  have : Fact bnP.Prime := ⟨bnP_prime⟩
  rw [validPoint, Bool.and_eq_true, Bool.or_eq_true, coordsOk_iff, isId_iff, onCurve_iff] at hv
  obtain ⟨⟨-, hy⟩, hon⟩ := hv
  refine ⟨hy, fun hy0 => cube_ne_neg_three (pt.x : ZMod bnP) ?_⟩
  have heq := hon.resolve_left h0
  rw [hy0, Nat.cast_zero, bnB, Nat.cast_ofNat] at heq
  linear_combination -heq

/-! ### The steps of the Miller loop (spec/46_bn254_pairing.md R269, R270) -/

theorem millerAdd_ok_iff {pt : Point} {q : G2} {acc acc' : MillerAcc} : millerAdd pt q acc = .ok acc' ↔
    ∃ lam, g2Slope acc.t q = .ok lam ∧
      acc' = ⟨f12mul acc.f (lineValue lam acc.t pt), g2ChordPoint lam acc.t q⟩ := by
  rw [millerAdd, line, bind_assoc, bind_ok_iff]
  exact exists_congr fun lam => and_congr_right fun _ => ⟨fun h => (Except.ok.inj h).symm, fun h => congrArg _ h.symm⟩

theorem millerDbl_ok_iff {pt : Point} {acc acc' : MillerAcc} : millerDbl pt acc = .ok acc' ↔
    ∃ lam, g2Slope acc.t acc.t = .ok lam ∧
      acc' = ⟨f12mul (f12sqr acc.f) (lineValue lam acc.t pt), g2ChordPoint lam acc.t acc.t⟩ := by
  rw [millerDbl, line, bind_assoc, bind_ok_iff]
  exact exists_congr fun lam => and_congr_right fun _ => ⟨fun h => (Except.ok.inj h).symm, fun h => congrArg _ h.symm⟩

/-- One Miller loop follows another when each of its steps does. -/
theorem millerLoop_follows {pt pt' : Point} {q q' : G2} {R : MillerAcc → MillerAcc → Prop}
    (hdbl : ∀ a b a', R a b → millerDbl pt a = .ok a' → ∃ b', millerDbl pt' b = .ok b' ∧ R a' b')
    (hadd : ∀ a b a', R a b → millerAdd pt q a = .ok a' → ∃ b', millerAdd pt' q' b = .ok b' ∧ R a' b')
    (n : Nat) {a b a' : MillerAcc} (hR : R a b) (ha : millerLoop pt q n a = .ok a') :
    ∃ b', millerLoop pt' q' n b = .ok b' ∧ R a' b' := by
  induction n generalizing a b with
  | zero =>
    cases ha
    exact ⟨b, rfl, hR⟩
  | succ n ih =>
    rw [millerLoop, bind_ok_iff] at ha
    obtain ⟨da, hda, ha⟩ := ha
    obtain ⟨db, hdb, hD⟩ := hdbl a b da hR hda
    rw [millerLoop, hdb, ok_bind]
    split_ifs at ha ⊢
    · obtain ⟨na, hna, ha⟩ := bind_ok_iff.1 ha
      obtain ⟨nb, hnb, hN⟩ := hadd da db na hD hna
      rw [hnb, ok_bind]
      exact ih hN ha
    · exact ih hD ha

theorem miller_ok_iff {pt : Point} {q : G2} {f : Fp12} : miller pt q = .ok f ↔
    ∃ a b c, millerLoop pt q (msb bnLoop) ⟨f12one, q⟩ = .ok a ∧ millerAdd pt (g2Frob q) a = .ok b ∧
      millerAdd pt (g2NegFrob2 q) b = .ok c ∧ c.f = f := by
  simp only [miller, bind_ok_iff, exists_and_left]
  exact exists_congr fun a => and_congr_right fun _ => exists_congr fun b => and_congr_right fun _ =>
    exists_congr fun c => and_congr_right fun _ => ⟨Except.ok.inj, congrArg _⟩

theorem lineValue_reduced {pt : Point} (hy : pt.y < bnP) (lam : Fp2) (t : G2) :
    f12Reduced (lineValue lam t pt) = true := by
  have hpt : f2Reduced ⟨pt.y, 0⟩ = true := f2Reduced_iff.2 ⟨hy, bnP_pos⟩
  exact f12Reduced_iff.2 ⟨f6Reduced_iff.2 ⟨hpt, f2zero_reduced, f2zero_reduced⟩,
    f6Reduced_iff.2 ⟨f2neg_reduced _, f2sub_reduced _ _, f2zero_reduced⟩⟩

/-- The coefficient of 1 in a line is the ordinate of the G1 point. -/
theorem lineValue_ne_zero {pt : Point} (hy : pt.y ≠ 0) (lam : Fp2) (t : G2) :
    lineValue lam t pt ≠ ⟨f6zero, f6zero⟩ := fun h =>
  hy (congrArg (fun x : Fp12 => x.a.c0.re) h)

section
variable {K : Type} [Field K] {i v w : K} (h : TowerRoots i v w)
include h

/-! ### The Miller value is not 0 (spec/46_bn254_pairing.md R270, R271) -/

theorem fp12In_lineValue_ne_zero {pt : Point} (hy : pt.y < bnP ∧ pt.y ≠ 0) (lam : Fp2) (t : G2) :
    fp12In i v w (lineValue lam t pt) ≠ 0 :=
  fp12In_ne_zero h (lineValue_reduced hy.1 lam t) (lineValue_ne_zero hy.2 lam t)

theorem millerAdd_ne_zero {pt : Point} (hy : pt.y < bnP ∧ pt.y ≠ 0) {q : G2} {acc acc' : MillerAcc}
    (h0 : fp12In i v w acc.f ≠ 0) (hs : millerAdd pt q acc = .ok acc') : fp12In i v w acc'.f ≠ 0 := by
  obtain ⟨lam, -, rfl⟩ := millerAdd_ok_iff.1 hs
  rw [fp12In_mul h]
  exact mul_ne_zero h0 (fp12In_lineValue_ne_zero h hy _ _)

theorem millerDbl_ne_zero {pt : Point} (hy : pt.y < bnP ∧ pt.y ≠ 0) {acc acc' : MillerAcc}
    (h0 : fp12In i v w acc.f ≠ 0) (hs : millerDbl pt acc = .ok acc') : fp12In i v w acc'.f ≠ 0 := by
  obtain ⟨lam, -, rfl⟩ := millerDbl_ok_iff.1 hs
  rw [fp12In_mul h, fp12In_sqr h]
  exact mul_ne_zero (pow_ne_zero 2 h0) (fp12In_lineValue_ne_zero h hy _ _)

theorem miller_ne_zero {pt : Point} (hy : pt.y < bnP ∧ pt.y ≠ 0) {q : G2} {f : Fp12} (hm : miller pt q = .ok f) :
    fp12In i v w f ≠ 0 := by
  obtain ⟨a, b, c, ha, hb, hc, rfl⟩ := miller_ok_iff.1 hm
  obtain ⟨-, -, -, ha0⟩ := millerLoop_follows (R := fun a b => a = b ∧ fp12In i v w a.f ≠ 0)
    (fun a b a' hR hs => ⟨a', hR.1 ▸ hs, rfl, millerDbl_ne_zero h hy hR.2 hs⟩)
    (fun a b a' hR hs => ⟨a', hR.1 ▸ hs, rfl, millerAdd_ne_zero h hy hR.2 hs⟩) _
    ⟨rfl, by rw [fp12In_one]; exact one_ne_zero⟩ ha
  exact millerAdd_ne_zero h hy (millerAdd_ne_zero h hy ha0 hb) hc

end

/-! ### One side negated (spec/46_bn254_pairing.md R267, R275) -/

/-- The G2 side of a pair with one side negated: the G2 side when `m`. -/
def mirrorG2 (m : Bool) (q : G2) : G2 := if m then g2Neg q else q

/-- The G1 side of a pair with one side negated: the G1 side unless `m`. -/
def mirrorPt (m : Bool) (pt : Point) : Point := if m then pt else ⟨pt.x, negm pt.y bnP⟩

theorem g2Neg_reduced {q : G2} (hq : g2Reduced q = true) : g2Reduced (g2Neg q) = true :=
  g2Reduced_iff.2 ⟨(g2Reduced_iff.1 hq).1, f2neg_reduced _⟩

section
variable {K : Type} [Field K] {i v w : K} (h : TowerRoots i v w)
include h

theorem f2neg_eq_zero_iff {a : Fp2} (ha : f2Reduced a = true) : f2neg a = f2zero ↔ a = f2zero := by
  rw [← fp2In_eq_zero_iff h.p_eq_zero h.i_sq (f2neg_reduced a), fp2In_neg h.p_eq_zero, neg_eq_zero,
    fp2In_eq_zero_iff h.p_eq_zero h.i_sq ha]

/-- The slope through the negated points is the negated slope. -/
theorem g2Slope_neg {t q : G2} (ht : g2Reduced t = true) (hq : g2Reduced q = true) {lam : Fp2}
    (hlam : g2Slope t q = .ok lam) :
    ∃ lam', g2Slope (g2Neg t) (g2Neg q) = .ok lam' ∧ fp2In i lam' = -fp2In i lam := by
  have hd : (t = q ∧ t.y ≠ f2zero) ∨ t.x ≠ q.x := by
    rw [g2Slope] at hlam
    split_ifs at hlam with h1 h2 h3
    · exact .inl ⟨h1, h2⟩
    · exact .inr h3
  obtain ⟨rfl, hy⟩ | hx := hd
  · obtain ⟨l, hl, -, hval⟩ := g2Slope_tangent h.p_eq_zero h.i_sq ht hy
    obtain ⟨l', hl', -, hval'⟩ := g2Slope_tangent h.p_eq_zero h.i_sq (g2Neg_reduced ht)
      (mt (f2neg_eq_zero_iff h (g2Reduced_iff.1 ht).2).1 hy)
    obtain rfl := Except.ok.inj (hl.symm.trans hlam)
    refine ⟨l', hl', ?_⟩
    rw [hval', hval, g2Neg, fp2In_neg h.p_eq_zero, mul_neg, div_neg]
  · obtain ⟨l, hl, -, hval⟩ := g2Slope_chord h.p_eq_zero h.i_sq ht hq hx
    obtain ⟨l', hl', -, hval'⟩ := g2Slope_chord h.p_eq_zero h.i_sq (g2Neg_reduced ht) (g2Neg_reduced hq) hx
    obtain rfl := Except.ok.inj (hl.symm.trans hlam)
    refine ⟨l', hl', ?_⟩
    rw [hval', hval, g2Neg, g2Neg, fp2In_neg h.p_eq_zero, fp2In_neg h.p_eq_zero, neg_sub_neg, ← neg_sub, neg_div]

/-- The third point is negated with the points and the slope. -/
theorem g2ChordPoint_neg {lam lam' : Fp2} (hlam : fp2In i lam' = -fp2In i lam) (t q : G2) :
    g2ChordPoint lam' (g2Neg t) (g2Neg q) = g2Neg (g2ChordPoint lam t q) := by
  have inj := @fp2In_injective K _ i h.p_eq_zero h.i_sq
  have hsqr : f2sqr lam' = f2sqr lam := inj (f2sqr_reduced _) (f2sqr_reduced _) (by
    rw [fp2In_sqr h.p_eq_zero h.i_sq, fp2In_sqr h.p_eq_zero h.i_sq, hlam, neg_sq])
  refine g2_eq_of_components ?_ (inj (f2sub_reduced _ _) (f2neg_reduced _) ?_)
  · simp only [g2ChordPoint, g2Neg, hsqr]
  · simp only [g2ChordPoint, g2Neg, hsqr, fp2In_sub h.p_eq_zero, fp2In_neg h.p_eq_zero, fp2In_mul h.p_eq_zero h.i_sq,
      hlam]
    ring

theorem g2Frob_neg (q : G2) : g2Frob (g2Neg q) = g2Neg (g2Frob q) := by
  refine g2_eq_of_components rfl (fp2In_injective h.p_eq_zero h.i_sq (f2mul_reduced _ _) (f2neg_reduced _) ?_)
  rw [g2Frob, g2Frob, g2Neg, g2Neg, fp2In_neg h.p_eq_zero, fp2In_mul h.p_eq_zero h.i_sq,
    fp2In_mul h.p_eq_zero h.i_sq, fp2In_conj h.p_eq_zero, fp2In_conj h.p_eq_zero, f2neg, negm_in h.p_eq_zero bnP_pos,
    negm_in h.p_eq_zero bnP_pos]
  ring

theorem g2NegFrob2_neg (q : G2) : g2NegFrob2 (g2Neg q) = g2Neg (g2NegFrob2 q) := by
  refine g2_eq_of_components rfl (fp2In_injective h.p_eq_zero h.i_sq (f2neg_reduced _) (f2neg_reduced _) ?_)
  simp only [g2NegFrob2, g2Neg, fp2In_neg h.p_eq_zero, fp2In_mul h.p_eq_zero h.i_sq, neg_mul]

/-- The `p⁶`-th power of a line. -/
theorem lineValue_pow_bnP_six (lam : Fp2) (t : G2) (pt : Point) : fp12In i v w (lineValue lam t pt) ^ bnP ^ 6 =
    pt.y + fp2In i lam * pt.x * w - (fp2In i lam * fp2In i t.x - fp2In i t.y) * v * w := by
  obtain ⟨ha, hb⟩ := lineValue_halves h lam t pt
  rw [← fp12In_conj_eq_pow h, fp12In_conj h, ha, hb]
  ring

/-- A line with one side negated is, up to the sign, the `p⁶`-th power of the line, and its sum is negated with the G2
side. -/
theorem slope_mirror (m : Bool) {t q : G2} (ht : g2Reduced t = true) (hq : g2Reduced q = true) {lam : Fp2}
    (hlam : g2Slope t q = .ok lam) (pt : Point) :
    ∃ lam', g2Slope (mirrorG2 m t) (mirrorG2 m q) = .ok lam' ∧
      g2ChordPoint lam' (mirrorG2 m t) (mirrorG2 m q) = mirrorG2 m (g2ChordPoint lam t q) ∧
      ∃ e : K, e ^ 2 = 1 ∧ fp12In i v w (lineValue lam' (mirrorG2 m t) (mirrorPt m pt)) =
        e * fp12In i v w (lineValue lam t pt) ^ bnP ^ 6 := by
  cases m with
  | true =>
    obtain ⟨lam', hlam', hval⟩ := g2Slope_neg h ht hq hlam
    refine ⟨lam', hlam', g2ChordPoint_neg h hval t q, 1, one_pow 2, ?_⟩
    rw [lineValue_pow_bnP_six h, fp12In_lineValue h, hval]
    simp only [mirrorG2, mirrorPt, g2Neg, if_true, fp2In_neg h.p_eq_zero]
    ring
  | false =>
    refine ⟨lam, hlam, rfl, -1, by ring, ?_⟩
    rw [lineValue_pow_bnP_six h, fp12In_lineValue h]
    simp only [mirrorG2, mirrorPt, Bool.false_eq_true, if_false, negm_in h.p_eq_zero bnP_pos]
    ring

end

/-- A running value of the Miller loop and the one with one side negated: the point is negated with the G2 side, and the
value is, up to the sign, the `p⁶`-th power. -/
structure Mirrored {K : Type} [Field K] (i v w : K) (m : Bool) (a b : MillerAcc) : Prop where
  reduced : g2Reduced a.t = true
  point : b.t = mirrorG2 m a.t
  value : ∃ e : K, e ^ 2 = 1 ∧ fp12In i v w b.f = e * fp12In i v w a.f ^ bnP ^ 6

section
variable {K : Type} [Field K] {i v w : K} (h : TowerRoots i v w)
include h

theorem Mirrored.millerAdd {m : Bool} {pt : Point} {q : G2} (hq : g2Reduced q = true) {a b a' : MillerAcc}
    (hR : Mirrored i v w m a b) (ha : millerAdd pt q a = .ok a') :
    ∃ b', millerAdd (mirrorPt m pt) (mirrorG2 m q) b = .ok b' ∧ Mirrored i v w m a' b' := by
  obtain ⟨lam, hlam, rfl⟩ := millerAdd_ok_iff.1 ha
  obtain ⟨e, he, hval⟩ := hR.value
  obtain ⟨lam', hlam', hpoint, e', he', hline⟩ := slope_mirror h m hR.reduced hq hlam pt
  refine ⟨_, millerAdd_ok_iff.2 ⟨lam', by rw [hR.point, hlam'], rfl⟩, g2ChordPoint_reduced _ _ _, ?_, e * e', ?_, ?_⟩
  · rw [hR.point, hpoint]
  · rw [mul_pow, he, he', one_mul]
  · rw [fp12In_mul h, fp12In_mul h, hR.point, hval, hline]
    ring

theorem Mirrored.millerDbl {m : Bool} {pt : Point} {a b a' : MillerAcc}
    (hR : Mirrored i v w m a b) (ha : millerDbl pt a = .ok a') :
    ∃ b', millerDbl (mirrorPt m pt) b = .ok b' ∧ Mirrored i v w m a' b' := by
  obtain ⟨lam, hlam, rfl⟩ := millerDbl_ok_iff.1 ha
  obtain ⟨e, he, hval⟩ := hR.value
  obtain ⟨lam', hlam', hpoint, e', he', hline⟩ := slope_mirror h m hR.reduced hR.reduced hlam pt
  refine ⟨_, millerDbl_ok_iff.2 ⟨lam', by rw [hR.point, hlam'], rfl⟩, g2ChordPoint_reduced _ _ _, ?_, e', he', ?_⟩
  · rw [hR.point, hpoint]
  · rw [fp12In_mul h, fp12In_mul h, fp12In_sqr h, fp12In_sqr h, hR.point, hval, hline, mul_pow e, he]
    ring

/-- The Miller value with one side negated is, up to the sign, the `p⁶`-th power of the Miller value. -/
theorem miller_mirror (m : Bool) {pt : Point} {q : G2} (hq : g2Reduced q = true) {f : Fp12}
    (hm : miller pt q = .ok f) :
    ∃ f', miller (mirrorPt m pt) (mirrorG2 m q) = .ok f' ∧
      ∃ e : K, e ^ 2 = 1 ∧ fp12In i v w f' = e * fp12In i v w f ^ bnP ^ 6 := by
  obtain ⟨a, b, c, ha, hb, hc, rfl⟩ := miller_ok_iff.1 hm
  have hfrob : g2Frob (mirrorG2 m q) = mirrorG2 m (g2Frob q) := by
    cases m
    · rfl
    · exact g2Frob_neg h q
  have hfrob2 : g2NegFrob2 (mirrorG2 m q) = mirrorG2 m (g2NegFrob2 q) := by
    cases m
    · rfl
    · exact g2NegFrob2_neg h q
  obtain ⟨a', ha', hA⟩ := millerLoop_follows (fun _ _ _ hR => Mirrored.millerDbl h hR)
    (fun _ _ _ hR => Mirrored.millerAdd h hq hR) _
    (b := ⟨f12one, mirrorG2 m q⟩) ⟨hq, rfl, 1, one_pow 2, by rw [fp12In_one, one_pow, one_mul]⟩ ha
  obtain ⟨b', hb', hB⟩ := Mirrored.millerAdd h (g2Reduced_iff.2 ⟨f2mul_reduced _ _, f2mul_reduced _ _⟩) hA hb
  obtain ⟨c', hc', hC⟩ := Mirrored.millerAdd h (g2Reduced_iff.2 ⟨f2mul_reduced _ _, f2neg_reduced _⟩) hB hc
  exact ⟨c'.f, miller_ok_iff.2 ⟨a', b', c', ha', by rw [hfrob, hb'], by rw [hfrob2, hc'], rfl⟩, hC.value⟩

end

/-! ### Powers by `(p¹² - 1)/r` (spec/46_bn254_pairing.md R271, R272) -/

theorem finalExponent_eq : (bnP ^ 12 - 1) / bnR = (bnP ^ 6 - 1) * ((bnP ^ 6 + 1) / bnR) := by decide +kernel

theorem finalExponent_mul : (bnP ^ 12 - 1) / bnR * bnR = (bnP ^ 6 - 1) * (bnP ^ 6 + 1) := by decide +kernel

theorem bnP_pow_six_pos : 0 < bnP ^ 6 := Nat.pow_pos bnP_pos

section
variable {K : Type} [Field K] {i v w : K} (h : TowerRoots i v w)
include h

/-- An element of Fp12 is its own `p¹²`-th power. -/
theorem pow_bnP_six_twice (x : Fp12) : (fp12In i v w x ^ bnP ^ 6) ^ bnP ^ 6 = fp12In i v w x := by
  rw [← fp12In_conj_eq_pow h, ← fp12In_conj_eq_pow h, fp12In_conj h]
  simp only [f12conj, fp6In_neg h, fp12In]
  ring

omit h in
/-- The power by `p⁶ - 1` of an element not 0 is its quotient of the `p⁶`-th power and itself. -/
theorem pow_bnP_six_sub_one {x : K} (h0 : x ≠ 0) : x ^ (bnP ^ 6 - 1) = x ^ bnP ^ 6 * x⁻¹ := by
  rw [pow_sub₀ x h0 bnP_pow_six_pos, pow_one]

/-- The value of a pairing has an order that divides `r`. -/
theorem pow_finalExponent_pow_bnR {x : Fp12} (h0 : fp12In i v w x ≠ 0) :
    (fp12In i v w x ^ ((bnP ^ 12 - 1) / bnR)) ^ bnR = 1 := by
  rw [← pow_mul, finalExponent_mul, pow_mul, pow_bnP_six_sub_one h0, pow_succ _ (bnP ^ 6), mul_pow,
    inv_pow, pow_bnP_six_twice h, mul_assoc, inv_mul_cancel_left₀ (pow_ne_zero _ h0), mul_inv_cancel₀ h0]

/-- The product of an element with its `p⁶`-th power, up to the sign, is in Fp6, and its final exponentiation is 1. -/
theorem mirrored_pow_finalExponent {x : Fp12} (h0 : fp12In i v w x ≠ 0) {e : K} (he : e ^ 2 = 1) :
    (e * fp12In i v w x ^ bnP ^ 6 * fp12In i v w x) ^ ((bnP ^ 12 - 1) / bnR) = 1 := by
  have hodd : bnP ^ 6 = 2 * (bnP ^ 6 / 2) + 1 := by decide +kernel
  have he6 : e ^ bnP ^ 6 = e := by rw [hodd, pow_succ, pow_mul, he, one_pow, one_mul]
  have he0 : e ≠ 0 := fun hz => by rw [hz, zero_pow two_ne_zero] at he; exact zero_ne_one he
  have hne := mul_ne_zero (mul_ne_zero he0 (pow_ne_zero (bnP ^ 6) h0)) h0
  have hfix : (e * fp12In i v w x ^ bnP ^ 6 * fp12In i v w x) ^ bnP ^ 6 =
      e * fp12In i v w x ^ bnP ^ 6 * fp12In i v w x := by
    rw [mul_pow, mul_pow, he6, pow_bnP_six_twice h]
    ring
  rw [finalExponent_eq, pow_mul, pow_bnP_six_sub_one hne, hfix, mul_inv_cancel₀ hne, one_pow]

end

/-- The pairing of a valid point and a reduced one where the Miller loop answers (R272). -/
theorem pairing_of_miller {pt : Point} {q : G2} {f : Fp12} (hv : validPoint pt bnP bnB = true) (h0 : pt ≠ identity)
    (hm : miller pt q = .ok f) : f ≠ ⟨f6zero, f6zero⟩ ∧
      ∃ e, pairing pt q = .ok e ∧ e = f12pow f ((bnP ^ 12 - 1) / bnR) ∧ f12pow e bnR = f12one := by
  obtain ⟨K, hK, i, v, w, h⟩ := exists_tower
  have hne := miller_ne_zero h (validPoint_ordinate hv h0) hm
  refine ⟨fun hz => hne (by rw [hz, fp12In_zero]), finalExp f, by rw [pairing, hm]; rfl, finalExp_eq f, ?_⟩
  refine fp12In_injective h (f12pow_reduced _ _) f12one_reduced ?_
  rw [fp12In_pow h, finalExp_eq, fp12In_pow h, pow_finalExponent_pow_bnR h hne, fp12In_one]

/-! ### The product check on pairs with one side negated, and on identities (spec/46_bn254_pairing.md R273, R275) -/

theorem isId2_eq_false_iff {q : G2} : isId2 q = false ↔ q ≠ g2Identity := by
  rw [← Bool.not_eq_true, isId2_iff]

theorem mirrorPt_identity (m : Bool) : mirrorPt m identity = identity := by
  cases m <;> decide

theorem mirrorG2_identity (m : Bool) : mirrorG2 m g2Identity = g2Identity := by
  cases m <;> decide

theorem mirrorPt_ne_identity (m : Bool) {pt : Point} (hy : pt.y < bnP ∧ pt.y ≠ 0) : mirrorPt m pt ≠ identity := by
  intro hid
  have hy0 := congrArg Point.y hid
  cases m with
  | true => exact hy.2 hy0
  | false =>
    have hneg : (bnP - pt.y % bnP) % bnP = 0 := hy0
    rw [Nat.mod_eq_of_lt hy.1, Nat.mod_eq_of_lt (Nat.sub_lt bnP_pos (Nat.pos_of_ne_zero hy.2))] at hneg
    exact absurd hneg (Nat.sub_ne_zero_of_lt hy.1)

theorem mirrorG2_ne_identity (m : Bool) {q : G2} (hq : g2Reduced q = true) (h0 : q ≠ g2Identity) :
    mirrorG2 m q ≠ g2Identity := by
  obtain ⟨K, hK, i, v, w, h⟩ := exists_tower
  intro hid
  cases m with
  | false => exact h0 hid
  | true =>
    have hx := congrArg G2.x hid
    have hy := (f2neg_eq_zero_iff h (g2Reduced_iff.1 hq).2).1 (congrArg G2.y hid)
    exact h0 (g2_eq_of_components hx hy)

theorem pairingCheck_nil : pairingCheck [] = .ok true := rfl

theorem pairingCheck_of_identities {ks : List Pair} (h : ∀ k ∈ ks, isId k.g1 = true ∨ isId2 k.g2 = true) :
    pairingCheck ks = .ok true := by
  induction ks with
  | nil => exact pairingCheck_nil
  | cons k ks ih =>
    have hskip := pairingCheck_identity [] ks (h k List.mem_cons_self)
    rw [List.nil_append, List.nil_append] at hskip
    rw [hskip, ih fun j hj => h j (List.mem_cons_of_mem _ hj)]

/-- A pair and the pair with one side negated: the product of the pairings is 1. -/
theorem pairingCheck_mirror (m : Bool) {pt : Point} {q : G2} {f : Fp12} (hv : validPoint pt bnP bnB = true)
    (hq : g2Reduced q = true) (hm : miller pt q = .ok f) :
    pairingCheck [⟨mirrorPt m pt, mirrorG2 m q⟩, ⟨pt, q⟩] = .ok true := by
  obtain ⟨K, hK, i, v, w, h⟩ := exists_tower
  by_cases hid : pt = identity ∨ q = g2Identity
  · refine pairingCheck_of_identities (List.forall_mem_cons.2 ⟨?_, List.forall_mem_singleton.2 ?_⟩)
    · refine hid.imp (fun hp => ?_) fun hq0 => ?_
      · exact (isId_iff _).2 (by rw [hp, mirrorPt_identity])
      · exact isId2_iff.2 (by rw [hq0, mirrorG2_identity])
    · exact hid.imp (isId_iff _).2 isId2_iff.2
  obtain ⟨hpt, hq0⟩ := not_or.1 hid
  have hy := validPoint_ordinate hv hpt
  obtain ⟨f', hm', e, he, hval⟩ := miller_mirror h m hq hm
  have hproper : ∀ k ∈ [(⟨mirrorPt m pt, mirrorG2 m q⟩ : Pair), ⟨pt, q⟩], isId k.g1 = false ∧ isId2 k.g2 = false :=
    List.forall_mem_cons.2 ⟨⟨isId_eq_false_iff.2 (mirrorPt_ne_identity m hy),
      isId2_eq_false_iff.2 (mirrorG2_ne_identity m hq hq0)⟩,
      List.forall_mem_singleton.2 ⟨isId_eq_false_iff.2 hpt, isId2_eq_false_iff.2 hq0⟩⟩
  rw [pairingCheck_of_values hproper (.cons hm' (.cons hm .nil))]
  refine congrArg _ (decide_eq_true ?_)
  refine fp12In_injective h (f12pow_reduced _ _) f12one_reduced ?_
  rw [fp12In_pow h, f12Product, f12Product, f12Product, fp12In_mul h, fp12In_mul h, fp12In_one, mul_one, hval,
    mirrored_pow_finalExponent h (miller_ne_zero h hy hm) he]

/-! ### The operation (spec/46_bn254_pairing.md R273, R274) -/

/-- What BN254_ECPAIRING comes to after its memory checks, on its pairs. -/
def pairingPlan (d : Nat) (ks : List Pair) : Except FaultCause Plan :=
  validatePairs ks >>= fun c =>
    match c with
    | some code => .ok (.done [Store.bool d false] code.code)
    | none => pairingCheck ks >>= fun b => .ok (.done [Store.bool d b] retZero)

theorem bodyBn254Ecpairing_eq (s : State) : bodyBn254Ecpairing s = (answer (pairingFault s) >>= fun _ =>
    pairingPlan (ptr s 3) (rdPairs s.mem (ptr s 0) (ptr s 1) (structWord s 2).toNat)) := by
  rw [bodyBn254Ecpairing, checkF13_eq]
  rfl

theorem pairingPlan_code (d : Nat) {ks : List Pair} {c : ErrorCode} (h : validatePairs ks = .ok (some c)) :
    pairingPlan d ks = .ok (.done [Store.bool d false] c.code) := by
  rw [pairingPlan, h]
  rfl

theorem pairingPlan_answer (d : Nat) {ks : List Pair} {b : Bool} (h : validatePairs ks = .ok none)
    (hb : pairingCheck ks = .ok b) : pairingPlan d ks = .ok (.done [Store.bool d b] retZero) := by
  rw [pairingPlan, h, ok_bind, hb]
  rfl

/-- BN254_ECPAIRING: its memory faults and count bound, then an error code, then the truth value of its check. -/
theorem ecpairing_outcome {s : State} (hs : s.status = statusIdle) :
    MemoryFaultsFirst .bn254Ecpairing s (pairingFault s) ∧
    (pairingFault s = none →
      let ks := rdPairs s.mem (ptr s 0) (ptr s 1) (structWord s 2).toNat
      (∀ c, validatePairs ks = .ok (some c) →
        EndsWith .bn254Ecpairing s 0 [] [Store.bool (ptr s 3) false] c.code) ∧
      (∀ b, validatePairs ks = .ok none → pairingCheck ks = .ok b →
        EndsWith .bn254Ecpairing s 0 [] [Store.bool (ptr s 3) b] retZero)) := by
  have hbody : bodyOf .bn254Ecpairing (issued .bn254Ecpairing s) = _ := bodyBn254Ecpairing_eq _
  simp only [pairingFault_withOp, ptr_withOp, structWord_withOp] at hbody
  refine ⟨fun c hc => faultsWith_of_body hs ?_, fun hn => ⟨fun c hc => endsWith_of_done hs ?_,
    fun b hv hb => endsWith_of_done hs ?_⟩⟩
  · rw [hbody, hc]; rfl
  · rw [hbody, hn, answer_none, ok_bind, pairingPlan_code _ hc]
  · rw [hbody, hn, answer_none, ok_bind, pairingPlan_answer _ hv hb]

end Sys2Proof.Machine
end

section
/-! PROOF. BN254_ECPAIRING at the generators (spec/46_bn254_pairing.md R267, R275): the pairing is not 1 there, and the
products of D0's example of bilinearity are 1; then the statement about the operation. -/

namespace Sys2Proof.Machine

/-! ### The final exponentiation by its parts (spec/46_bn254_pairing.md R271) -/

/-- The `p²`-th power on Fp6 (spec/46_bn254_pairing.md R268 gives `γ22`). -/
def f6frob2 (a : Fp6) : Fp6 := ⟨a.c0, f2mul ⟨gamma22Re, 0⟩ a.c1, f2mul ⟨gamma22Re ^ 2, 0⟩ a.c2⟩

/-- The `p²`-th power on Fp12. -/
def f12frob2 (x : Fp12) : Fp12 :=
  ⟨f6frob2 x.a, f6mul ⟨⟨gamma22Re + 1, 0⟩, f2zero, f2zero⟩ (f6frob2 x.b)⟩

/-- The final exponentiation with its factors `p⁶ - 1` and `p² + 1` done by a conjugate, an inverse and a `p²`-th power:
what is left is a power with an exponent of a quarter of the length, which the kernel evaluates. -/
def finalExpByParts (x : Fp12) : Fp12 :=
  let u := f12mul (f12conj x) (f12inv x)
  f12pow (f12mul (f12frob2 u) u) ((bnP ^ 4 - bnP ^ 2 + 1) / bnR)

theorem finalExponent_parts :
    (bnP ^ 12 - 1) / bnR = (bnP ^ 6 - 1) * ((bnP ^ 2 + 1) * ((bnP ^ 4 - bnP ^ 2 + 1) / bnR)) := by decide +kernel

section
variable {K : Type} [Field K] {i v w : K} (h : TowerRoots i v w)
include h

theorem fp6In_frob2 (a : Fp6) : fp6In i v (f6frob2 a) = fp6In i v a ^ bnP ^ 2 := by
  rw [fp6In_pow_bnP_sq h, f6frob2, fp6In, fp2In_mul h.p_eq_zero h.i_sq, fp2In_mul h.p_eq_zero h.i_sq]
  rw [fp2In_real, fp2In_real, Nat.cast_pow]

theorem fp12In_frob2 (x : Fp12) : fp12In i v w (f12frob2 x) = fp12In i v w x ^ bnP ^ 2 := by
  have hroot : fp6In i v ⟨⟨gamma22Re + 1, 0⟩, f2zero, f2zero⟩ = rootSix K := by
    rw [fp6In, fp2In_zero, zero_mul, zero_mul, add_zero, add_zero, fp2In_real, Nat.cast_add, Nat.cast_one, rootSix]
  rw [f12frob2, fp12In, fp12In, add_pow_bnP_sq h, mul_pow, w_pow_bnP_sq h, fp6In_mul h, hroot, fp6In_frob2 h,
    fp6In_frob2 h]
  ring

theorem fp12In_finalExpByParts {x : Fp12} (h0 : fp12In i v w x ≠ 0) :
    fp12In i v w (finalExpByParts x) = fp12In i v w x ^ ((bnP ^ 12 - 1) / bnR) := by
  rw [finalExpByParts, fp12In_pow h, fp12In_mul h, fp12In_frob2 h, fp12In_mul h, fp12In_conj_eq_pow h, fp12In_inv h h0,
    finalExponent_parts, pow_mul, pow_mul, pow_bnP_six_sub_one h0, pow_succ _ (bnP ^ 2)]

end

theorem finalExp_eq_byParts {x : Fp12} (hx : f12Reduced x = true) (h0 : x ≠ ⟨f6zero, f6zero⟩) :
    finalExp x = finalExpByParts x := by
  obtain ⟨K, hK, i, v, w, h⟩ := exists_tower
  refine fp12In_injective h (by rw [finalExp_eq]; exact f12pow_reduced _ _) (f12pow_reduced _ _) ?_
  rw [finalExp_eq, fp12In_pow h, fp12In_finalExpByParts h (fp12In_ne_zero h hx h0)]

theorem millerProduct_reduced {ks : List Pair} {f g : Fp12} (hf : f12Reduced f = true)
    (hok : millerProduct ks f = .ok g) : f12Reduced g = true := by
  induction ks generalizing f with
  | nil => exact Except.ok.inj hok ▸ hf
  | cons k ks ih =>
    rcases proper_or_identity k with h | h
    · rw [millerProduct_cons_proper h, bind_ok_iff] at hok
      obtain ⟨v, -, hok⟩ := hok
      exact ih (f12mul_reduced _ _) hok
    · rw [millerProduct_cons_identity h] at hok
      exact ih hf hok

/-- The product check by parts: whether the product is 0, and whether its final exponentiation by parts is 1. -/
def pairingCheckByParts (ks : List Pair) : Except FaultCause (Bool × Bool) :=
  millerProduct ks f12one >>= fun f => .ok (decide (f = ⟨f6zero, f6zero⟩), decide (finalExpByParts f = f12one))

theorem pairingCheck_of_byParts {ks : List Pair} {b : Bool} (h : pairingCheckByParts ks = .ok (false, b)) :
    pairingCheck ks = .ok b := by
  obtain ⟨f, hf, hb⟩ := bind_ok_iff.1 h
  obtain ⟨h0, hone⟩ := Prod.mk.inj (Except.ok.inj hb)
  refine pairingCheck_ok_iff.2 ⟨f, hf, ?_⟩
  rwa [finalExp_eq_byParts (millerProduct_reduced f12one_reduced hf) (of_decide_eq_false h0)]

/-! ### Values at the generators (spec/46_bn254_pairing.md R267, R275) -/

/-- `2P` of spec/95_test_vectors.md. -/
def g1Times2 : Point :=
  ⟨0x030644E72E131A029B85045B68181585D97816A916871CA8D3C208C16D87CFD3,
    0x15ED738C0E0A7C92E7845F96B2AE9C0A68A6A449E3538FC7FF3EBF7A5A18A2C4⟩

/-- `12P` of spec/95_test_vectors.md. -/
def g1Times12 : Point :=
  ⟨0x25D32C471C8CD1AB9AC9B4118D040166F75AD9E4F36526B09FC0B7D1002BC851,
    0x2DB09AE9BC0CB9ADDF3404069078F0367FF42B63CB1C200BAE5BF9095585B69C⟩

/-- `24P` of spec/95_test_vectors.md. -/
def g1Times24 : Point :=
  ⟨0x2D3884EE594280D7510D2D0D5E732E53085668E1B6D8F91DE3942F922EC35FB2,
    0x152FB4DA392DA5C238D1E65A12A41F89C9AB5F5E7A77107AD38E34A1B835CE5B⟩

/-- `2Q` of spec/95_test_vectors.md. -/
def g2Times2 : G2 :=
  ⟨⟨0x27DC7234FD11D3E8C36C59277C3E6F149D5CD3CFA9A62AEE49F8130962B4B3B9,
    0x203E205DB4F19B37B60121B83A7333706DB86431C6D835849957ED8C3928AD79⟩,
   ⟨0x04BB53B8977E5F92A0BC372742C4830944A59B4FE6B1C0466E2A6DAD122B5D2E,
    0x195E8AA5B7827463722B8C153931579D3505566B4EDF48D498E185F0509DE152⟩⟩

/-- `12Q` of spec/95_test_vectors.md. -/
def g2Times12 : G2 :=
  ⟨⟨0x099ECE5FA385A639DFF850E44C21126247B71082B0D94CED9990C4F783E78FC5,
    0x0486687755AD3E809546DBB3D53487DFADA5D1130460685D9FA008B0854738C5⟩,
   ⟨0x00B6884E5D02665B86897C3C692D952CCC56CB84BC137759311BB2C2C86690CF,
    0x1FA69C987C6371FF51704116523CBD21059E40D295EB0F4E2702AB556C5EFF3E⟩⟩

theorem multiples_of_generators : smul 2 ⟨1, 2⟩ bnP 0 1 = .ok g1Times2 ∧
    smul 12 ⟨1, 2⟩ bnP 0 3 = .ok g1Times12 ∧ smul 24 ⟨1, 2⟩ bnP 0 4 = .ok g1Times24 ∧
    g2Mul 2 bnG2 = .ok g2Times2 ∧ g2Mul 12 bnG2 = .ok g2Times12 := by decide +kernel

theorem generators_valid : validatePair ⟨⟨1, 2⟩, bnG2⟩ = .ok none := by
  have hg1 : checkG1 ⟨1, 2⟩ .p1xRange .p1yRange .p1OffCurve = none := by decide +kernel
  have horder : g2Mul bnR bnG2 = .ok g2Identity := by decide +kernel
  rw [validatePair_on_twist (k := ⟨⟨1, 2⟩, bnG2⟩) hg1 (by decide) (by decide) (by decide +kernel) horder, if_pos rfl]

/-- The pairing of the generators is not 1. -/
theorem generators_pairing_ne_one : pairingCheck [⟨⟨1, 2⟩, bnG2⟩] = .ok false :=
  pairingCheck_of_byParts (by decide +kernel)

/-- `e(2P, 12Q) = e(24P, Q)`. -/
theorem bilinear_two_twelve :
    pairingCheck [⟨g1Times2, g2Times12⟩, ⟨⟨g1Times24.x, negm g1Times24.y bnP⟩, bnG2⟩] = .ok true :=
  pairingCheck_of_byParts (by decide +kernel)

/-- `e(12P, 2Q) = e(24P, Q)`. -/
theorem bilinear_twelve_two :
    pairingCheck [⟨g1Times12, g2Times2⟩, ⟨⟨g1Times24.x, negm g1Times24.y bnP⟩, bnG2⟩] = .ok true :=
  pairingCheck_of_byParts (by decide +kernel)

/-! ### The operation (spec/46_bn254_pairing.md R273, R275) -/

/-- What follows the truth value of the check, on the lists of pairs of O51: none, identities only, one side negated, and
the generators. -/
theorem answers_of_pairs {ks : List Pair} {ends : Bool → Prop}
    (hanswer : ∀ b, validatePairs ks = .ok none → pairingCheck ks = .ok b → ends b) :
    (ks = [] → ends true) ∧
    ((∀ k ∈ ks, validatePair k = .ok none ∧ (isId k.g1 = true ∨ isId2 k.g2 = true)) → ends true) ∧
    (∀ (pt : Point) (q : G2) (f : Fp12),
      (ks = [⟨pt, g2Neg q⟩, ⟨pt, q⟩] ∨ ks = [⟨⟨pt.x, negm pt.y bnP⟩, q⟩, ⟨pt, q⟩]) →
      validatePairs ks = .ok none → miller pt q = .ok f → ends true) ∧
    (ks = [⟨⟨1, 2⟩, bnG2⟩] → ends false) := by
  refine ⟨?_, fun hks => ?_, fun pt q f hks hv hm => ?_, ?_⟩
  · rintro rfl
    exact hanswer true rfl pairingCheck_nil
  · exact hanswer true (validatePairs_of_valid fun k hk => (hks k hk).1)
      (pairingCheck_of_identities fun k hk => (hks k hk).2)
  · obtain ⟨m, rfl⟩ : ∃ m, ks = [⟨mirrorPt m pt, mirrorG2 m q⟩, ⟨pt, q⟩] :=
      hks.elim (fun h => ⟨true, h⟩) fun h => ⟨false, h⟩
    obtain ⟨hpt, hq⟩ := validatePair_none (validatePairs_none hv ⟨pt, q⟩ (by simp))
    exact hanswer true hv (pairingCheck_mirror m hpt hq hm)
  · rintro rfl
    exact hanswer false (validatePairs_of_valid (List.forall_mem_singleton.2 generators_valid)) generators_pairing_ne_one

/-- Settles O51: the checks of the body in their order; the Miller value with one side negated as a `p⁶`-th power; the
values at the generators, evaluated. -/
theorem ecpairingOutcome : Obligations.EcpairingOutcome := by
  unfold Obligations.EcpairingOutcome
  refine ⟨fun s hs => ?_, fun pt q f hv h0 _ hm => pairing_of_miller hv h0 hm, generators_valid, ?_⟩
  · obtain ⟨hmem, hrest⟩ := ecpairing_outcome hs
    refine ⟨hmem, fun hn => ?_⟩
    obtain ⟨hcode, hanswer⟩ := hrest hn
    obtain ⟨hnil, hids, hmirror, hgen⟩ := answers_of_pairs hanswer
    exact ⟨hcode, hanswer, fun h0 => hnil (by rw [h0, rdPairs]), hids, hmirror, hgen⟩
  · obtain ⟨h2, h12, h24, hq2, hq12⟩ := multiples_of_generators
    exact ⟨_, _, _, _, _, h2, h12, h24, hq2, hq12, bilinear_two_twelve, bilinear_twelve_two⟩

end Sys2Proof.Machine
end

section
/-! PROOF. The statements about faults and register reads (spec/60_exceptions.md): how an issue comes out, which fault
comes first, what a fault discards, how long it lasts, and that no completed result depends on the hint words. -/

namespace Sys2Proof.Machine

/-! ### Reads of registers (spec/60_exceptions.md R310; spec/10_state.md R25, R26) -/

theorem hostStep_readReg_some {s : State} {r : Reg} {v : Word} (h : readReg s r = some v) :
    hostStep (.readReg r) s = .next s := by
  simp only [hostStep, hostRead, h]

theorem hostStep_readReg_none {s : State} {r : Reg} (h : readReg s r = none) :
    hostStep (.readReg r) s = .refused (.readOfWriteOnly r) := by
  simp only [hostStep, hostRead, h]

/-- Settles O9: four registers have a value to read, the two write-only ones have none. -/
theorem registerReads : Obligations.RegisterReads := by
  unfold Obligations.RegisterReads
  refine fun s => ⟨⟨rfl, rfl, rfl, rfl⟩, ?_, ?_, fun _ _ => rfl⟩
  · intro r hr
    fin_cases hr <;> exact hostStep_readReg_some rfl
  · intro r hr
    fin_cases hr <;> exact hostStep_readReg_none rfl

/-! ### How an issue and a completion come out (spec/60_exceptions.md R300, R306) -/

/-- An operation has ended: no fault is new and nothing is latched. -/
structure Ended (s t : State) : Prop where
  status : t.status = statusIdle
  cause  : t.cause = s.cause
  pend   : t.pend = none

/-- An operation has faulted: memory and `RET` are as before, nothing is latched, `CAUSE` is the code of a cause. -/
structure Faulted (s t : State) : Prop where
  status : t.status = statusFault
  mem    : t.mem = s.mem
  ret    : t.ret = s.ret
  pend   : t.pend = none
  cause  : ∃ c : FaultCause, t.cause = c.code

theorem complete_ended_or_faulted (p : Pend) (s : State) : Ended s (complete p s) ∨ Faulted s (complete p s) := by
  obtain ⟨hpend, hend | hfault, -, -⟩ := complete_idle_or_fault p s
  · exact .inl ⟨hend.1, hend.2, hpend⟩
  · obtain ⟨hs, hm, hr, hc⟩ := hfault
    exact .inr ⟨hs, hm, hr, hpend, hc⟩

/-- Everything an issue can do with its body's answer: end, wait with the record the body asked for, or fault. -/
theorem applyPlan_cases (s : State) (r : Except FaultCause Plan) :
    Ended s (applyPlan s r) ∨
    (∃ p, r = .ok (.hint p) ∧
      applyPlan s r = { recordQuery p.query s with status := statusWaitHint, pend := some p }) ∨
    Faulted s (applyPlan s r) := by
  cases r with
  | error c => exact .inr (.inr ⟨rfl, rfl, rfl, rfl, c, rfl⟩)
  | ok pl =>
    cases pl with
    | done ss ret => exact .inl ⟨rfl, rfl, rfl⟩
    | hint p =>
      simp only [applyPlan]
      by_cases hle : p.need ≤ s.hintq.length
      · rw [startHinted_completes hle]
        refine (complete_ended_or_faulted p (recordQuery p.query s)).imp ?_ fun hf => .inr ?_
        · exact fun he => ⟨he.status, he.cause, he.pend⟩
        · exact ⟨hf.status, hf.mem, hf.ret, hf.pend, hf.cause⟩
      · exact .inr (.inl ⟨p, rfl, startHinted_waits (Nat.lt_of_not_le hle)⟩)

/-- Every code of a cause is one of 1 to 6 (spec/60_exceptions.md R302). -/
theorem one_le_causeCode (c : FaultCause) : 1 ≤ c.code.toNat := by cases c <;> decide

/-- Settles O12: only the faulted outcome has `STATUS` `FAULT`. -/
theorem faultLeavesMemory : Obligations.FaultLeavesMemory := by
  unfold Obligations.FaultLeavesMemory
  refine ⟨fun i s t hs ht hfault => ?_, fun p s hfault => ?_⟩
  · rw [exec_idle hs] at ht
    obtain rfl := Host.Outcome.next.inj ht
    obtain ⟨hop, harg, -, -⟩ := applyPlan_fields (issued i s) (bodyOf i (issued i s))
    rcases applyPlan_cases (issued i s) (bodyOf i (issued i s)) with hend | ⟨p, -, hwait⟩ | hf
    · rw [hend.status] at hfault
      exact absurd hfault idle_ne_fault
    · rw [hwait] at hfault
      exact absurd hfault waitHint_ne_fault
    · obtain ⟨c, hc⟩ := hf.cause
      exact ⟨hf.mem, hf.ret, harg, hop, hf.pend, c, hc, one_le_causeCode c, causeCode_le c⟩
  · obtain ⟨-, -, harg, hop⟩ := complete_idle_or_fault p s
    rcases complete_ended_or_faulted p s with hend | hf
    · rw [hend.status] at hfault
      exact absurd hfault idle_ne_fault
    · exact ⟨hf.mem, hf.ret, harg, hop, hf.pend, hf.cause⟩

/-- Settles O14: a busy machine ignores the issue; in `IDLE` the issue has three outcomes, and only a body that asks
for hint words can wait. -/
theorem operationsNeverStop : Obligations.OperationsNeverStop := by
  unfold Obligations.OperationsNeverStop
  intro i s
  by_cases hs : s.status = statusIdle
  · refine ⟨_, exec_idle hs, fun h => absurd hs h, fun _ => ?_⟩
    rcases applyPlan_cases (issued i s) (bodyOf i (issued i s)) with hend | ⟨p, hbody, hwait⟩ | hf
    · exact .inl ⟨hend.status, hend.cause, hend.pend⟩
    · obtain ⟨hinstr, hmem⟩ := bodyOf_hint hbody
      rw [hwait]
      exact .inr (.inl ⟨rfl, rfl, rfl, rfl, hmem, p, rfl, hinstr⟩)
    · exact .inr (.inr ⟨hf.status, hf.mem, hf.ret⟩)
  · exact ⟨s, exec_busy hs, fun _ => rfl, fun h => absurd h hs⟩

/-! ### The first fault of every operation (spec/60_exceptions.md R305, items 2 and 3) -/

theorem structFault_misaligned {s : State} (n : Nat) (acc : Access) (h : s.arg.toNat % 8 ≠ 0) :
    structFault s n acc = some .misaligned := if_pos h

theorem structFault_access {s : State} {n : Nat} {acc : Access} (ha : s.arg.toNat % 8 = 0)
    (h : rangeOk s.plat.map acc s.arg.toNat (8 * n) = false) : structFault s n acc = some .access := by
  rw [structFault, if_neg (not_not_intro ha), if_pos h]

/-- A body of a fixed-size format whose structure fails its checks answers that fault. -/
theorem body_structFault {f : Format} {s : State} {c : FaultCause} {α : Type} {k : Unit → Except FaultCause α}
    (h : structFault s f.words f.acc = some c) : (checkFormat s f >>= k) = .error c :=
  body_memoryFault (by rw [memoryFault, h, Option.some_or])

/-- The structure is what every operation's body checks first. -/
theorem bodyOf_structFault (i : Instr) {s : State} {c : FaultCause}
    (h : structFault s (structureOf i).1 (structureOf i).2 = some c) : bodyOf i s = .error c := by
  cases i <;> simp only [bodyOf]
  case add256 => exact body_structFault (f := formatF1) h
  case modadd256 | modsub256 | modmul256 => exact body_structFault (f := formatF4 4) h
  case modadd384 | modsub384 | modmul384 => exact body_structFault (f := formatF4 6) h
  case modneg256 | modsqr256 => exact body_structFault (f := formatF5 4) h
  case modneg384 | modsqr384 => exact body_structFault (f := formatF5 6) h
  case arith256 => exact body_structFault (f := formatF2) h
  case arith256Mod => exact body_structFault (f := formatF3 4) h
  case arith384Mod => exact body_structFault (f := formatF3 6) h
  case modinv256F | modinv256H => exact body_structFault (f := formatF5 4) h
  case modinv384F | modinv384H => exact body_structFault (f := formatF5 6) h
  case bn254FpInv => exact body_structFault (f := formatF6) h
  case modexp =>
    have hc : modexpFault s = some c := by rw [modexpFault]; exact Option.or_eq_some_iff.2 (.inl h)
    rw [bodyModexp, checkF7_eq, hc]
    rfl
  case secp256k1Add | secp256k1Cadd | bn254CurveAdd | bn254Cadd => exact body_structFault (f := formatF8) h
  case bn254ComplexAdd | bn254ComplexSub | bn254ComplexMul => exact body_structFault (f := formatF8) h
  case secp256k1Dbl | bn254CurveDbl => exact body_structFault (f := formatF9) h
  case secp256k1Mul | bn254Ecmul => exact body_structFault (f := formatF10) h
  case secp256k1DmulG => exact body_structFault (f := formatF11) h
  case bn254Ecadd => exact body_structFault (f := formatF12) h
  case bn254Ecpairing =>
    have hc : pairingFault s = some c := by rw [pairingFault]; exact Option.or_eq_some_iff.2 (.inl h)
    rw [bodyBn254Ecpairing, checkF13_eq, hc]
    rfl

/-- Settles O16: the fault of the structure is the first one of every body. -/
theorem structureFaultsFirst : Obligations.StructureFaultsFirst := by
  unfold Obligations.StructureFaultsFirst
  refine fun i s hs => ⟨fun ha => ?_, fun ha hr => ?_⟩
  · exact faultsWith_of_body hs (bodyOf_structFault i (structFault_misaligned (s := issued i s) _ _ ha))
  · exact faultsWith_of_body hs (bodyOf_structFault i (structFault_access (s := issued i s) ha hr))

/-! ### A fault lasts until a reset (spec/60_exceptions.md R307; spec/70_reset_and_hazards.md R340, R349) -/

/-- In `FAULT` a host action other than a reset changes at most memory, and only a store does. -/
theorem hostStep_fault {s t : State} {act : HostAction} (hs : s.status = statusFault) (hact : act ≠ .reset)
    (h : hostStep act s = .next t) :
    t = { s with mem := t.mem } ∧ ((∀ a v, act ≠ .store a v) → t.mem = s.mem) := by
  have hidle : s.status ≠ statusIdle := by simp [hs]
  rcases hostStep_cases h with ⟨c, i, rfl, -, hx⟩ | ⟨c, e, rfl, -, hx⟩ | ⟨v, rfl, rfl⟩ | ⟨w, rfl, rfl | ⟨hne, -⟩⟩ |
    ⟨r, rfl, rfl⟩ | ⟨a, v, rfl, -, rfl⟩ | ⟨rfl, -⟩
  · rw [exec_busy hidle] at hx
    cases hx
    simp
  · rw [issueIllegal_busy hidle] at hx
    cases hx
    simp
  · simp [hostWriteArg_busy v hidle]
  · simp
  · exact absurd hs hne
  · simp
  · simp
  · exact absurd rfl hact

/-- In `FAULT` a step in which the host applies no reset takes the host's next action away and changes at most memory,
and memory only if that action is a store. -/
theorem step_fault {s t : State} (hs : s.status = statusFault) (hact : ∀ act ∈ s.host.head?, act ≠ .reset)
    (h : step s = .next t) :
    t = { s with host := s.host.tail, mem := t.mem } ∧
      ((∀ act ∈ s.host.head?, ∀ a v, act ≠ .store a v) → t.mem = s.mem) := by
  rcases step_cases h with ⟨p, hr, -⟩ | ⟨-, hh, rfl⟩ | ⟨act, rest, -, hh, h⟩
  · simp [readyPend_not_waiting (s := s) (by simp [hs])] at hr
  · rw [hh]
    exact ⟨by rw [List.tail_nil, ← hh], fun _ => rfl⟩
  · rw [hh, List.head?_cons] at hact ⊢
    obtain ⟨ht, hmem⟩ := hostStep_fault (s := { s with host := rest }) hs (hact act rfl) h
    exact ⟨ht, fun hstore => hmem (hstore act rfl)⟩

/-- The first action of the script and the next `k` ones are its first `k + 1`. -/
theorem forall_mem_take_succ_iff {α : Type} {l : List α} {k : Nat} {P : α → Prop} :
    (∀ x ∈ l.take (k + 1), P x) ↔ (∀ x ∈ l.head?, P x) ∧ ∀ x ∈ l.tail.take k, P x := by
  cases l with
  | nil => simp
  | cons x rest => simp

/-- A run from `FAULT` in which the host applies no reset takes the host's actions away and changes at most memory, and
memory only by a store. -/
theorem run_fault {k : Nat} {s t : State} (hs : s.status = statusFault)
    (hact : ∀ act ∈ s.host.take k, act ≠ .reset) (h : Host.Core.run Sys2Proof.core k s = .next t) :
    t = { s with host := s.host.drop k, mem := t.mem } ∧
      ((∀ act ∈ s.host.take k, ∀ a v, act ≠ .store a v) → t.mem = s.mem) := by
  induction k generalizing s with
  | zero =>
    obtain rfl := Host.Outcome.next.inj h
    exact ⟨rfl, fun _ => rfl⟩
  | succ k ih =>
    obtain ⟨u, hu, hrun⟩ := run_succ_next h
    obtain ⟨hfirst, hlater⟩ := forall_mem_take_succ_iff.1 hact
    obtain ⟨hstep, hstepmem⟩ := step_fault hs hfirst hu
    have hhost : u.host = s.host.tail := by rw [hstep]
    have hstatus : u.status = statusFault := by rw [hstep, hs]
    obtain ⟨hend, hendmem⟩ := ih hstatus (hhost ▸ hlater) hrun
    refine ⟨?_, fun hstore => ?_⟩
    · rw [hend, hstep, List.drop_tail]
    · obtain ⟨hstore1, hstores⟩ := forall_mem_take_succ_iff.1 hstore
      exact (hendmem (hhost ▸ hstores)).trans (hstepmem hstore1)

/-- Settles O13: a run without a reset keeps all but memory and the script; a reset step is `applyReset`. -/
theorem faultIsSticky : Obligations.FaultIsSticky := by
  unfold Obligations.FaultIsSticky
  refine ⟨fun k s t hs hact h => ?_, fun s rest hs hh => ?_⟩
  · obtain ⟨ht, hmem⟩ := run_fault hs hact h
    rw [ht]
    exact ⟨hs, rfl, rfl, rfl, rfl, rfl, rfl, rfl, hmem⟩
  · have hr : readyPend s = none := readyPend_not_waiting (by simp [hs])
    exact ⟨_, step_of_host hr hh, rfl, rfl⟩

/-! ### At most one answer (spec/60_exceptions.md R304; spec/42_modinv.md R150; spec/44_secp256k1.md R207, R209) -/

/-- Whatever the hint words, a verified computation has at most one answer. -/
def SingleAnswer {β : Type} (f : List Word → Except FaultCause β) : Prop :=
  ∀ ⦃ws ws' : List Word⦄ ⦃b b' : β⦄, f ws = .ok b → f ws' = .ok b' → b = b'

/-- What is written from the answer is as unique as the answer. -/
theorem SingleAnswer.bind_ok {β γ : Type} {f : List Word → Except FaultCause β} (hf : SingleAnswer f) (g : β → γ) :
    SingleAnswer fun ws => f ws >>= fun b => .ok (g b) := by
  intro ws ws' c c' h h'
  obtain ⟨b, hb, hc⟩ := bind_ok_iff.1 h
  obtain ⟨b', hb', hc'⟩ := bind_ok_iff.1 h'
  rw [← Except.ok.inj hc, ← Except.ok.inj hc', hf hb hb']

theorem hintedInverse_ok {a m r : Nat} {ws : List Word} (h : hintedInverse a m ws = .ok r) :
    r < m ∧ a * r % m = 1 := by
  by_cases hok : fromLimbs ws < m ∧ a * fromLimbs ws % m = 1
  · rw [hintedInverse_accepts hok] at h
    rwa [← Except.ok.inj h]
  · rw [hintedInverse_rejects hok] at h
    cases h

theorem hintedInverse_singleAnswer (a m : Nat) : SingleAnswer (hintedInverse a m) := by
  intro ws ws' r r' h h'
  obtain ⟨hr, hinv⟩ := hintedInverse_ok h
  obtain ⟨hr', hinv'⟩ := hintedInverse_ok h'
  exact inverse_unique hr hr' hinv hinv'

/-- A number has one true position. -/
theorem hintExact_unique {v li bi li' bi' : Nat} (h : hintExact v li bi) (h' : hintExact v li' bi') :
    li = li' ∧ bi = bi' := by
  obtain ⟨-, hbi, hlog⟩ := h
  obtain ⟨-, hbi', hlog'⟩ := h'
  omega

/-- A computation that answers only for the true position of a number has one answer. -/
theorem singleAnswer_of_hintExact {β : Type} {x : Nat → Nat → Except FaultCause β} {v : Nat}
    (hx : ∀ {li bi b}, x li bi = .ok b → hintExact v li bi) :
    SingleAnswer fun ws => x (hintWord ws 0) (hintWord ws 1) := by
  intro ws ws' b b' h h'
  obtain ⟨hli, hbi⟩ := hintExact_unique (hx h) (hx h')
  simp only [hli, hbi] at h
  exact Except.ok.inj (h.symm.trans h')

/-- Every latched record completes with one result, if any. -/
theorem Pend.result_singleAnswer (p : Pend) : SingleAnswer p.result := by
  cases p with
  | modinv256H a m d => exact (hintedInverse_singleAnswer _ _).bind_ok fun r => ([Store.int 4 d.toNat r], retZero)
  | modinv384H a m d => exact (hintedInverse_singleAnswer _ _).bind_ok fun r => ([Store.int 6 d.toNat r], retZero)
  | bn254FpInv a d => exact (hintedInverse_singleAnswer _ _).bind_ok fun r => ([Store.int 4 d.toNat r], retZero)
  | secpMul k px py q =>
    exact (singleAnswer_of_hintExact hintExact_of_smul_ok).bind_ok fun r => ([Store.point q.toNat r], retZero)
  | secpDmulG k1 k2 px py q =>
    exact (singleAnswer_of_hintExact hintExact_of_dsmul_ok).bind_ok fun r => ([Store.point q.toNat r], retZero)
  | bnEcmul k px py q =>
    exact (singleAnswer_of_hintExact hintExact_of_smul_ok).bind_ok fun r => ([Store.point q.toNat r], retZero)

/-! ### No completed result depends on the hint words (spec/60_exceptions.md R304) -/

/-- A completion in `IDLE` has written the result of the record. -/
theorem complete_of_idle {p : Pend} {s : State} (h : (complete p s).status = statusIdle) :
    ∃ ss ret, p.result (s.hintq.take p.need) = .ok (ss, ret) ∧ (complete p s).mem = applyStores s.mem ss ∧
      (complete p s).ret = ret := by
  rcases complete_cases p s with ⟨ss, ret, hr, hc⟩ | ⟨c, -, hc⟩ <;> rw [hc] at h ⊢
  · exact ⟨ss, ret, hr, rfl, rfl⟩
  · exact absurd h fault_ne_idle

/-- Two completions of one record in `IDLE`, on the same memory, agree on memory and `RET`. -/
theorem complete_hint_independent {p : Pend} {s s' : State} (hm : s.mem = s'.mem)
    (h : (complete p s).status = statusIdle) (h' : (complete p s').status = statusIdle) :
    (complete p s).mem = (complete p s').mem ∧ (complete p s).ret = (complete p s').ret := by
  obtain ⟨ss, ret, hr, hmem, hret⟩ := complete_of_idle h
  obtain ⟨ss', ret', hr', hmem', hret'⟩ := complete_of_idle h'
  obtain ⟨rfl, rfl⟩ := Prod.mk.inj (p.result_singleAnswer hr hr')
  exact ⟨by rw [hmem, hmem', hm], by rw [hret, hret']⟩

theorem startHinted_of_idle {p : Pend} {s : State} (h : (startHinted p s).status = statusIdle) :
    startHinted p s = complete p (recordQuery p.query s) := by
  by_cases hle : p.need ≤ s.hintq.length
  · exact startHinted_completes hle
  · rw [startHinted_waits (Nat.lt_of_not_le hle)] at h
    exact absurd h waitHint_ne_idle

/-- Two ends in `IDLE` of one answer of a body, on the same memory, agree on memory and `RET`. -/
theorem applyPlan_hint_independent {s s' : State} {r : Except FaultCause Plan} (hm : s.mem = s'.mem)
    (h : (applyPlan s r).status = statusIdle) (h' : (applyPlan s' r).status = statusIdle) :
    (applyPlan s r).mem = (applyPlan s' r).mem ∧ (applyPlan s r).ret = (applyPlan s' r).ret := by
  cases r with
  | error c => exact absurd h fault_ne_idle
  | ok pl =>
    cases pl with
    | done ss ret => exact ⟨congrArg (applyStores · ss) hm, rfl⟩
    | hint p =>
      simp only [applyPlan] at h h' ⊢
      have hc := startHinted_of_idle h
      have hc' := startHinted_of_idle h'
      rw [hc] at h ⊢
      rw [hc'] at h' ⊢
      exact complete_hint_independent (s := recordQuery p.query s) (s' := recordQuery p.query s') hm h h'

/-- Settles O54: the body's answer does not see the hint queue, and a latched record has one result. -/
theorem hintIndependence : Obligations.HintIndependence := by
  unfold Obligations.HintIndependence
  refine ⟨fun i s hq hq' t t' hs ht ht' h h' => ?_, fun p s hq hq' h h' => complete_hint_independent rfl h h'⟩
  have hb : bodyOf i (issued i { s with hintq := hq' }) = bodyOf i (issued i { s with hintq := hq }) :=
    SameOperands.bodyOf_congr (s := issued i { s with hintq := hq' }) (s' := issued i { s with hintq := hq })
      ⟨rfl, rfl, rfl⟩ i
  rw [exec_idle (s := { s with hintq := hq }) hs] at ht
  rw [exec_idle (s := { s with hintq := hq' }) hs, hb] at ht'
  obtain rfl := Host.Outcome.next.inj ht
  obtain rfl := Host.Outcome.next.inj ht'
  exact applyPlan_hint_independent (s := issued i { s with hintq := hq })
    (s' := issued i { s with hintq := hq' }) rfl h h'

end Sys2Proof.Machine
end

section
/-! PROOF. The statements about reset and about host writes at the wrong time (spec/70_reset_and_hazards.md R340, R351):
the state after reset meets the machine invariant, and outside `IDLE` writes to `OP` and `ARG` are dropped. -/

namespace Sys2Proof.Machine

/-! ### Reset (spec/70_reset_and_hazards.md R340) -/

theorem Memory.wf_nil : Memory.wf [] := ⟨List.Pairwise.nil, fun _ hc => absurd hc List.not_mem_nil⟩

/-- Settles O5: reset lists no byte of memory, latches nothing, and is in `IDLE` with `CAUSE` `NONE`. -/
theorem resetInv : Obligations.ResetInv := by
  unfold Obligations.ResetInv
  have hmem : State.reset.mem.wf := Memory.wf_nil
  have hidle : State.reset.status = statusIdle ∧ State.reset.cause = causeNone := ⟨rfl, rfl⟩
  exact .of_not_waiting hmem rfl (.inl hidle)

/-! ### Dropped writes (spec/70_reset_and_hazards.md R351) -/

/-- Outside `IDLE` a write to `OP` is dropped, whether its code is in the table or not. -/
theorem hostStep_writeOp_busy {s : State} (h : s.status ≠ statusIdle) (c : Byte) :
    hostStep (.writeOp c) s = .next s := by
  cases hd : decode c with
  | ok i => exact (hostStep_writeOp_ok s hd).trans (exec_busy h)
  | error e => exact (hostStep_writeOp_error s hd).trans (issueIllegal_busy h)

theorem hostStep_writeArg_busy {s : State} (h : s.status ≠ statusIdle) (v : Word) :
    hostStep (.writeArg v) s = .next s :=
  congrArg Host.Outcome.next (hostWriteArg_busy v h)

/-- Settles O7, from the rule of each of the two writes outside `IDLE`. -/
theorem ignoredWrites : Obligations.IgnoredWrites := by
  unfold Obligations.IgnoredWrites
  exact fun s h => ⟨hostStep_writeOp_busy h, hostStep_writeArg_busy h⟩

end Sys2Proof.Machine
end
